-- ==== Sys2Proof/Word.lean ====
section
/-! DEFINITION. The words of the block: a command word, a byte of a byte buffer, one bit
(spec/00_scope.md R16, spec/30_encoding.md R90). -/

namespace Sys2Proof

/-- A 32-bit command word (spec/30_encoding.md R90). -/
abbrev Word := BitVec 32

/-- A byte: bit 0 is the least significant (spec/00_scope.md R16). -/
abbrev Byte := BitVec 8

/-- A bit, 0 or 1 (spec/00_scope.md R16). -/
abbrev Bit := BitVec 1

end Sys2Proof
end

