-- ==== Sys2Proof/Config.lean ====
section
/-! DEFINITION. The configuration record CFG and its values (spec/00_scope.md R11), the open size
parameters and the capacities that follow from them (R14, spec/20_memory.md R66), and the free
values, which have no body. -/

namespace Sys2Proof

/-- The immutable configuration record of spec/00_scope.md R11, one field per row, in the table's
order. AMPLITUDE is held as its denominator, the amplitude being exactly 1/50
(spec/44_tone.md R192). -/
structure Cfg where
  sampleRate : Nat
  baudRate : Nat
  spb : Nat
  markTone : Nat
  spaceTone : Nat
  amplitudeDen : Nat
  fullScale : Nat
  preambleLength : Nat
  flag : Byte
  control : Byte
  pid : Byte
  crcPoly : BitVec 16
  crcInit : BitVec 16
  crcXorout : BitVec 16
  callLen : Nat
  padChar : Byte
  ssidBase : Byte
  endMark : Byte
  frameSsid : Nat
  nrzInit : Bit
  sync : Bit × Bit
  hpfCutoff : Nat
deriving DecidableEq, Repr

/-- This hardware's values (spec/00_scope.md R11). -/
def cfg : Cfg where
  sampleRate := 96000
  baudRate := 300
  spb := 320
  markTone := 1800
  spaceTone := 1600
  amplitudeDen := 50
  fullScale := 32767
  preambleLength := 32
  flag := 0x7E
  control := 0x03
  pid := 0xF0
  crcPoly := 0x8408
  crcInit := 0xFFFF
  crcXorout := 0xFFFF
  callLen := 6
  padChar := 0x20
  ssidBase := 0x60
  endMark := 0x01
  frameSsid := 0
  nrzInit := 1
  sync := (0, 1)
  hpfCutoff := 350

/-- A configuration has a meaning only when BAUD_RATE divides SAMPLE_RATE, and then SPB is the
quotient (spec/00_scope.md R13). -/
def Cfg.legal (c : Cfg) : Bool :=
  decide (0 < c.baudRate ∧ c.sampleRate % c.baudRate = 0 ∧ c.spb = c.sampleRate / c.baudRate)

/-- The phase accumulator's values, 0 to SAMPLE_RATE-1 (spec/10_state.md R21, R24). -/
abbrev Phase := Fin 96000

/-- The open size parameters CS_IN_MAX, PATH_MAX and INFO_MAX (spec/00_scope.md R14): `none` is
unbounded, which the rule allows a model to take. -/
structure SizeParams where
  csInMax : Option Nat
  pathMax : Option Nat
  infoMax : Option Nat
deriving DecidableEq, Repr

/-- No operand is ever refused for size (spec/00_scope.md R14). -/
def SizeParams.unbounded : SizeParams := ⟨none, none, none⟩

/-- `n` elements fit under a bound, `none` being no bound. -/
def fits (n : Nat) (bound : Option Nat) : Bool :=
  match bound with
  | none => true
  | some m => decide (n ≤ m)

/-- A parameter is at least a lower bound, `none` being unbounded. -/
def atLeast (m : Nat) (p : Option Nat) : Bool :=
  match p with
  | none => true
  | some n => decide (m ≤ n)

/-- The lower bounds of spec/00_scope.md R14. -/
def SizeParams.legal (p : SizeParams) : Bool :=
  atLeast 8 p.csInMax && atLeast 2 p.pathMax && atLeast 85 p.infoMax

/-- FB_CAP (spec/20_memory.md R66). -/
def SizeParams.fbCap (p : SizeParams) : Option Nat :=
  match p.pathMax, p.infoMax with
  | some pm, some im => some (cfg.preambleLength + 7 * (2 + pm) + 2 + im + 2 + 1)
  | _, _ => none

/-- BB_CAP (spec/20_memory.md R66). -/
def SizeParams.bbCap (p : SizeParams) : Option Nat :=
  p.fbCap.map fun c => 2 * cfg.preambleLength + 8 * c + 2

/-- SB_CAP (spec/20_memory.md R66). -/
def SizeParams.sbCap (p : SizeParams) : Option Nat :=
  p.bbCap.map fun c => cfg.spb * c

/-- OB_CAP (spec/20_memory.md R66). -/
def SizeParams.obCap (p : SizeParams) : Option Nat :=
  p.sbCap.map fun c => 44 + 2 * c

namespace Config

/-- FREE VALUE (notes/assumptions/2.md): the sink's answer SINK_OK at a write attempt for which the
host has queued no answer (spec/00_scope.md R14, spec/46_wave.md R240), by the number of the draw. -/
opaque sinkOk : Nat → Bool

/-- FREE VALUE (notes/assumptions/3.md): what the result port's `res` carries when a command ends in
a fault, "RES has no defined value" (spec/60_exceptions.md R284), by the number of the draw. -/
opaque faultRes : Nat → Int

end Config

end Sys2Proof
end

