-- ==== Sys2Proof/Syntax.lean ====
section
/-! DEFINITION. The command set: one constructor per row of spec/opcode_table.json
(spec/30_encoding.md R93). Operand fields have the widths of R91. -/

namespace Sys2Proof

/-- A command (spec/30_encoding.md R93). -/
inductive Instr where
  | clr
  | rd (r : BitVec 8)
  | mrd (sp : BitVec 3) (idx : BitVec 21)
  | encode
  | opClr
  | ldCs (slot c : BitVec 8)
  | ldNp (n : BitVec 8)
  | ldInfo (c : BitVec 8)
  | crcInit
  | crcUpd (imm8 : BitVec 8)
  | crcFin
  | addrEnc (slot ssid : BitVec 8)
  | fbPut (imm8 : BitVec 8)
  | frmBuild
  | nrzRst
  | nrzBit (bit : BitVec 1)
  | bbPut (bit : BitVec 1)
  | bitEnc
  | phLd (imm24 : BitVec 24)
  | toneRun (f n : BitVec 12)
  | afskMod
  | sbPut (imm24 : BitVec 24)
  | norm
  | hpfRst
  | hpfStep (imm24 : BitVec 24)
  | hpf
  | wavWr
deriving DecidableEq, Repr

end Sys2Proof
end

