-- ==== Sys2Proof/WellFormed.lean ====
section
/-! DEFINITION. Which commands have a command word: the operand widths are in the types, and the one
check left is the space selector of MRD (spec/30_encoding.md R94). -/

namespace Sys2Proof

/-- A space selector names a space: values 6 and 7 are reserved (spec/30_encoding.md R94). -/
def selectorOk (sp : BitVec 3) : Bool := decide (sp.toNat < 6)

/-- The command has a word in the operation table. -/
def Instr.wf : Instr → Bool
  | .clr => true
  | .rd _ => true
  | .mrd sp _ => selectorOk sp
  | .encode => true
  | .opClr => true
  | .ldCs _ _ => true
  | .ldNp _ => true
  | .ldInfo _ => true
  | .crcInit => true
  | .crcUpd _ => true
  | .crcFin => true
  | .addrEnc _ _ => true
  | .fbPut _ => true
  | .frmBuild => true
  | .nrzRst => true
  | .nrzBit _ => true
  | .bbPut _ => true
  | .bitEnc => true
  | .phLd _ => true
  | .toneRun _ _ => true
  | .afskMod => true
  | .sbPut _ => true
  | .norm => true
  | .hpfRst => true
  | .hpfStep _ => true
  | .hpf => true
  | .wavWr => true

end Sys2Proof
end

