-- ==== Sys2Proof/Decode.lean ====
section
/-! DEFINITION. The command decoder, total on every 32-bit word and refusing by name
(spec/30_encoding.md R91 to R94), the encoder, and the operation table of R93. -/

namespace Sys2Proof

/-- Why a word names no command (spec/30_encoding.md R94). -/
inductive DecodeError where
  /-- The operation code is not listed in R93. -/
  | reservedOp (op : BitVec 8)
  /-- A listed operation code with a bit set in a field its format says is zero. -/
  | nonzeroField (op : BitVec 8)
  /-- Format M with the reserved selector 6 or 7. -/
  | reservedSelector (sp : BitVec 3)
deriving DecidableEq, Repr

/-- `op[31:24]` (spec/30_encoding.md R91). -/
def opField (w : Word) : BitVec 8 := w.extractLsb' 24 8

/-- Format Z: `a[23:0]` zero (spec/30_encoding.md R91). -/
def formatZ (w : Word) (i : Instr) : Except DecodeError Instr :=
  if w.extractLsb' 0 24 = 0#24 then .ok i else .error (.nonzeroField (opField w))

/-- Format B: `a[23:8]` zero, `a[7:0]` = `imm8`. -/
def formatB (w : Word) (i : BitVec 8 → Instr) : Except DecodeError Instr :=
  if w.extractLsb' 8 16 = 0#16 then .ok (i (w.extractLsb' 0 8)) else .error (.nonzeroField (opField w))

/-- Format b: `a[23:1]` zero, `a[0]` = `bit`. -/
def formatBit (w : Word) (i : BitVec 1 → Instr) : Except DecodeError Instr :=
  if w.extractLsb' 1 23 = 0#23 then .ok (i (w.extractLsb' 0 1)) else .error (.nonzeroField (opField w))

/-- Format S: `a[23:16]` zero, `a[15:8]` = `slot`, `a[7:0]` = `val`. -/
def formatS (w : Word) (i : BitVec 8 → BitVec 8 → Instr) : Except DecodeError Instr :=
  if w.extractLsb' 16 8 = 0#8 then .ok (i (w.extractLsb' 8 8) (w.extractLsb' 0 8))
  else .error (.nonzeroField (opField w))

/-- Format T: `a[23:12]` = `f`, `a[11:0]` = `n`. -/
def formatT (w : Word) (i : BitVec 12 → BitVec 12 → Instr) : Except DecodeError Instr :=
  .ok (i (w.extractLsb' 12 12) (w.extractLsb' 0 12))

/-- Format W: `a[23:0]` = `imm24`. -/
def formatW (w : Word) (i : BitVec 24 → Instr) : Except DecodeError Instr :=
  .ok (i (w.extractLsb' 0 24))

/-- Format M: `a[23:21]` = `sp`, `a[20:0]` = `idx`; `sp` 6 and 7 are reserved (R94). -/
def formatM (w : Word) (i : BitVec 3 → BitVec 21 → Instr) : Except DecodeError Instr :=
  if selectorOk (w.extractLsb' 21 3) then .ok (i (w.extractLsb' 21 3) (w.extractLsb' 0 21))
  else .error (.reservedSelector (w.extractLsb' 21 3))

/-- The decoder: the operation codes of spec/30_encoding.md R93; every other word is reserved (R94). -/
def decode (w : Word) : Except DecodeError Instr :=
  match (opField w).toNat with
  | 0x01 => formatZ w .clr
  | 0x02 => formatB w .rd
  | 0x03 => formatM w .mrd
  | 0x04 => formatZ w .encode
  | 0x08 => formatZ w .opClr
  | 0x09 => formatS w .ldCs
  | 0x0A => formatB w .ldNp
  | 0x0B => formatB w .ldInfo
  | 0x10 => formatZ w .crcInit
  | 0x11 => formatB w .crcUpd
  | 0x12 => formatZ w .crcFin
  | 0x20 => formatS w .addrEnc
  | 0x30 => formatB w .fbPut
  | 0x31 => formatZ w .frmBuild
  | 0x40 => formatZ w .nrzRst
  | 0x41 => formatBit w .nrzBit
  | 0x42 => formatBit w .bbPut
  | 0x43 => formatZ w .bitEnc
  | 0x50 => formatW w .phLd
  | 0x51 => formatT w .toneRun
  | 0x52 => formatZ w .afskMod
  | 0x60 => formatW w .sbPut
  | 0x61 => formatZ w .norm
  | 0x62 => formatZ w .hpfRst
  | 0x63 => formatW w .hpfStep
  | 0x64 => formatZ w .hpf
  | 0x70 => formatZ w .wavWr
  | _ => .error (.reservedOp (opField w))

/-- The word of a command (spec/30_encoding.md R91, R93): `{op, a}` with the operand fields in place. -/
def encode : Instr → Word
  | .clr => 0x01#8 ++ 0#24
  | .rd r => 0x02#8 ++ 0#16 ++ r
  | .mrd sp idx => 0x03#8 ++ sp ++ idx
  | .encode => 0x04#8 ++ 0#24
  | .opClr => 0x08#8 ++ 0#24
  | .ldCs slot c => 0x09#8 ++ 0#8 ++ slot ++ c
  | .ldNp n => 0x0A#8 ++ 0#16 ++ n
  | .ldInfo c => 0x0B#8 ++ 0#16 ++ c
  | .crcInit => 0x10#8 ++ 0#24
  | .crcUpd imm8 => 0x11#8 ++ 0#16 ++ imm8
  | .crcFin => 0x12#8 ++ 0#24
  | .addrEnc slot ssid => 0x20#8 ++ 0#8 ++ slot ++ ssid
  | .fbPut imm8 => 0x30#8 ++ 0#16 ++ imm8
  | .frmBuild => 0x31#8 ++ 0#24
  | .nrzRst => 0x40#8 ++ 0#24
  | .nrzBit bit => 0x41#8 ++ 0#23 ++ bit
  | .bbPut bit => 0x42#8 ++ 0#23 ++ bit
  | .bitEnc => 0x43#8 ++ 0#24
  | .phLd imm24 => 0x50#8 ++ imm24
  | .toneRun f n => 0x51#8 ++ f ++ n
  | .afskMod => 0x52#8 ++ 0#24
  | .sbPut imm24 => 0x60#8 ++ imm24
  | .norm => 0x61#8 ++ 0#24
  | .hpfRst => 0x62#8 ++ 0#24
  | .hpfStep imm24 => 0x63#8 ++ imm24
  | .hpf => 0x64#8 ++ 0#24
  | .wavWr => 0x70#8 ++ 0#24

/-- The command that the decoder reads from a word of `nbits` bits numbered as the operation table
numbers them; a command is one word and has no second (spec/30_encoding.md R90, R95). -/
def decodeTableWord (nbits w : Nat) : Option Instr :=
  if nbits ≤ 32 ∧ w < 2 ^ 32 then (decode (BitVec.ofNat 32 w)).toOption else none

/-- One row of the operation table of spec/30_encoding.md R93: a word is the row's command when
`w and mask = pattern`. -/
structure OpRow where
  mnemonic : String
  pattern : Word
  mask : Word
deriving DecidableEq, Repr

/-- The word is one of the row's. -/
def OpRow.covers (r : OpRow) (w : Word) : Bool := decide (w &&& r.mask = r.pattern)

/-- The rows of families 0 to 3 (spec/30_encoding.md R93). -/
def opTableLow : List OpRow :=
  [⟨"CLR", 0x01000000, 0xFFFFFFFF⟩, ⟨"RD", 0x02000000, 0xFFFFFF00⟩,
   ⟨"MRD", 0x03000000, 0xFF000000⟩, ⟨"ENCODE", 0x04000000, 0xFFFFFFFF⟩,
   ⟨"OP.CLR", 0x08000000, 0xFFFFFFFF⟩, ⟨"LD.CS", 0x09000000, 0xFFFF0000⟩,
   ⟨"LD.NP", 0x0A000000, 0xFFFFFF00⟩, ⟨"LD.INFO", 0x0B000000, 0xFFFFFF00⟩,
   ⟨"CRC.INIT", 0x10000000, 0xFFFFFFFF⟩, ⟨"CRC.UPD", 0x11000000, 0xFFFFFF00⟩,
   ⟨"CRC.FIN", 0x12000000, 0xFFFFFFFF⟩, ⟨"ADDR.ENC", 0x20000000, 0xFFFF0000⟩,
   ⟨"FB.PUT", 0x30000000, 0xFFFFFF00⟩, ⟨"FRM.BUILD", 0x31000000, 0xFFFFFFFF⟩]

/-- The rows of families 4 to 7 (spec/30_encoding.md R93). -/
def opTableHigh : List OpRow :=
  [⟨"NRZ.RST", 0x40000000, 0xFFFFFFFF⟩, ⟨"NRZ.BIT", 0x41000000, 0xFFFFFFFE⟩,
   ⟨"BB.PUT", 0x42000000, 0xFFFFFFFE⟩, ⟨"BIT.ENC", 0x43000000, 0xFFFFFFFF⟩,
   ⟨"PH.LD", 0x50000000, 0xFF000000⟩, ⟨"TONE.RUN", 0x51000000, 0xFF000000⟩,
   ⟨"AFSK.MOD", 0x52000000, 0xFFFFFFFF⟩, ⟨"SB.PUT", 0x60000000, 0xFF000000⟩,
   ⟨"NORM", 0x61000000, 0xFFFFFFFF⟩, ⟨"HPF.RST", 0x62000000, 0xFFFFFFFF⟩,
   ⟨"HPF.STEP", 0x63000000, 0xFF000000⟩, ⟨"HPF", 0x64000000, 0xFFFFFFFF⟩,
   ⟨"WAV.WR", 0x70000000, 0xFFFFFFFF⟩]

/-- The operation table of spec/30_encoding.md R93, twenty-seven rows. -/
def opTable : List OpRow := opTableLow ++ opTableHigh

/-- The mnemonic of a command's row (spec/30_encoding.md R93). -/
def Instr.mnemonic : Instr → String
  | .clr => "CLR"
  | .rd _ => "RD"
  | .mrd _ _ => "MRD"
  | .encode => "ENCODE"
  | .opClr => "OP.CLR"
  | .ldCs _ _ => "LD.CS"
  | .ldNp _ => "LD.NP"
  | .ldInfo _ => "LD.INFO"
  | .crcInit => "CRC.INIT"
  | .crcUpd _ => "CRC.UPD"
  | .crcFin => "CRC.FIN"
  | .addrEnc _ _ => "ADDR.ENC"
  | .fbPut _ => "FB.PUT"
  | .frmBuild => "FRM.BUILD"
  | .nrzRst => "NRZ.RST"
  | .nrzBit _ => "NRZ.BIT"
  | .bbPut _ => "BB.PUT"
  | .bitEnc => "BIT.ENC"
  | .phLd _ => "PH.LD"
  | .toneRun _ _ => "TONE.RUN"
  | .afskMod => "AFSK.MOD"
  | .sbPut _ => "SB.PUT"
  | .norm => "NORM"
  | .hpfRst => "HPF.RST"
  | .hpfStep _ => "HPF.STEP"
  | .hpf => "HPF"
  | .wavWr => "WAV.WR"

end Sys2Proof
end

