-- ==== Sys2Proof/Machine/State.lean ====
section
/-! DEFINITION. The state of the block as plain data, its value at reset, and the reasons a step can
stop (spec/10_state.md, spec/20_memory.md). -/

namespace Sys2Proof.Machine

/-- The error kinds (spec/60_exceptions.md R280). -/
inductive Cause where
  | encodingError
  | valueError
  | ioError
  | rangeError
deriving DecidableEq, Repr

/-- What the result port presents when a command has produced its outcome (spec/10_state.md R39,
spec/00_scope.md R19). -/
inductive Result where
  /-- The command ended done and returned `res` (spec/30_encoding.md R98). -/
  | done (res : Int)
  /-- The command ended in the fault `cause`; `res` has no defined value and is a free value
  (spec/60_exceptions.md R284, notes/assumptions/3.md). -/
  | fault (cause : Cause) (res : Int)
deriving DecidableEq, Repr

/-- One event that the host presents (spec/10_state.md R39, spec/70_reset_and_hazards.md R310). -/
inductive Input where
  /-- A command word on the command port. -/
  | command (w : Word)
  /-- Power-on, or the input `rst`, between commands. -/
  | reset
  /-- The input `rst` while the command `w` is being executed, or while a word that the spec refuses
  is on the port (DESIGN CHOICE, notes/assumptions/17.md). -/
  | resetDuring (w : Word)
deriving DecidableEq, Repr

/-- The callsign operand memory OPM: pairs of a slot number and the string it holds, slots rising,
no empty string listed; a slot not listed holds the empty string (spec/20_memory.md R61,
notes/assumptions/5.md). -/
abbrev Memory := List (Nat × List Byte)

/-- The state of the block (spec/10_state.md R20) and of its ports (R39). -/
structure State where
  /-- The checksum register before the final XOR (R21, R22). -/
  crc : BitVec 16
  /-- The running state of the differential encoder (R21, R23). -/
  nrz : Bit
  /-- The phase accumulator, in 1/SAMPLE_RATE turn (R21, R24). -/
  ph : Phase
  /-- The filter's previous raw input (R21, R25). -/
  xp : Int
  /-- The filter's previous output (R21, R25). -/
  yp : Int
  /-- 1 when YP holds a previous output (R21, R25). -/
  yv : Bit
  /-- STATUS: ERR in bits 2:0, DONE in bit 3 (R31, R32). -/
  status : BitVec 8
  /-- The number of digipeater-path entries in use (R29). -/
  npath : Nat
  /-- The callsign operand memory (spec/20_memory.md R61). -/
  opm : Memory
  /-- The information operand memory (spec/20_memory.md R62). -/
  infom : List Byte
  /-- The frame buffer (spec/20_memory.md R63). -/
  fb : List Byte
  /-- The bit buffer (spec/20_memory.md R64). -/
  bb : List Bit
  /-- The sample buffer (spec/20_memory.md R65). -/
  sb : List Int
  /-- The output buffer (spec/20_memory.md R67). -/
  ob : List Byte
  /-- What the host presents, next event first (R39; notes/assumptions/1.md). -/
  inputs : List Input
  /-- The outcome last presented on the result port, if any since reset (R39). -/
  result : Option Result
  /-- The sink's answers SINK_OK that the host has queued, next first (spec/46_wave.md R240;
  notes/assumptions/2.md). -/
  sinkAnswers : List Bool
  /-- The files that the sink has taken, oldest first (R39, spec/46_wave.md R240). -/
  sinkFiles : List (List Byte)
  /-- The model's own: how many free values have been drawn (notes/assumptions/3.md). -/
  freeCount : Nat
  /-- The open size parameters, which nothing changes (spec/00_scope.md R14; notes/assumptions/4.md). -/
  params : SizeParams
deriving DecidableEq, Repr

/-- Why the machine stops with a fault: never. Every fault of the spec is taken as a next state
(spec/60_exceptions.md R284, R289), and nothing in the block is stuck
(spec/93_implementation_defined.md, after I25), so this type has no constructor. -/
inductive Fault where
deriving DecidableEq, Repr

/-- Why a command is refused: the spec gives it no meaning for these operands
(spec/00_scope.md R19). All are safe: nothing can be proved about what the hardware then does. -/
inductive Refusal where
  /-- Raised by `exec` for an instruction with no meaning yet (safe). -/
  | notModelled (mnemonic : String)
  /-- Raised by `step` for a reserved command word, spec/30_encoding.md R94 (safe). -/
  | reservedWord (why : DecodeError)
  /-- Raised by RD for a reserved register number, spec/47_system.md R256 (safe). -/
  | reservedRegister (r : BitVec 8)
  /-- Raised by MRD for the reserved selectors 6 and 7, spec/47_system.md R257 (safe). -/
  | reservedSpace (sp : BitVec 3)
  /-- Raised by MRD at or beyond a length, spec/47_system.md R257 (safe). -/
  | noSuchElement (idx : Nat)
  /-- Raised by LD.CS, ADDR.ENC and MRD for a slot at or above `2 + PATH_MAX`, spec/47_system.md
  R252, R257, spec/41_address.md R142 (safe). -/
  | noSuchSlot (slot : Nat)
  /-- Raised by LD.CS into a slot that holds CS_IN_MAX characters, spec/47_system.md R252 (safe). -/
  | stringFull (slot : Nat)
  /-- Raised by LD.NP above PATH_MAX, spec/47_system.md R253 (safe). -/
  | pathTooLong (n : Nat)
  /-- Raised by LD.INFO when INFOM holds INFO_MAX characters, spec/47_system.md R254 (safe). -/
  | infoFull
  /-- Raised by FB.PUT, BB.PUT, SB.PUT, TONE.RUN and the composite commands when an append would pass
  a buffer's capacity, spec/20_memory.md R66 (safe). -/
  | bufferFull
  /-- Raised by PH.LD for a value of SAMPLE_RATE or more, spec/44_tone.md R193 (safe). -/
  | phaseTooLarge (v : Nat)
  /-- Raised by WAV.WR and ENCODE for more than 2^32 - 37 data bytes, spec/46_wave.md R242 (safe). -/
  | fileTooLong
deriving DecidableEq, Repr

/-- The block right after reset (spec/10_state.md R40, spec/70_reset_and_hazards.md R311), with the
size parameters unbounded (spec/00_scope.md R14) and nothing at its ports. -/
def State.reset : State where
  crc := 0xFFFF
  nrz := 1
  ph := 0
  xp := 0
  yp := 0
  yv := 0
  status := 0
  npath := 0
  opm := []
  infom := []
  fb := []
  bb := []
  sb := []
  ob := []
  inputs := []
  result := none
  sinkAnswers := []
  sinkFiles := []
  freeCount := 0
  params := SizeParams.unbounded

end Sys2Proof.Machine
end

