-- ==== Sys2Proof/Machine/Flags.lean ====
section
/-! DEFINITION. The fields of STATUS (spec/10_state.md R32), the cause numbers
(spec/60_exceptions.md R280) and the fields of the result port (spec/10_state.md R39). The block has
no arithmetic flags (spec/10_state.md R34). -/

namespace Sys2Proof.Machine

/-- The cause number that a fault reports (spec/60_exceptions.md R280). -/
def Cause.code : Cause → BitVec 3
  | .encodingError => 1
  | .valueError => 2
  | .ioError => 3
  | .rangeError => 4

/-- STATUS.ERR, bits 2:0 (spec/10_state.md R32). -/
def statusErr (st : BitVec 8) : BitVec 3 := st.extractLsb' 0 3

/-- STATUS.DONE, bit 3 (spec/10_state.md R32). -/
def statusDone (st : BitVec 8) : Bit := st.extractLsb' 3 1

/-- STATUS bits 7:4, which read as 0 (spec/10_state.md R32). -/
def statusRest (st : BitVec 8) : BitVec 4 := st.extractLsb' 4 4

/-- STATUS with ERR written. -/
def setErr (c : BitVec 3) (st : BitVec 8) : BitVec 8 := statusRest st ++ statusDone st ++ c

/-- STATUS with DONE written. -/
def setDone (d : Bit) (st : BitVec 8) : BitVec 8 := statusRest st ++ d ++ statusErr st

/-- `res_kind`: 0 done, 1 fault (spec/10_state.md R39). -/
def Result.kind : Result → BitVec 2
  | .done _ => 0
  | .fault _ _ => 1

/-- `res_cause`, which is defined when `res_kind` is 1 (spec/10_state.md R39). -/
def Result.cause : Result → Option (BitVec 3)
  | .done _ => none
  | .fault c _ => some c.code

/-- `res` (spec/10_state.md R39). -/
def Result.res : Result → Int
  | .done v => v
  | .fault _ v => v

end Sys2Proof.Machine
end

