-- ==== Sys2Proof/Machine/Ops.lean ====
section
/-! DEFINITION. The operations that the commands share: OPM (spec/20_memory.md R61), clearing the
data path (spec/47_system.md R255), ending done or in a fault (spec/00_scope.md R19,
spec/60_exceptions.md R284), asking the sink (spec/46_wave.md R240), reset
(spec/70_reset_and_hazards.md R310). -/

namespace Sys2Proof.Machine

/-! ## The callsign operand memory -/

/-- The string that a slot of OPM holds (spec/20_memory.md R61). -/
def Memory.get : Memory → Nat → List Byte
  | [], _ => []
  | (j, str) :: rest, k => if j = k then str else Memory.get rest k

/-- OPM with one character appended to a slot (spec/47_system.md R252), in canonical form. -/
def Memory.append : Memory → Nat → Byte → Memory
  | [], k, c => [(k, [c])]
  | (j, str) :: rest, k, c =>
    if j = k then (j, str ++ [c]) :: rest
    else if k < j then (k, [c]) :: (j, str) :: rest
    else (j, str) :: Memory.append rest k c

/-- Every slot listed is above `lo` and the slots rise. -/
def Memory.risingFrom : Nat → Memory → Bool
  | _, [] => true
  | lo, (j, _) :: rest => decide (lo ≤ j) && Memory.risingFrom (j + 1) rest

/-- The canonical form of OPM: slots strictly rising, no empty string listed. -/
def Memory.wf (m : Memory) : Bool := Memory.risingFrom 0 m && m.all fun p => !p.2.isEmpty

/-- A slot is one of the `2 + PATH_MAX` (spec/20_memory.md R61). -/
def slotExists (p : SizeParams) (slot : Nat) : Bool :=
  match p.pathMax with
  | none => true
  | some m => decide (slot < 2 + m)

/-! ## The data path -/

/-- The data path as CLR, fault entry and ENCODE's first step leave it, but for STATUS
(spec/47_system.md R255, spec/10_state.md R40). -/
def State.clearDataPath (s : State) : State :=
  { s with
    crc := cfg.crcInit, nrz := cfg.nrzInit, ph := 0, xp := 0, yp := 0, yv := 0,
    fb := [], bb := [], sb := [], ob := [] }

/-- The data path and STATUS as CLR leaves them; the operands stay (spec/47_system.md R255). -/
def State.cleared (s : State) : State := { s.clearDataPath with status := 0 }

/-! ## Outcomes of a command -/

/-- What a command, or one stage of a composite command, comes to (spec/00_scope.md R19). -/
inductive Attempt where
  /-- It ends done in this state and returns `res`. -/
  | done (s : State) (res : Int)
  /-- It raises `cause`, having reached this state; fault entry is still to come. -/
  | raise (cause : Cause) (s : State)
  /-- It is refused. -/
  | refuse (why : Refusal)
deriving DecidableEq, Repr

/-- The next stage of a composite command runs only when the one before ended done
(spec/47_system.md R261, R262). -/
def Attempt.andThen (a : Attempt) (next : State → Attempt) : Attempt :=
  match a with
  | .done s _ => next s
  | .raise c s => .raise c s
  | .refuse r => .refuse r

/-- The state with a done outcome on the result port (spec/30_encoding.md R98). -/
def State.present (s : State) (res : Int) : State := { s with result := some (.done res) }

/-- FAULT ENTRY (spec/60_exceptions.md R284), the one operation by which every fault is taken: the
data path is cleared, DONE is 0, ERR is the cause, the operands stay, and the fault is presented
with a `res` that has no defined value. -/
def State.faultEntry (s : State) (c : Cause) : State :=
  { s.clearDataPath with
    status := setErr c.code (setDone 0 s.status),
    result := some (.fault c (Config.faultRes s.freeCount)),
    freeCount := s.freeCount + 1 }

/-- A command's outcome as a step of the machine: done and fault go on, a refusal has no next state
(spec/00_scope.md R19, spec/60_exceptions.md R289). -/
def Attempt.finish (a : Attempt) : Host.Outcome State Fault Refusal :=
  match a with
  | .done s res => .next (s.present res)
  | .raise c s => .next (s.faultEntry c)
  | .refuse r => .refused r

/-! ## The sink -/

/-- SINK_OK of the next write attempt: the host's answer, or a free value when the host has queued
none (spec/46_wave.md R240). -/
def State.sinkOk (s : State) : Bool :=
  match s.sinkAnswers with
  | b :: _ => b
  | [] => Config.sinkOk s.freeCount

/-- The state after one write attempt has been answered. -/
def State.asked (s : State) : State :=
  { s with sinkAnswers := s.sinkAnswers.tail, freeCount := s.freeCount + 1 }

/-! ## Reset -/

/-- Power-on or `rst` (spec/70_reset_and_hazards.md R310, R311): the reset state; what is outside the
block (the host's events and answers, the files the sink has, the size parameters) stays. -/
def State.hardReset (s : State) : State :=
  { State.reset with
    inputs := s.inputs, sinkAnswers := s.sinkAnswers, sinkFiles := s.sinkFiles,
    freeCount := s.freeCount, params := s.params }

end Sys2Proof.Machine
end

