-- ==== Sys2Proof/Machine/Operands.lean ====
section
/-! DEFINITION. Operand assembly (spec/30_encoding.md R92), the register file as RD reads it
(spec/10_state.md R21, R28, R29, R31, R33) and the spaces as MRD reads them
(spec/47_system.md R257). -/

namespace Sys2Proof.Machine

/-- An operand used as it stands, zero-extended (spec/30_encoding.md R92). -/
def zext {n : Nat} (v : BitVec n) : Nat := v.toNat

/-- A signed `imm24`, `sext(a[23:0])` (spec/30_encoding.md R92). -/
def sext24 (v : BitVec 24) : Int := v.toInt

/-- The configuration registers CFG[0] to CFG[21] as RD reads them: AMPLITUDE as its denominator,
SYNC as `{first, second}` (spec/10_state.md R33). -/
def cfgRegs : List Nat :=
  [cfg.sampleRate, cfg.baudRate, cfg.spb, cfg.markTone, cfg.spaceTone, cfg.amplitudeDen,
   cfg.fullScale, cfg.preambleLength, cfg.flag.toNat, cfg.control.toNat, cfg.pid.toNat,
   cfg.crcPoly.toNat, cfg.crcInit.toNat, cfg.crcXorout.toNat, cfg.callLen, cfg.padChar.toNat,
   cfg.ssidBase.toNat, cfg.endMark.toNat, cfg.frameSsid, cfg.nrzInit.toNat,
   (cfg.sync.1 ++ cfg.sync.2).toNat, cfg.hpfCutoff]

/-- Register `r` as RD reads it; `none` for a reserved number (spec/47_system.md R256). -/
def readRegister (s : State) (r : Nat) : Option Int :=
  match r with
  | 0 => some s.crc.toNat
  | 1 => some s.nrz.toNat
  | 2 => some s.ph.val
  | 3 => some s.xp
  | 4 => some s.yp
  | 5 => some s.yv.toNat
  | 7 => some s.status.toNat
  | 8 => some s.fb.length
  | 9 => some s.bb.length
  | 10 => some s.sb.length
  | 11 => some s.ob.length
  | 12 => some s.npath
  | 13 => some s.infom.length
  | 14 => some (s.opm.get 0).length
  | 15 => some (s.opm.get 1).length
  | r => if 32 ≤ r then (cfgRegs[r - 32]?).map Int.ofNat else none

/-- Element `idx` of a sequence, refused at or beyond its length (spec/47_system.md R257). -/
def readElement (l : List Int) (idx : Nat) : Except Refusal Int :=
  match l[idx]? with
  | some v => .ok v
  | none => .error (.noSuchElement idx)

/-- OPM as MRD reads it: slot `idx >> 8`, offset `idx and 0xFF`, offset 0xFF being the slot's length
(spec/47_system.md R257). -/
def readSlot (s : State) (idx : Nat) : Except Refusal Int :=
  if slotExists s.params (idx / 256) then
    if idx % 256 = 255 then .ok (s.opm.get (idx / 256)).length
    else readElement ((s.opm.get (idx / 256)).map fun b => (b.toNat : Int)) (idx % 256)
  else .error (.noSuchSlot (idx / 256))

/-- Element `idx` of the space with selector `sp` (spec/47_system.md R257). -/
def readSpace (s : State) (sp : BitVec 3) (idx : Nat) : Except Refusal Int :=
  match sp.toNat with
  | 0 => readElement (s.fb.map fun b => (b.toNat : Int)) idx
  | 1 => readElement (s.bb.map fun b => (b.toNat : Int)) idx
  | 2 => readElement s.sb idx
  | 3 => readElement (s.ob.map fun b => (b.toNat : Int)) idx
  | 4 => readElement (s.infom.map fun b => (b.toNat : Int)) idx
  | 5 => readSlot s idx
  | _ => .error (.reservedSpace sp)

end Sys2Proof.Machine
end

