-- ==== Sys2Proof/Machine/Bitstream.lean ====
section
/-! DEFINITION. Unit U4, the differential bit encoder: NRZ.RST, NRZ.BIT, BB.PUT, BIT.ENC
(spec/43_bitstream.md). -/

namespace Sys2Proof.Machine

/-- The one-bit step: the state is flipped by a 0 and kept by a 1, and the state after that is the
bit emitted (spec/43_bitstream.md R171). -/
def nrzi (state b : Bit) : Bit := if b = 0 then ~~~state else state

/-- The one-bit step over a bit sequence: the bits emitted and the last state
(spec/43_bitstream.md R172). -/
def nrziRun : Bit → List Bit → List Bit × Bit
  | state, [] => ([], state)
  | state, b :: bs =>
    (nrzi state b :: (nrziRun (nrzi state b) bs).1, (nrziRun (nrzi state b) bs).2)

/-- The bits of a byte, least significant first (spec/20_memory.md R69). -/
def byteBits (b : Byte) : List Bit := (List.range 8).map fun j => b.extractLsb' j 1

/-- The sync pair (spec/00_scope.md R11). -/
def syncPair : List Bit := [cfg.sync.1, cfg.sync.2]

/-- The differentially encoded bits of a byte sequence and the last state, from state 1
(spec/43_bitstream.md R172, part 2). -/
def encodedBits (bytes : List Byte) : List Bit × Bit :=
  nrziRun cfg.nrzInit (bytes.flatMap byteBits)

/-- The BitSequence of a byte sequence (spec/43_bitstream.md R172). -/
def bitSequence (bytes : List Byte) : List Bit :=
  (List.replicate cfg.preambleLength syncPair).flatten ++ (encodedBits bytes).1 ++ syncPair

/-- The steps of BIT.ENC (spec/43_bitstream.md R178); the append to BB is refused when it would pass
BB_CAP (spec/20_memory.md R66). -/
def bitEncStage (s : State) : Attempt :=
  if fits (bitSequence s.fb).length s.params.bbCap then
    .done { s with bb := bitSequence s.fb, nrz := (encodedBits s.fb).2 } (bitSequence s.fb).length
  else .refuse .bufferFull

/-- NRZ.RST (spec/43_bitstream.md R175). -/
def execNrzRst (s : State) : Host.Outcome State Fault Refusal :=
  (Attempt.done { s with nrz := cfg.nrzInit } 1).finish

/-- NRZ.BIT bit (spec/43_bitstream.md R176). -/
def execNrzBit (bit : BitVec 1) (s : State) : Host.Outcome State Fault Refusal :=
  (Attempt.done { s with nrz := nrzi s.nrz bit } (nrzi s.nrz bit).toNat).finish

/-- BB.PUT bit (spec/43_bitstream.md R177). -/
def execBbPut (bit : BitVec 1) (s : State) : Host.Outcome State Fault Refusal :=
  (if fits (s.bb.length + 1) s.params.bbCap then
    .done { s with bb := s.bb ++ [bit] } (s.bb.length + 1)
  else Attempt.refuse .bufferFull).finish

/-- BIT.ENC (spec/43_bitstream.md R178). -/
def execBitEnc (s : State) : Host.Outcome State Fault Refusal := (bitEncStage s).finish

end Sys2Proof.Machine
end

