-- ==== Sys2Proof/Machine/Address.lean ====
section
/-! DEFINITION. Unit U2, the address-field encoder: ADDR.ENC (spec/41_address.md). -/

namespace Sys2Proof.Machine

/-- A code of 0x80 or above (spec/60_exceptions.md R281). -/
def nonAscii (c : Byte) : Bool := decide (0x80 ≤ c.toNat)

/-- Upper-casing of one code (spec/41_address.md R136). -/
def upperCase (c : Byte) : Byte :=
  if 0x61 ≤ c.toNat ∧ c.toNat ≤ 0x7A then c - 0x20 else c

/-- The upper-cased string padded with spaces or cut to CALL_LEN codes (spec/41_address.md R137). -/
def paddedCall (cs : List Byte) : List Byte :=
  (cs.map upperCase ++ List.replicate cfg.callLen cfg.padChar).take cfg.callLen

/-- The seventh byte, `(ssid << 1) or 0x60` (spec/41_address.md R139). -/
def ssidByte (ssid : Nat) : Byte := BitVec.ofNat 8 ssid <<< 1 ||| cfg.ssidBase

/-- The seven address bytes (spec/41_address.md R138, R139, R143). -/
def addrBytes (cs : List Byte) (ssid : Nat) : List Byte :=
  (paddedCall cs).map (fun c : Byte => c <<< 1) ++ [ssidByte ssid]

/-- The fault of the address encoder, callsign before SSID (spec/41_address.md R141). -/
def addrFault (cs : List Byte) (ssid : Int) : Option Cause :=
  if cs.any nonAscii then some .encodingError
  else if ssid < 0 ∨ 15 < ssid then some .valueError
  else none

/-- Bytes packed into one value, the first least significant (spec/41_address.md R142,
spec/30_encoding.md R98). -/
def packBytes : List Byte → Nat
  | [] => 0
  | b :: bs => b.toNat + 256 * packBytes bs

/-- ADDR.ENC slot, ssid (spec/41_address.md R142). -/
def execAddrEnc (slot ssid : BitVec 8) (s : State) : Host.Outcome State Fault Refusal :=
  (if slotExists s.params (zext slot) then
    match addrFault (s.opm.get (zext slot)) (zext ssid) with
    | some c => .raise c s
    | none => .done s (packBytes (addrBytes (s.opm.get (zext slot)) (zext ssid)))
  else Attempt.refuse (.noSuchSlot (zext slot))).finish

end Sys2Proof.Machine
end

