-- ==== Sys2Proof/Machine/Crc.lean ====
section
/-! DEFINITION. Unit U1, the checksum generator: CRC.INIT, CRC.UPD, CRC.FIN (spec/40_crc.md). -/

namespace Sys2Proof.Machine

/-- The bit step (spec/40_crc.md R121). -/
def crcBit (r : BitVec 16) : BitVec 16 :=
  if r.getLsbD 0 then (r >>> 1) ^^^ cfg.crcPoly else r >>> 1

/-- The byte step: the byte enters once, then eight bit steps (spec/40_crc.md R122). -/
def crcByte (r : BitVec 16) (b : Byte) : BitVec 16 :=
  crcBit^[8] (r ^^^ b.setWidth 16)

/-- The register after a byte sequence, before the final XOR (spec/40_crc.md R123). -/
def crcRun (r : BitVec 16) (bytes : List Byte) : BitVec 16 := bytes.foldl crcByte r

/-- The final XOR (spec/40_crc.md R120, R123). -/
def crcFinal (r : BitVec 16) : BitVec 16 := r ^^^ cfg.crcXorout

/-- The checksum of a byte sequence (spec/40_crc.md R123). -/
def checksum (bytes : List Byte) : BitVec 16 := crcFinal (crcRun cfg.crcInit bytes)

/-- CRC.INIT (spec/40_crc.md R125). -/
def execCrcInit (s : State) : Host.Outcome State Fault Refusal :=
  (Attempt.done { s with crc := cfg.crcInit } cfg.crcInit.toNat).finish

/-- CRC.UPD imm8 (spec/40_crc.md R126). -/
def execCrcUpd (imm8 : BitVec 8) (s : State) : Host.Outcome State Fault Refusal :=
  (Attempt.done { s with crc := crcByte s.crc imm8 } (crcByte s.crc imm8).toNat).finish

/-- CRC.FIN, which leaves the register (spec/40_crc.md R127). -/
def execCrcFin (s : State) : Host.Outcome State Fault Refusal :=
  (Attempt.done s (crcFinal s.crc).toNat).finish

end Sys2Proof.Machine
end

