-- ==== Sys2Proof/Machine/Frame.lean ====
section
/-! DEFINITION. Unit U3, the frame assembler: FB.PUT, FRM.BUILD (spec/42_frame.md). -/

namespace Sys2Proof.Machine

/-- The digipeater-path callsign strings in use, in order (spec/42_frame.md R150). -/
def pathStrings (s : State) : List (List Byte) :=
  (List.range s.npath).map fun j => s.opm.get (2 + j)

/-- The callsign strings in frame order: destination, source, path (spec/42_frame.md R153). -/
def callStrings (s : State) : List (List Byte) :=
  s.opm.get 1 :: s.opm.get 0 :: pathStrings s

/-- The end marker set on the last byte (spec/42_frame.md R154). -/
def markLast : List Byte → List Byte
  | [] => []
  | [b] => [b ||| cfg.endMark]
  | b :: c :: rest => b :: markLast (c :: rest)

/-- The address field, its last byte marked (spec/42_frame.md R153, R154). -/
def addressField (s : State) : List Byte :=
  markLast ((callStrings s).flatMap fun cs => addrBytes cs cfg.frameSsid)

/-- What the checksum covers: addresses, control, PID, payload (spec/42_frame.md R155 to R157). -/
def checkedBytes (s : State) : List Byte :=
  addressField s ++ [cfg.control, cfg.pid] ++ s.infom

/-- The checksum's two bytes, low byte first (spec/42_frame.md R158). -/
def fcsBytes (fcs : BitVec 16) : List Byte := [fcs.extractLsb' 0 8, fcs.extractLsb' 8 8]

/-- The Packet (spec/42_frame.md R151). -/
def packet (s : State) : List Byte :=
  checkedBytes s ++ fcsBytes (checksum (checkedBytes s))

/-- The FramedTransmission (spec/42_frame.md R152, R159). -/
def framed (pkt : List Byte) : List Byte :=
  List.replicate cfg.preambleLength cfg.flag ++ pkt ++ [cfg.flag]

/-- Some string of the frame holds a code of 0x80 or above (spec/42_frame.md R160,
spec/60_exceptions.md R281). -/
def frameHasNonAscii (s : State) : Bool :=
  (callStrings s).any (fun cs => cs.any nonAscii) || s.infom.any nonAscii

/-- The steps of FRM.BUILD (spec/42_frame.md R164); the append to FB is refused when it would pass
FB_CAP (spec/20_memory.md R66, spec/60_exceptions.md R287; notes/assumptions/6.md). -/
def frmBuildStage (s : State) : Attempt :=
  if fits (framed (packet s)).length s.params.fbCap then
    if frameHasNonAscii s then .raise .encodingError s
    else .done { s with crc := crcRun cfg.crcInit (checkedBytes s), fb := framed (packet s) }
      (framed (packet s)).length
  else .refuse .bufferFull

/-- FB.PUT imm8 (spec/42_frame.md R163). -/
def execFbPut (imm8 : BitVec 8) (s : State) : Host.Outcome State Fault Refusal :=
  (if fits (s.fb.length + 1) s.params.fbCap then
    .done { s with fb := s.fb ++ [imm8] } (s.fb.length + 1)
  else Attempt.refuse .bufferFull).finish

/-- FRM.BUILD (spec/42_frame.md R164). -/
def execFrmBuild (s : State) : Host.Outcome State Fault Refusal := (frmBuildStage s).finish

end Sys2Proof.Machine
end

