-- ==== Sys2Proof/Machine/Precision.lean ====
section
/-! DEFINITION. The floor of `ALPHA*k` for every natural `k`, in exact rational arithmetic
(spec/00_scope.md R12, R15, spec/45_postprocess.md R216, R217): ALPHA between two rationals at every
precision, and the first precision that settles the floor. That there is one is proved here, because
the search is total by it: ALPHA is irrational, so `ALPHA*k` is no integer but at 0. -/

namespace Sys2Proof.Machine

/-! ## ALPHA between two rationals -/

/-- The Taylor sum of `n` terms of the arctangent of `1/d`. -/
def arctanTerms (d : Nat) : Nat → ℚ
  | 0 => 0
  | n + 1 => arctanTerms d n + (-1) ^ n * (1 / (d : ℚ)) ^ (2 * n + 1) / (2 * n + 1 : ℕ)

/-- A rational below pi, closer as `n` grows, by Machin's formula. -/
def piBelow (n : Nat) : ℚ := max 3 (4 * (4 * arctanTerms 5 (2 * n) - arctanTerms 239 (2 * n + 1)))

/-- A rational above pi, closer as `n` grows, by Machin's formula. -/
def piAbove (n : Nat) : ℚ := 4 * (4 * arctanTerms 5 (2 * n + 1) - arctanTerms 239 (2 * n))

/-- `SAMPLE_RATE / (SAMPLE_RATE + 2*pi*HPF_CUTOFF)` for a rational in the place of pi
(spec/00_scope.md R12). -/
def alphaOf (p : ℚ) : ℚ := cfg.sampleRate / (cfg.sampleRate + 2 * p * cfg.hpfCutoff)

/-- The least value that `floor(ALPHA*k)` can have at precision `n`. -/
def floorLow (k n : Nat) : Int := ⌊alphaOf (piAbove n) * k⌋

/-- The greatest value that `floor(ALPHA*k)` can have at precision `n`. -/
def floorHigh (k n : Nat) : Int := ⌊alphaOf (piBelow n) * k⌋

/-! ## Some precision settles the floor -/

theorem arctanTerms_cast (d n : Nat) :
    ((arctanTerms d n : ℚ) : ℝ) =
      ∑ i ∈ Finset.range n, (-1) ^ i * (1 / (d : ℝ)) ^ (2 * i + 1) / (2 * i + 1 : ℕ) := by
  induction n with
  | zero => simp [arctanTerms]
  | succ n ih => rw [Finset.sum_range_succ, ← ih]; simp [arctanTerms]

theorem arctanTerms_tendsto {d : Nat} (hd : 1 < d) :
    Filter.Tendsto (fun n => ((arctanTerms d n : ℚ) : ℝ)) .atTop (nhds (Real.arctan (1 / d))) := by
  have hx : ‖(1 / (d : ℝ))‖ < 1 := by
    rw [Real.norm_of_nonneg (by positivity), div_lt_one (by positivity)]
    exact_mod_cast hd
  simpa only [arctanTerms_cast] using (Real.hasSum_arctan hx).tendsto_sum_nat

/-- Machin's sums at any two growing precisions tend to pi. -/
theorem machin_tendsto {f g : Nat → Nat} (hf : Filter.Tendsto f .atTop .atTop)
    (hg : Filter.Tendsto g .atTop .atTop) :
    Filter.Tendsto (fun n => (4 * (4 * arctanTerms 5 (f n) - arctanTerms 239 (g n) : ℚ) : ℝ)) .atTop
      (nhds Real.pi) := by
  have h5 := (arctanTerms_tendsto (d := 5) (by decide)).comp hf
  have h239 := (arctanTerms_tendsto (d := 239) (by decide)).comp hg
  have h := ((h5.const_mul 4).sub h239).const_mul 4
  have hm := Real.four_mul_arctan_inv_5_sub_arctan_inv_239
  have hpi : 4 * (4 * Real.arctan (1 / (5 : ℕ)) - Real.arctan (1 / (239 : ℕ))) = Real.pi := by
    rw [one_div, one_div]; push_cast; linarith
  rw [hpi] at h
  refine h.congr fun n => ?_
  simp

theorem piAbove_tendsto : Filter.Tendsto (fun n => ((piAbove n : ℚ) : ℝ)) .atTop (nhds Real.pi) := by
  have h := machin_tendsto (f := fun n => 2 * n + 1) (g := fun n => 2 * n)
    (Filter.tendsto_atTop_mono (fun n => show n ≤ _ by omega) Filter.tendsto_id)
    (Filter.tendsto_atTop_mono (fun n => show n ≤ _ by omega) Filter.tendsto_id)
  refine h.congr fun n => ?_
  simp [piAbove]

theorem piBelow_tendsto : Filter.Tendsto (fun n => ((piBelow n : ℚ) : ℝ)) .atTop (nhds Real.pi) := by
  have h := machin_tendsto (f := fun n => 2 * n) (g := fun n => 2 * n + 1)
    (Filter.tendsto_atTop_mono (fun n => show n ≤ _ by omega) Filter.tendsto_id)
    (Filter.tendsto_atTop_mono (fun n => show n ≤ _ by omega) Filter.tendsto_id)
  have h3 := (tendsto_const_nhds (x := (3 : ℝ))).max h
  rw [max_eq_right Real.pi_gt_three.le] at h3
  refine h3.congr fun n => ?_
  simp [piBelow]

/-- The coefficient as a function of pi's place, over the real numbers. -/
theorem alphaOf_cast (p : ℚ) : ((alphaOf p : ℚ) : ℝ) = 96000 / (96000 + 700 * p) := by
  simp only [alphaOf, cfg]
  push_cast
  ring_nf

/-- Products by rational coefficients that tend to ALPHA tend to the product by ALPHA. -/
theorem alphaOf_tendsto (k : Nat) {p : Nat → ℚ}
    (h : Filter.Tendsto (fun n => (p n : ℝ)) .atTop (nhds Real.pi)) :
    Filter.Tendsto (fun n => ((alphaOf (p n) * k : ℚ) : ℝ)) .atTop
      (nhds (96000 / (96000 + 700 * Real.pi) * k)) := by
  have hp : (96000 : ℝ) + 700 * Real.pi ≠ 0 := by positivity
  have h' := ((tendsto_const_nhds (x := (96000 : ℝ))).div
    ((h.const_mul 700).const_add 96000) hp).mul_const (k : ℝ)
  refine h'.congr fun n => ?_
  rw [Rat.cast_mul, alphaOf_cast]
  simp

/-- `ALPHA*k` is an integer for no `k` but 0, pi being irrational (spec/45_postprocess.md R217). -/
theorem alpha_mul_ne_int {k : Nat} (hk : 0 < k) (m : Int) :
    96000 / (96000 + 700 * Real.pi) * (k : ℝ) ≠ m := by
  intro h
  have hp : (0 : ℝ) < 96000 + 700 * Real.pi := by positivity
  have hkr : (0 : ℝ) < k := by exact_mod_cast hk
  rw [div_mul_eq_mul_div, div_eq_iff hp.ne'] at h
  have hm : (m : ℝ) ≠ 0 := by
    intro h0
    rw [h0, zero_mul] at h
    linarith
  refine irrational_pi ⟨(96000 * k - 96000 * m) / (700 * m), ?_⟩
  push_cast
  rw [div_eq_iff (by positivity)]
  linarith

/-- Every floor is settled at some precision. -/
theorem floor_settled (k : Nat) : ∃ n, floorLow k n = floorHigh k n := by
  rcases Nat.eq_zero_or_pos k with rfl | hk
  · exact ⟨0, by simp [floorLow, floorHigh]⟩
  · have hl := alphaOf_tendsto k piAbove_tendsto
    have hh := alphaOf_tendsto k piBelow_tendsto
    have h1 := lt_of_le_of_ne (Int.floor_le (96000 / (96000 + 700 * Real.pi) * (k : ℝ)))
      (alpha_mul_ne_int hk _).symm
    have h2 := Int.lt_floor_add_one (96000 / (96000 + 700 * Real.pi) * (k : ℝ))
    obtain ⟨n, ⟨a1, a2⟩, a3, a4⟩ := (((hl.eventually_const_lt h1).and (hl.eventually_lt_const h2)).and
      ((hh.eventually_const_lt h1).and (hh.eventually_lt_const h2))).exists
    refine ⟨n, ?_⟩
    have e1 : floorLow k n = ⌊96000 / (96000 + 700 * Real.pi) * (k : ℝ)⌋ := by
      rw [floorLow, Int.floor_eq_iff]
      exact ⟨by exact_mod_cast a1.le, by exact_mod_cast a2⟩
    have e2 : floorHigh k n = ⌊96000 / (96000 + 700 * Real.pi) * (k : ℝ)⌋ := by
      rw [floorHigh, Int.floor_eq_iff]
      exact ⟨by exact_mod_cast a3.le, by exact_mod_cast a4⟩
    rw [e1, e2]

/-- `floor(ALPHA*k)` at the first precision that settles it (spec/45_postprocess.md R217). -/
def floorProduct (k : Nat) : Nat := (floorLow k (Nat.find (floor_settled k))).toNat

end Sys2Proof.Machine
end

