-- ==== Sys2Proof/Machine/Numerics.lean ====
section
/-! DEFINITION. The two real-number computations of the block in exact arithmetic: the sample
function `S(k)` (spec/44_tone.md R188) and the filter product `trunc(ALPHA*k)`
(spec/45_postprocess.md R217). Both are meant to equal the real-number formulas of the spec
(spec/00_scope.md R15); the statements about that are in Certificates. -/

namespace Sys2Proof.Machine

/-! ## The sample function -/

/-- The first 21 digits of pi: pi lies between this and one more, over 10^20. -/
def piDigits : Nat := 314159265358979323846

/-- The numerator of the sine's Taylor polynomial of degree 15 at `a/b`, over `15! * b^15`. -/
def sineNum (a b : Int) : Int :=
  a * (1307674368000 * b ^ 14 - a ^ 2 * (217945728000 * b ^ 12 - a ^ 2 * (10897286400 * b ^ 10
    - a ^ 2 * (259459200 * b ^ 8 - a ^ 2 * (3603600 * b ^ 6 - a ^ 2 * (32760 * b ^ 4
    - a ^ 2 * (210 * b ^ 2 - a ^ 2)))))))

/-- The denominator of the sine's Taylor polynomial of degree 15 at `a/b`. -/
def sineDen (b : Int) : Int := 1307674368000 * b ^ 15

/-- `S(k)` on the first quarter turn, `0 <= k <= 24000`: `trunc(FULL_SCALE * AMPLITUDE * sin x)` at
`x = 2*pi*k/96000 = pi*k/48000` (spec/44_tone.md R188, R192; notes/assumptions/8.md). -/
def quarterSample (k : Nat) : Int :=
  (cfg.fullScale * sineNum (k * piDigits) (48000 * 10 ^ 20)) /
    (cfg.amplitudeDen * sineDen (48000 * 10 ^ 20))

/-- The sample function `S(k)`, `0 <= k < 96000`, by the sine's symmetries, which `trunc` keeps
exactly (spec/44_tone.md R188). -/
def sampleAt (k : Nat) : Int :=
  if k ≤ 24000 then quarterSample k
  else if k ≤ 48000 then quarterSample (48000 - k)
  else if k ≤ 72000 then -quarterSample (k - 48000)
  else -quarterSample (96000 - k)

/-! ## The filter product -/

/-- ALPHA to 60 digits, cut off, as spec/45_postprocess.md R217 prints it: ALPHA lies between this
and one more, over 10^60. -/
def alphaDigits : Nat := 977605553158969140860597426297678859323570186493664269672287

/-- The denominator of `alphaDigits`. -/
def alphaScale : Nat := 10 ^ 60

/-- The least value that `floor(ALPHA*k)` can have by the digits. -/
def amulLow (k : Nat) : Nat := k * alphaDigits / alphaScale

/-- The greatest value that `floor(ALPHA*k)` can have by the digits. -/
def amulHigh (k : Nat) : Nat := k * (alphaDigits + 1) / alphaScale

/-- `trunc(ALPHA*k)` for `k >= 0` (spec/45_postprocess.md R217): by the printed digits where they
settle it, which they do for every `k` up to 10^30, and by the search for the precision that settles
it where they do not (notes/assumptions/9.md). -/
def amulNat (k : Nat) : Nat := if amulLow k = amulHigh k then amulLow k else floorProduct k

/-- `amul(k) = trunc(ALPHA*k)`, odd in `k` (spec/45_postprocess.md R217). -/
def amul (k : Int) : Int := k.sign * amulNat k.natAbs

end Sys2Proof.Machine
end

