-- ==== Sys2Proof/Machine/Postprocess.lean ====
section
/-! DEFINITION. The second half of U6, the normaliser and the filter: SB.PUT, NORM, HPF.RST,
HPF.STEP, HPF (spec/45_postprocess.md). -/

namespace Sys2Proof.Machine

/-- The largest absolute sample, 0 for an empty buffer (spec/45_postprocess.md R211). -/
def maxAbs : List Int → Nat
  | [] => 0
  | x :: xs => max x.natAbs (maxAbs xs)

/-- One sample rescaled by `FULL_SCALE / m`, exactly, then truncated toward zero
(spec/45_postprocess.md R212). -/
def rescale (m : Nat) (x : Int) : Int := (x * cfg.fullScale).tdiv m

/-- The normaliser; an empty or all-zero buffer is left alone (spec/45_postprocess.md R211). -/
def normalise (l : List Int) : List Int :=
  if maxAbs l = 0 then l else l.map (rescale (maxAbs l))

/-- The filter's carried values XP, YP, YV (spec/10_state.md R25). -/
structure FilterRegs where
  xp : Int
  yp : Int
  yv : Bit
deriving DecidableEq, Repr

/-- The carried values before sample 0 (spec/45_postprocess.md R223). -/
def FilterRegs.initial : FilterRegs := ⟨0, 0, 0⟩

/-- One step of the recurrence on input `x`; the output is the new YP
(spec/45_postprocess.md R218, R224). -/
def filterStep (r : FilterRegs) (x : Int) : FilterRegs :=
  { xp := x, yp := amul (r.xp + x - if r.yv = 1 then r.yp else x), yv := 1 }

/-- The carried values after a sample sequence (spec/45_postprocess.md R225). -/
def filterRegs (r : FilterRegs) (l : List Int) : FilterRegs := l.foldl filterStep r

/-- The outputs of a sample sequence (spec/45_postprocess.md R218, R225). -/
def filterOut : FilterRegs → List Int → List Int
  | _, [] => []
  | r, x :: xs => (filterStep r x).yp :: filterOut (filterStep r x) xs

/-- The carried values of the state. -/
def State.filter (s : State) : FilterRegs := ⟨s.xp, s.yp, s.yv⟩

/-- The state with other carried values. -/
def State.setFilter (s : State) (r : FilterRegs) : State := { s with xp := r.xp, yp := r.yp, yv := r.yv }

/-- The steps of NORM (spec/45_postprocess.md R215). -/
def normStage (s : State) : Attempt := .done { s with sb := normalise s.sb } (maxAbs s.sb)

/-- The steps of HPF, always from the reset values of the filter (spec/45_postprocess.md R225). -/
def hpfStage (s : State) : Attempt :=
  .done { s.setFilter (filterRegs .initial s.sb) with sb := filterOut .initial s.sb } s.sb.length

/-- SB.PUT imm24 (spec/45_postprocess.md R214). -/
def execSbPut (imm24 : BitVec 24) (s : State) : Host.Outcome State Fault Refusal :=
  (if fits (s.sb.length + 1) s.params.sbCap then
    .done { s with sb := s.sb ++ [sext24 imm24] } (s.sb.length + 1)
  else Attempt.refuse .bufferFull).finish

/-- NORM (spec/45_postprocess.md R215). -/
def execNorm (s : State) : Host.Outcome State Fault Refusal := (normStage s).finish

/-- HPF.RST (spec/45_postprocess.md R223). -/
def execHpfRst (s : State) : Host.Outcome State Fault Refusal :=
  (Attempt.done (s.setFilter .initial) 0).finish

/-- HPF.STEP imm24 (spec/45_postprocess.md R224). -/
def execHpfStep (imm24 : BitVec 24) (s : State) : Host.Outcome State Fault Refusal :=
  (Attempt.done (s.setFilter (filterStep s.filter (sext24 imm24)))
    (filterStep s.filter (sext24 imm24)).yp).finish

/-- HPF (spec/45_postprocess.md R225). -/
def execHpf (s : State) : Host.Outcome State Fault Refusal := (hpfStage s).finish

end Sys2Proof.Machine
end

