-- ==== Sys2Proof/Machine/Tone.lean ====
section
/-! DEFINITION. Unit U5, the tone engine, and the per-bit tone drive of U6: PH.LD, TONE.RUN, AFSK.MOD
(spec/44_tone.md). -/

namespace Sys2Proof.Machine

/-- The accumulator after `n` samples at `f` hertz (spec/44_tone.md R189). -/
def advance (p : Phase) (f n : Nat) : Phase := Fin.ofNat 96000 (p.val + f * n)

/-- The samples of a run of `n` samples at `f` hertz from accumulator value `p`
(spec/44_tone.md R188). -/
def toneRun (p : Phase) (f n : Nat) : List Int :=
  (List.range n).map fun t => sampleAt (advance p f t).val

/-- The tone of a bit (spec/44_tone.md R195). -/
def bitTone (b : Bit) : Nat := if b = 1 then cfg.markTone else cfg.spaceTone

/-- The accumulator after the tones of a bit sequence (spec/44_tone.md R195, R197). -/
def afskPhase : Phase → List Bit → Phase
  | p, [] => p
  | p, b :: bs => afskPhase (advance p (bitTone b) cfg.spb) bs

/-- The samples of a bit sequence, one run per bit, the phase carried from run to run
(spec/44_tone.md R195, R197). -/
def afskSamples : Phase → List Bit → List Int
  | _, [] => []
  | p, b :: bs => toneRun p (bitTone b) cfg.spb ++ afskSamples (advance p (bitTone b) cfg.spb) bs

/-- The steps of AFSK.MOD (spec/44_tone.md R197); the append to SB is refused when it would pass
SB_CAP (spec/20_memory.md R66). -/
def afskModStage (s : State) : Attempt :=
  if fits (afskSamples 0 s.bb).length s.params.sbCap then
    .done { s with sb := afskSamples 0 s.bb, ph := afskPhase 0 s.bb } (afskSamples 0 s.bb).length
  else .refuse .bufferFull

/-- PH.LD imm24 (spec/44_tone.md R193). -/
def execPhLd (imm24 : BitVec 24) (s : State) : Host.Outcome State Fault Refusal :=
  (if zext imm24 < cfg.sampleRate then
    .done { s with ph := Fin.ofNat 96000 (zext imm24) } (zext imm24)
  else Attempt.refuse (.phaseTooLarge (zext imm24))).finish

/-- TONE.RUN f, n (spec/44_tone.md R194). -/
def execToneRun (f n : BitVec 12) (s : State) : Host.Outcome State Fault Refusal :=
  (if fits (s.sb.length + zext n) s.params.sbCap then
    .done { s with sb := s.sb ++ toneRun s.ph (zext f) (zext n), ph := advance s.ph (zext f) (zext n) }
      (advance s.ph (zext f) (zext n)).val
  else Attempt.refuse .bufferFull).finish

/-- AFSK.MOD (spec/44_tone.md R197). -/
def execAfskMod (s : State) : Host.Outcome State Fault Refusal := (afskModStage s).finish

end Sys2Proof.Machine
end

