-- ==== Sys2Proof/Machine/Wave.lean ====
section
/-! DEFINITION. Unit U7, the PCM serialiser: WAV.WR (spec/46_wave.md). -/

namespace Sys2Proof.Machine

/-- `n` bytes of a value, least significant first (spec/20_memory.md R68). -/
def leBytes : Nat → Nat → List Byte
  | 0, _ => []
  | n + 1, v => BitVec.ofNat 8 v :: leBytes n (v / 256)

/-- The 44-byte header for `d` data bytes (spec/46_wave.md R238). -/
def waveHeader (d : Nat) : List Byte :=
  [0x52, 0x49, 0x46, 0x46] ++ leBytes 4 (36 + d) ++ [0x57, 0x41, 0x56, 0x45] ++
  [0x66, 0x6D, 0x74, 0x20] ++ leBytes 4 16 ++ leBytes 2 1 ++ leBytes 2 1 ++
  leBytes 4 cfg.sampleRate ++ leBytes 4 (cfg.sampleRate * 2) ++ leBytes 2 2 ++ leBytes 2 16 ++
  [0x64, 0x61, 0x74, 0x61] ++ leBytes 4 d

/-- One sample as 16-bit two's complement, low byte first (spec/46_wave.md R237). -/
def sampleBytes (x : Int) : List Byte := leBytes 2 (x % 65536).toNat

/-- A sample that can be laid out in 16 bits (spec/46_wave.md R239). -/
def inRange16 (x : Int) : Bool := decide (-32768 ≤ x ∧ x ≤ 32767)

/-- The output file of a sample buffer (spec/46_wave.md R236). -/
def waveFile (l : List Int) : List Byte :=
  waveHeader (2 * l.length) ++ l.flatMap sampleBytes

/-- The steps of WAV.WR (spec/46_wave.md R241): the range of every sample, then the sink, then the
whole file at once; the append to OB is refused when it would pass OB_CAP (spec/20_memory.md R66). -/
def wavWrStage (s : State) : Attempt :=
  if 2 ^ 32 - 37 < 2 * s.sb.length then .refuse .fileTooLong
  else if fits (44 + 2 * s.sb.length) s.params.obCap then
    if s.sb.all inRange16 then
      if s.sinkOk then
        .done { s.asked with
          status := setDone 1 s.status, ob := waveFile s.sb,
          sinkFiles := s.sinkFiles ++ [waveFile s.sb] } (waveFile s.sb).length
      else .raise .ioError { s.asked with status := setDone 0 s.status, ob := [] }
    else .raise .rangeError { s with status := setDone 0 s.status, ob := [] }
  else .refuse .bufferFull

/-- WAV.WR (spec/46_wave.md R241). -/
def execWavWr (s : State) : Host.Outcome State Fault Refusal := (wavWrStage s).finish

end Sys2Proof.Machine
end

