-- ==== Sys2Proof/Machine/System.lean ====
section
/-! DEFINITION. The host's commands: CLR, RD, MRD, ENCODE, OP.CLR, LD.CS, LD.NP, LD.INFO
(spec/47_system.md). -/

namespace Sys2Proof.Machine

/-- CLR (spec/47_system.md R255). -/
def execClr (s : State) : Host.Outcome State Fault Refusal :=
  (Attempt.done s.cleared 0).finish

/-- RD r (spec/47_system.md R256). -/
def execRd (r : BitVec 8) (s : State) : Host.Outcome State Fault Refusal :=
  (match readRegister s (zext r) with
    | some v => Attempt.done s v
    | none => Attempt.refuse (.reservedRegister r)).finish

/-- MRD sp, idx (spec/47_system.md R257). -/
def execMrd (sp : BitVec 3) (idx : BitVec 21) (s : State) : Host.Outcome State Fault Refusal :=
  (match readSpace s sp (zext idx) with
    | .ok v => Attempt.done s v
    | .error why => Attempt.refuse why).finish

/-- OP.CLR (spec/47_system.md R251). -/
def execOpClr (s : State) : Host.Outcome State Fault Refusal :=
  (Attempt.done { s with opm := [], infom := [], npath := 0 } 0).finish

/-- LD.CS slot, c (spec/47_system.md R252). -/
def execLdCs (slot c : BitVec 8) (s : State) : Host.Outcome State Fault Refusal :=
  (if slotExists s.params (zext slot) then
    if fits ((s.opm.get (zext slot)).length + 1) s.params.csInMax then
      .done { s with opm := s.opm.append (zext slot) c } ((s.opm.get (zext slot)).length + 1)
    else .refuse (.stringFull (zext slot))
  else Attempt.refuse (.noSuchSlot (zext slot))).finish

/-- LD.NP n (spec/47_system.md R253). -/
def execLdNp (n : BitVec 8) (s : State) : Host.Outcome State Fault Refusal :=
  (if fits (zext n) s.params.pathMax then .done { s with npath := zext n } (zext n)
  else Attempt.refuse (.pathTooLong (zext n))).finish

/-- LD.INFO c (spec/47_system.md R254). -/
def execLdInfo (c : BitVec 8) (s : State) : Host.Outcome State Fault Refusal :=
  (if fits (s.infom.length + 1) s.params.infoMax then
    .done { s with infom := s.infom ++ [c] } (s.infom.length + 1)
  else Attempt.refuse .infoFull).finish

/-- The stages of ENCODE in the order of the data flow (spec/47_system.md R261, R262): the data path
cleared, then FRM.BUILD, BIT.ENC, AFSK.MOD, NORM, HPF, WAV.WR, whose `RES` is the length of OB. -/
def encodeStages (s : State) : Attempt :=
  (((((frmBuildStage s.cleared).andThen bitEncStage).andThen
    afskModStage).andThen normStage).andThen hpfStage).andThen wavWrStage

/-- ENCODE (spec/47_system.md R262). -/
def execEncode (s : State) : Host.Outcome State Fault Refusal := (encodeStages s).finish

end Sys2Proof.Machine
end

