-- ==== Sys2Proof/Machine/Dispatch.lean ====
section
/-! DEFINITION. One arm per command (spec/30_encoding.md R93). -/

namespace Sys2Proof.Machine

def exec (i : Instr) (s : State) : Host.Outcome State Fault Refusal :=
  match i with
  | .clr => Sys2Proof.Machine.execClr s
  | .rd r => Sys2Proof.Machine.execRd r s
  | .mrd sp idx => Sys2Proof.Machine.execMrd sp idx s
  | .encode => Sys2Proof.Machine.execEncode s
  | .opClr => Sys2Proof.Machine.execOpClr s
  | .ldCs slot c => Sys2Proof.Machine.execLdCs slot c s
  | .ldNp n => Sys2Proof.Machine.execLdNp n s
  | .ldInfo c => Sys2Proof.Machine.execLdInfo c s
  | .crcInit => Sys2Proof.Machine.execCrcInit s
  | .crcUpd imm8 => Sys2Proof.Machine.execCrcUpd imm8 s
  | .crcFin => Sys2Proof.Machine.execCrcFin s
  | .addrEnc slot ssid => Sys2Proof.Machine.execAddrEnc slot ssid s
  | .fbPut imm8 => Sys2Proof.Machine.execFbPut imm8 s
  | .frmBuild => Sys2Proof.Machine.execFrmBuild s
  | .nrzRst => Sys2Proof.Machine.execNrzRst s
  | .nrzBit bit => Sys2Proof.Machine.execNrzBit bit s
  | .bbPut bit => Sys2Proof.Machine.execBbPut bit s
  | .bitEnc => Sys2Proof.Machine.execBitEnc s
  | .phLd imm24 => Sys2Proof.Machine.execPhLd imm24 s
  | .toneRun f n => Sys2Proof.Machine.execToneRun f n s
  | .afskMod => Sys2Proof.Machine.execAfskMod s
  | .sbPut imm24 => Sys2Proof.Machine.execSbPut imm24 s
  | .norm => Sys2Proof.Machine.execNorm s
  | .hpfRst => Sys2Proof.Machine.execHpfRst s
  | .hpfStep imm24 => Sys2Proof.Machine.execHpfStep imm24 s
  | .hpf => Sys2Proof.Machine.execHpf s
  | .wavWr => Sys2Proof.Machine.execWavWr s

end Sys2Proof.Machine
end

