-- ==== Sys2Proof/Machine/Step.lean ====
section
/-! DEFINITION. One step: the next event that the host presents (spec/10_state.md R30, R39,
spec/30_encoding.md R90). -/

namespace Sys2Proof.Machine

/-- One step (notes/assumptions/1.md): a command word is decoded and run; a reset gives the reset
state, and one that falls during a command abandons it (spec/70_reset_and_hazards.md R310), the word
not being decoded, so that a reset over a word the spec refuses is the same (DESIGN CHOICE,
notes/assumptions/17.md); with nothing presented the block is idle with all state held (spec/60_exceptions.md R297). -/
def step (s : State) : Host.Outcome State Fault Refusal :=
  match s.inputs with
  | [] => .next s
  | .reset :: rest => .next (State.hardReset { s with inputs := rest })
  | .resetDuring _ :: rest => .next (State.hardReset { s with inputs := rest })
  | .command w :: rest =>
    match decode w with
    | .ok i => exec i { s with inputs := rest }
    | .error why => .refused (.reservedWord why)

/-- The word placed first on the command port, where `step` takes its next command. -/
def State.withFetchWord (s : State) (nbits w : Nat) : State :=
  { s with inputs := .command (BitVec.ofNat 32 (w % 2 ^ nbits)) :: s.inputs }

end Sys2Proof.Machine
end

