-- ==== Sys2Proof/Safety.lean ====
section
/-! DEFINITION. The terms that claims use: the invariant of the block, a whole output file, equal
operands, equal data paths, the run of a list of command words, truncation of a real number. -/

namespace Sys2Proof.Machine

/-- STATUS holds only values that spec/10_state.md R32 lists: bits 7:4 are 0 and ERR is 0 to 4. -/
def statusLegal (st : BitVec 8) : Prop := statusRest st = 0 ∧ (statusErr st).toNat ≤ 4

/-- The bytes are a complete output file of samples in the 16-bit range (spec/46_wave.md R236). -/
def IsWholeFile (f : List Byte) : Prop := ∃ l : List Int, l.all inRange16 = true ∧ f = waveFile l

/-- OB is empty or a complete file, and DONE says which (spec/10_state.md R32, spec/20_memory.md R67). -/
def outputWhole (s : State) : Prop :=
  (statusDone s.status = 0 ∧ s.ob = []) ∨ (statusDone s.status = 1 ∧ IsWholeFile s.ob)

/-- Every operand and buffer is within its size parameter or capacity (spec/00_scope.md R14,
spec/20_memory.md R61, R62, R66). -/
def sizesOk (s : State) : Prop :=
  fits s.npath s.params.pathMax = true ∧
  (∀ p ∈ s.opm, slotExists s.params p.1 = true ∧ fits p.2.length s.params.csInMax = true) ∧
  fits s.infom.length s.params.infoMax = true ∧
  fits s.fb.length s.params.fbCap = true ∧
  fits s.bb.length s.params.bbCap = true ∧
  fits s.sb.length s.params.sbCap = true ∧
  fits s.ob.length s.params.obCap = true

/-- The invariant of the block: what every state reached from reset has. -/
structure State.Inv (s : State) : Prop where
  /-- OPM is in canonical form. -/
  opm_wf : s.opm.wf = true
  /-- STATUS holds a legal value. -/
  status_legal : statusLegal s.status
  /-- OB is empty or whole, as DONE says. -/
  output_whole : outputWhole s
  /-- While no previous output exists the filter's carried values are 0. -/
  filter_initial : s.yv = 0 → s.xp = 0 ∧ s.yp = 0
  /-- Nothing is longer than the block can hold. -/
  sizes_ok : sizesOk s
  /-- The sink has only ever been given complete files. -/
  sink_whole : ∀ f ∈ s.sinkFiles, IsWholeFile f

/-- Equal operands for FRM.BUILD and ENCODE: the source, the destination, the path entries in use, the
information string (spec/47_system.md R263). -/
def sameOperands (s t : State) : Prop :=
  s.npath = t.npath ∧ s.infom = t.infom ∧ ∀ k, k < 2 + s.npath → s.opm.get k = t.opm.get k

/-- Equal data registers, STATUS and data buffers. -/
def sameDataPath (s t : State) : Prop :=
  s.crc = t.crc ∧ s.nrz = t.nrz ∧ s.ph = t.ph ∧ s.xp = t.xp ∧ s.yp = t.yp ∧ s.yv = t.yv ∧
  s.status = t.status ∧ s.fb = t.fb ∧ s.bb = t.bb ∧ s.sb = t.sb ∧ s.ob = t.ob

/-- Equal outcomes as far as the spec defines them: RES when done, the cause when not
(spec/60_exceptions.md R284). -/
def sameOutcome (a b : Option Result) : Prop :=
  (∃ v, a = some (.done v) ∧ b = some (.done v)) ∨
  (∃ c v w, a = some (.fault c v) ∧ b = some (.fault c w))

/-- Some byte of the string has bit 7 set (spec/60_exceptions.md R281). -/
def hasNonAscii (cs : List Byte) : Prop := ∃ c ∈ cs, 0x80 ≤ c.toNat

/-- Every character of the operands in use is ASCII (spec/60_exceptions.md R281). -/
def operandsAscii (s : State) : Prop :=
  (∀ k, k < 2 + s.npath → ¬hasNonAscii (s.opm.get k)) ∧ ¬hasNonAscii s.infom

/-- The events by which the host presents the words of these commands, in order. -/
def commandInputs (l : List Instr) : List Input := l.map fun i => .command (encode i)

/-- `n` is the real number `r` with its fraction dropped toward zero (spec/00_scope.md R17). -/
def isTrunc (r : ℝ) (n : Int) : Prop :=
  (0 ≤ r → (n : ℝ) ≤ r ∧ r < n + 1) ∧ (r ≤ 0 → (n : ℝ) - 1 < r ∧ r ≤ n)

/-- The value of bytes laid out least significant first (spec/20_memory.md R68). -/
def leValue : List Byte → Nat
  | [] => 0
  | b :: bs => b.toNat + 256 * leValue bs

/-- The value of two bytes as a 16-bit two's-complement number, low byte first
(spec/46_wave.md R237). -/
def signed16 (lo hi : Byte) : Int := (hi ++ lo).toInt

end Sys2Proof.Machine
end

