-- ==== Sys2Proof/Certificates/Slice0/Obligations.lean ====
section
/-! DEFINITION. The statements for the provers, one `def Obligations.<Name> : Prop` each, from the
numbered rules of spec/. A next state is written out whole wherever it can be, so that the frame is
part of the statement: every field not named is unchanged. -/

open Sys2Proof Sys2Proof.Machine

/-! ## Command words (spec/30_encoding.md) -/

/-- R91 to R93: decoding the word of a command that has a word gives the command back, with every
operand at every value. -/
def Obligations.DecodeOfEncodeGivesTheCommand : Prop :=
  ∀ i : Instr, i.wf = true → decode (encode i) = .ok i

/-- R91 to R94: a word that decodes is the word of the command it decodes to, and of no other. -/
def Obligations.EncodeOfDecodeGivesTheWord : Prop :=
  ∀ (w : Word) (i : Instr), decode w = .ok i → encode i = w ∧ i.wf = true

/-- R93, R94: a word decodes exactly when a row of the operation table covers it (and, in format M,
its selector is not reserved), and then to the row's command. -/
def Obligations.DecodeAcceptsExactlyTheTableWords : Prop :=
  ∀ w : Word,
    (∀ i, decode w = .ok i →
      ∃ r ∈ opTable, r.mnemonic = i.mnemonic ∧ w &&& r.mask = r.pattern) ∧
    (∀ r ∈ opTable, w &&& r.mask = r.pattern →
      ¬(r.mnemonic = "MRD" ∧ 6 ≤ (w.extractLsb' 21 3).toNat) →
      ∃ i, decode w = .ok i ∧ i.mnemonic = r.mnemonic)

/-- R94: a word that matches no row, a word of format M with selector 6 or 7, and so the all-zero
word, is refused when the host presents it. -/
def Obligations.ReservedWordsAreRefused : Prop :=
  (∀ (s : State) (w : Word) (rest : List Input), s.inputs = .command w :: rest →
    ((∀ r ∈ opTable, w &&& r.mask ≠ r.pattern) ∨
      (opField w = 0x03#8 ∧ 6 ≤ (w.extractLsb' 21 3).toNat)) →
    ∃ why, step s = .refused (.reservedWord why)) ∧
  (∀ r ∈ opTable, (0#32) &&& r.mask ≠ r.pattern)

/-- R96: the example words of the spec decode to the commands it says they are, and one word of every
other family. -/
def Obligations.SpecExampleWordsDecode : Prop :=
  decode 0x11000031#32 = .ok (.crcUpd 0x31#8) ∧
  decode 0x51640140#32 = .ok (.toneRun 1600#12 320#12) ∧
  decode 0x63FFFFCE#32 = .ok (.hpfStep (-50#24)) ∧
  decode 0x0340013F#32 = .ok (.mrd 2#3 319#21) ∧
  decode 0x09000041#32 = .ok (.ldCs 0#8 0x41#8) ∧
  decode 0x20000010#32 = .ok (.addrEnc 0#8 16#8) ∧
  decode 0x31000000#32 = .ok .frmBuild ∧
  decode 0x41000001#32 = .ok (.nrzBit 1#1) ∧
  decode 0x70000000#32 = .ok .wavWr

/-! ## The step, reset, the invariant -/

/-- R30, R90, R297: when the word presented decodes, the step is the command run with the word taken
from the port; with nothing presented the block is idle with all state held (the model's choice, log
entry 1). -/
def Obligations.StepRunsTheDecodedCommand : Prop :=
  (∀ (s : State) (w : Word) (rest : List Input) (i : Instr),
    s.inputs = .command w :: rest → decode w = .ok i →
    step s = exec i { s with inputs := rest }) ∧
  (∀ s : State, s.inputs = [] → step s = .next s)

/-- R310, R311: `rst`, between commands or during one, gives the reset state and no outcome, and
nothing reaches the sink. That a reset leaves no outcome on the result port, whatever stood there, and
that what is outside the block stays, are the model's choice (log entry 11); so is the same outcome for
a reset that falls while a reserved word, or a command the spec refuses, is on the port (log entry
17). -/
def Obligations.ResetAbandonsTheCommand : Prop :=
  ∀ (s : State) (w : Word) (rest : List Input),
    (s.inputs = .reset :: rest ∨ s.inputs = .resetDuring w :: rest) →
    step s = .next { State.reset with
      inputs := rest, sinkAnswers := s.sinkAnswers, sinkFiles := s.sinkFiles,
      freeCount := s.freeCount, params := s.params }

/-- R311: the value of every register and buffer after reset, and the configuration registers. -/
def Obligations.ResetStateValues : Prop :=
  State.reset.crc = 0xFFFF#16 ∧ State.reset.nrz = 1#1 ∧ State.reset.ph.val = 0 ∧
  State.reset.xp = 0 ∧ State.reset.yp = 0 ∧ State.reset.yv = 0#1 ∧
  statusErr State.reset.status = 0#3 ∧ statusDone State.reset.status = 0#1 ∧
  State.reset.status = 0#8 ∧ State.reset.npath = 0 ∧
  (∀ slot, State.reset.opm.get slot = []) ∧ State.reset.infom = [] ∧
  State.reset.fb = [] ∧ State.reset.bb = [] ∧ State.reset.sb = [] ∧ State.reset.ob = [] ∧
  cfgRegs = [96000, 300, 320, 1800, 1600, 50, 32767, 32, 0x7E, 0x03, 0xF0, 0x8408, 0xFFFF, 0xFFFF,
    6, 0x20, 0x60, 0x01, 0, 1, 1, 350]

/-- R40, R311: the invariant holds at reset. Its clauses on the sizes and on the files the sink has
rest on the size parameters and the empty sink at reset, which are the model's choice (log entries 4
and 14). -/
def Obligations.InvariantAtReset : Prop := State.reset.Inv

/-- The invariant is kept by every step from every state that has it: OPM canonical, STATUS legal
(R32), OB empty or whole as DONE says (R67), the filter's initial values (R25), sizes within the
parameters and capacities (R14, R66), the sink given whole files only (R240). -/
def Obligations.StepKeepsTheInvariant : Prop :=
  ∀ s t : State, s.Inv → step s = .next t → t.Inv

/-- R66 with I5: in a state with the invariant the composite commands are never refused for a
buffer's capacity, and each ends done or in a fault. -/
def Obligations.CompositeCommandsAreNotRefusedForSize : Prop :=
  ∀ s : State, s.Inv →
    (∃ t, exec .frmBuild s = .next t) ∧ (∃ t, exec .bitEnc s = .next t) ∧
    (∃ t, exec .afskMod s = .next t) ∧ (∃ t, exec .norm s = .next t) ∧
    (∃ t, exec .hpf s = .next t) ∧
    (2 * s.sb.length ≤ 2 ^ 32 - 37 → ∃ t, exec .wavWr s = .next t) ∧
    (640 * (474 + 56 * s.npath + 8 * s.infom.length) ≤ 2 ^ 32 - 37 → ∃ t, exec .encode s = .next t)

/-! ## Checksum (spec/40_crc.md) -/

/-- R125, R127: CRC.INIT and CRC.FIN, and their words. -/
def Obligations.CrcInitAndFin : Prop :=
  ∀ s : State,
    exec .crcInit s = .next (State.present { s with crc := 0xFFFF#16 } 0xFFFF) ∧
    exec .crcFin s = .next (s.present (s.crc ^^^ 0xFFFF#16).toNat) ∧
    encode .crcInit = 0x10000000#32 ∧ encode .crcFin = 0x12000000#32

/-- R121, R122, R126: CRC.UPD enters the byte once into bits 7:0 and then takes eight bit steps, each
testing the low bit before the logical shift. -/
def Obligations.CrcUpdTakesEightBitSteps : Prop :=
  ∀ (s : State) (b : Byte),
    let bit : BitVec 16 → BitVec 16 := fun r =>
      if r &&& 1#16 = 1#16 then (r >>> 1) ^^^ 0x8408#16 else r >>> 1
    let r8 := bit (bit (bit (bit (bit (bit (bit (bit (s.crc ^^^ (0#8 ++ b : BitVec 16)))))))))
    exec (.crcUpd b) s = .next (State.present { s with crc := r8 } r8.toNat) ∧
    encode (.crcUpd b) = 0x11000000#32 ||| b.setWidth 32

/-- R97, R123: the words of CRC.INIT, one CRC.UPD a byte, CRC.FIN, run one after another, return the
checksum of the bytes and change nothing but CRC. -/
def Obligations.CrcSequenceReturnsTheChecksum : Prop :=
  ∀ (bytes : List Byte) (s : State) (rest : List Input),
    s.inputs = commandInputs (.crcInit :: (bytes.map .crcUpd ++ [.crcFin])) ++ rest →
    Host.Core.run core (bytes.length + 2) s =
      .next (State.present { s with inputs := rest, crc := bytes.foldl crcByte 0xFFFF#16 }
        (bytes.foldl crcByte 0xFFFF#16 ^^^ 0xFFFF#16).toNat)

/-- R4, R120: the register is, read from the other end, that of the generator polynomial 0x1021 fed
the same bits most significant first. -/
def Obligations.CrcIsThePolynomial1021Reflected : Prop :=
  ∀ (bytes : List Byte) (r : BitVec 16),
    let bit : BitVec 16 → BitVec 16 := fun q => if q.msb then (q <<< 1) ^^^ 0x1021#16 else q <<< 1
    (crcRun r bytes).reverse =
      bytes.foldl (fun q b => bit^[8] (q ^^^ (b.reverse ++ 0#8 : BitVec 16))) r.reverse

/-- R124, R130: a byte sequence followed by its own checksum, low byte first, leaves the register at
0xF0B8, whatever the sequence; the checksum of no bytes is 0. -/
def Obligations.ChecksumResidueIsF0B8 : Prop :=
  (∀ bytes : List Byte,
    crcRun 0xFFFF#16 (bytes ++ [(checksum bytes).extractLsb' 0 8, (checksum bytes).extractLsb' 8 8]) =
      0xF0B8#16) ∧
  checksum [] = 0#16

/-! ## Address field (spec/41_address.md) -/

/-- R142: ADDR.ENC on an ASCII callsign with an SSID of 0 to 15 returns the seven bytes, first byte
least significant, and changes no state. -/
def Obligations.AddrEncReturnsTheAddress : Prop :=
  ∀ (s : State) (slot ssid : BitVec 8),
    slotExists s.params slot.toNat = true → ¬hasNonAscii (s.opm.get slot.toNat) → ssid.toNat ≤ 15 →
    let u : List Byte := (s.opm.get slot.toNat).map fun c =>
      if 0x61 ≤ c.toNat ∧ c.toNat ≤ 0x7A then c - 0x20#8 else c
    let p : List Byte := (u ++ List.replicate 6 0x20#8).take 6
    exec (.addrEnc slot ssid) s = .next (s.present
      (((p.getD 0 0).toNat * 2 + (p.getD 1 0).toNat * 2 * 2 ^ 8 + (p.getD 2 0).toNat * 2 * 2 ^ 16 +
        (p.getD 3 0).toNat * 2 * 2 ^ 24 + (p.getD 4 0).toNat * 2 * 2 ^ 32 +
        (p.getD 5 0).toNat * 2 * 2 ^ 40 + (ssid.toNat * 2 + 0x60) * 2 ^ 48 : Nat) : Int))

/-- R137 to R140, R143, R144: an address has seven bytes with bit 0 clear; bytes 0 to 5 hold the
upper-cased characters, then spaces, in bits 7:1; byte 6 is 0x60 and the SSID in bits 4:1; only the
first six characters count. -/
def Obligations.AddressLayout : Prop :=
  ∀ (cs : List Byte) (ssid : Nat), ¬hasNonAscii cs → ssid ≤ 15 →
    (addrBytes cs ssid).length = 7 ∧
    (∀ b ∈ addrBytes cs ssid, b.getLsbD 0 = false) ∧
    (∀ k, k < 6 → ((addrBytes cs ssid).getD k 0).toNat / 2 =
      match cs[k]? with
      | some c => if 0x61 ≤ c.toNat ∧ c.toNat ≤ 0x7A then c.toNat - 0x20 else c.toNat
      | none => 0x20) ∧
    ((addrBytes cs ssid).getD 6 0).toNat = 0x60 + 2 * ssid ∧
    addrBytes cs ssid = addrBytes (cs.take 6) ssid

/-- R141, R281, R282, R287: a code of 0x80 or above anywhere in the string is an EncodingError even
beyond the sixth character and even with a bad SSID; an SSID above 15 is then a ValueError; a slot at
or above `2 + PATH_MAX` is refused. -/
def Obligations.AddrEncFaults : Prop :=
  ∀ (s : State) (slot ssid : BitVec 8),
    (slotExists s.params slot.toNat = true → hasNonAscii (s.opm.get slot.toNat) →
      exec (.addrEnc slot ssid) s = .next (s.faultEntry .encodingError)) ∧
    (slotExists s.params slot.toNat = true → ¬hasNonAscii (s.opm.get slot.toNat) → 15 < ssid.toNat →
      exec (.addrEnc slot ssid) s = .next (s.faultEntry .valueError)) ∧
    (∀ m, s.params.pathMax = some m → 2 + m ≤ slot.toNat →
      exec (.addrEnc slot ssid) s = .refused (.noSuchSlot slot.toNat))

/-! ## Frame assembler (spec/42_frame.md) -/

/-- R163, R177, R214, R66: FB.PUT, BB.PUT and SB.PUT append one element as given, SB's sign-extended,
and return the new length; at capacity they are refused. -/
def Obligations.PutCommandsAppend : Prop :=
  ∀ (s : State) (b : BitVec 8) (d : BitVec 1) (x : BitVec 24),
    (fits (s.fb.length + 1) s.params.fbCap = true →
      exec (.fbPut b) s = .next (State.present { s with fb := s.fb ++ [b] } (s.fb.length + 1))) ∧
    (fits (s.fb.length + 1) s.params.fbCap = false → exec (.fbPut b) s = .refused .bufferFull) ∧
    (fits (s.bb.length + 1) s.params.bbCap = true →
      exec (.bbPut d) s = .next (State.present { s with bb := s.bb ++ [d] } (s.bb.length + 1))) ∧
    (fits (s.bb.length + 1) s.params.bbCap = false → exec (.bbPut d) s = .refused .bufferFull) ∧
    (fits (s.sb.length + 1) s.params.sbCap = true →
      exec (.sbPut x) s = .next (State.present
        { s with sb := s.sb ++ [if x.toNat < 2 ^ 23 then (x.toNat : Int) else x.toNat - 2 ^ 24] }
        (s.sb.length + 1))) ∧
    (fits (s.sb.length + 1) s.params.sbCap = false → exec (.sbPut x) s = .refused .bufferFull) ∧
    encode (.fbPut b) = 0x30000000#32 ||| b.setWidth 32 ∧
    encode (.bbPut d) = 0x42000000#32 ||| d.setWidth 32 ∧
    encode (.sbPut x) = 0x60000000#32 ||| x.setWidth 32

/-- R151 to R159, R162, R164: FRM.BUILD on ASCII operands puts into FB, offset by offset, the 32
flags, the destination, the source and the path addresses with the one marked byte, control, PID,
payload, the checksum of those low byte first, and the flag; CRC is the checksum before the final
XOR; nothing else changes. -/
def Obligations.FrmBuildBuildsTheFrame : Prop :=
  ∀ s : State,
    fits (51 + 7 * s.npath + s.infom.length) s.params.fbCap = true → operandsAscii s →
    ∃ (f : List Byte) (c : BitVec 16),
      exec .frmBuild s = .next (State.present { s with crc := c, fb := f } f.length) ∧
      f.length = 51 + 7 * s.npath + s.infom.length ∧
      (∀ k, k < 32 → f[k]? = some 0x7E#8) ∧
      (∀ a k, a < 2 + s.npath → k < 7 → f[32 + 7 * a + k]? =
        some (((addrBytes (s.opm.get (if a = 0 then 1 else if a = 1 then 0 else a)) 0).getD k 0) |||
          (if a = 1 + s.npath ∧ k = 6 then 0x01#8 else 0x00#8))) ∧
      f[46 + 7 * s.npath]? = some 0x03#8 ∧ f[47 + 7 * s.npath]? = some 0xF0#8 ∧
      (∀ k, k < s.infom.length → f[48 + 7 * s.npath + k]? = s.infom[k]?) ∧
      f[48 + 7 * s.npath + s.infom.length]? = some ((c ^^^ 0xFFFF#16).extractLsb' 0 8) ∧
      f[49 + 7 * s.npath + s.infom.length]? = some ((c ^^^ 0xFFFF#16).extractLsb' 8 8) ∧
      f[50 + 7 * s.npath + s.infom.length]? = some 0x7E#8 ∧
      c = ((f.drop 32).take (16 + 7 * s.npath + s.infom.length)).foldl crcByte 0xFFFF#16

/-- R154, R165: of the address bytes that FRM.BUILD emits, the last and only the last has its low bit
set. -/
def Obligations.OnlyTheLastAddressByteIsMarked : Prop :=
  ∀ s t : State, operandsAscii s → exec .frmBuild s = .next t →
    ∀ k, k < 14 + 7 * s.npath →
      ∃ b, t.fb[32 + k]? = some b ∧ (b.getLsbD 0 = true ↔ k = 13 + 7 * s.npath)

/-- R160, R281, R66: FRM.BUILD raises EncodingError when a callsign in use or the payload holds a code
of 0x80 or above. That it is refused when FB could not hold the frame, and before the EncodingError, is
the model's reading of R66 with R287 (log entry 6). -/
def Obligations.FrmBuildFaultsOnNonAscii : Prop :=
  ∀ s : State,
    (fits (51 + 7 * s.npath + s.infom.length) s.params.fbCap = true → ¬operandsAscii s →
      exec .frmBuild s = .next (s.faultEntry .encodingError)) ∧
    (fits (51 + 7 * s.npath + s.infom.length) s.params.fbCap = false →
      exec .frmBuild s = .refused .bufferFull)

/-! ## Bit encoder (spec/43_bitstream.md) -/

/-- R171, R175, R176: NRZ.RST and NRZ.BIT, the new state being `state xor (1 - b)` and the bit
returned, and their words. -/
def Obligations.NrzRstAndNrzBit : Prop :=
  ∀ (s : State) (b : Bit),
    exec .nrzRst s = .next (State.present { s with nrz := 1#1 } 1) ∧
    exec (.nrzBit b) s =
      .next (State.present { s with nrz := s.nrz ^^^ (1#1 - b) } (s.nrz ^^^ (1#1 - b)).toNat) ∧
    encode .nrzRst = 0x40000000#32 ∧ encode (.nrzBit b) = 0x41000000#32 ||| b.setWidth 32

/-- R172, R173, R178: BIT.ENC leaves in BB the 32 literal pairs, then for every bit of FB, least
significant first, a 1 exactly when the number of 0 bits so far is even, then the closing pair; NRZ is
the last state; nothing else changes. -/
def Obligations.BitEncBuildsTheBitSequence : Prop :=
  ∀ s : State, fits (66 + 8 * s.fb.length) s.params.bbCap = true →
    let zeros : Nat → Nat := fun n =>
      ((List.range n).filter fun m => !(s.fb.getD (m / 8) 0).getLsbD (m % 8)).length
    ∃ (b : List Bit) (n : Bit),
      exec .bitEnc s = .next (State.present { s with bb := b, nrz := n } b.length) ∧
      b.length = 66 + 8 * s.fb.length ∧
      (∀ k, k < 32 → b[2 * k]? = some 0#1 ∧ b[2 * k + 1]? = some 1#1) ∧
      (∀ m, m < 8 * s.fb.length →
        b[64 + m]? = some (if zeros (m + 1) % 2 = 0 then 1#1 else 0#1)) ∧
      b[64 + 8 * s.fb.length]? = some 0#1 ∧ b[65 + 8 * s.fb.length]? = some 1#1 ∧
      n = (if zeros (8 * s.fb.length) % 2 = 0 then 1#1 else 0#1)

/-- R171, R172, R174: a bit of the encoded bytes is 1 exactly when its encoded bit repeats the one
before it, so that the BitSequence gives the bytes back: nothing is stuffed and nothing is lost. -/
def Obligations.BitSequenceDeterminesTheBytes : Prop :=
  (∀ (f : List Byte) (m : Nat), m < 8 * f.length →
    ((f.getD (m / 8) 0).getLsbD (m % 8) = true ↔ (bitSequence f)[64 + m]? = (bitSequence f)[63 + m]?)) ∧
  (∀ f g : List Byte, bitSequence f = bitSequence g → f = g)

/-! ## Tone engine (spec/44_tone.md) -/

/-- R193: PH.LD loads a phase below 96000 and is refused from 96000 on. -/
def Obligations.PhLdLoadsAPhase : Prop :=
  ∀ (s : State) (v : BitVec 24),
    (∀ h : v.toNat < 96000, exec (.phLd v) s = .next (State.present { s with ph := ⟨v.toNat, h⟩ } v.toNat)) ∧
    (96000 ≤ v.toNat → exec (.phLd v) s = .refused (.phaseTooLarge v.toNat)) ∧
    encode (.phLd v) = 0x50000000#32 ||| v.setWidth 32

/-- R188, R189, R194: TONE.RUN appends `S((PH + f*t) mod 96000)` for `t` below `n`, PH as on entry,
and advances PH by `f*n`; at capacity it is refused. -/
def Obligations.ToneRunAppendsTheRun : Prop :=
  ∀ (s : State) (f n : BitVec 12),
    (fits (s.sb.length + n.toNat) s.params.sbCap = true →
      exec (.toneRun f n) s = .next (State.present
        { s with
          sb := s.sb ++ (List.range n.toNat).map fun t => sampleAt ((s.ph.val + f.toNat * t) % 96000)
          ph := ⟨(s.ph.val + f.toNat * n.toNat) % 96000, Nat.mod_lt _ (by decide)⟩ }
        ((s.ph.val + f.toNat * n.toNat) % 96000 : Nat))) ∧
    (fits (s.sb.length + n.toNat) s.params.sbCap = false →
      exec (.toneRun f n) s = .refused .bufferFull) ∧
    encode (.toneRun f n) = 0x51000000#32 ||| (f.setWidth 32 <<< 12) ||| n.setWidth 32

/-- R191: two runs at one frequency, the second from the phase the first returned, give the samples
and the final phase of the one longer run. -/
def Obligations.ToneRunIsPhaseContinuous : Prop :=
  ∀ (s : State) (f n m k : BitVec 12),
    n.toNat + m.toNat = k.toNat → fits (s.sb.length + k.toNat) s.params.sbCap = true →
    ∃ t u v, exec (.toneRun f n) s = .next t ∧ exec (.toneRun f m) t = .next u ∧
      exec (.toneRun f k) s = .next v ∧ u.sb = v.sb ∧ u.ph = v.ph ∧ u = v

/-- R195 to R199: AFSK.MOD rebuilds SB with 320 samples a bit, 1800 Hz for a 1 and 1600 Hz for a 0,
starting each bit at the phase 32000 times the number of 0 bits before it, and leaves PH at 32000
times the number of 0 bits modulo 3; nothing else changes. -/
def Obligations.AfskModSamples : Prop :=
  ∀ s : State, fits (320 * s.bb.length) s.params.sbCap = true →
    let zeros : Nat → Nat := fun i => ((s.bb.take i).filter fun b => b = 0#1).length
    ∃ (l : List Int) (p : Phase),
      exec .afskMod s = .next (State.present { s with sb := l, ph := p } l.length) ∧
      l.length = 320 * s.bb.length ∧
      (∀ i b t, s.bb[i]? = some b → t < 320 →
        l[320 * i + t]? =
          some (sampleAt ((32000 * zeros i + (if b = 1#1 then 1800 else 1600) * t) % 96000))) ∧
      p.val = 32000 * (zeros s.bb.length % 3)

/-- R188: the sample function has the sine's symmetries and stays within -655 to 655. -/
def Obligations.SampleSymmetriesAndBound : Prop :=
  (∀ k, k ≤ 48000 → sampleAt (48000 - k) = sampleAt k) ∧
  (∀ k, k < 48000 → sampleAt (48000 + k) = -sampleAt k) ∧
  (∀ k, k < 96000 → -655 ≤ sampleAt k ∧ sampleAt k ≤ 655) ∧
  sampleAt 0 = 0 ∧ sampleAt 48000 = 0 ∧ sampleAt 24000 = 655 ∧ sampleAt 72000 = -655

/-- R185, R188, R192: for every accumulator value the sample is the real number
`(1/50) * 32767 * sin(2*pi*k/96000)` truncated toward zero. -/
def Obligations.SampleIsTheTruncatedSine : Prop :=
  ∀ k : Nat, k < 96000 →
    isTrunc ((1 / 50 : ℝ) * 32767 * Real.sin (2 * Real.pi * k / 96000)) (sampleAt k)

/-! ## Normaliser and filter (spec/45_postprocess.md) -/

/-- R211, R212, R215: NORM returns the largest magnitude m; with m = 0 it changes nothing; otherwise
every sample is `x * 32767 / m` truncated toward zero, within -32767 to 32767, the loudest at full
scale; nothing but SB changes. -/
def Obligations.NormRescalesToFullScale : Prop :=
  ∀ s : State, ∃ (m : Nat) (l : List Int),
    exec .norm s = .next (State.present { s with sb := l } m) ∧
    (∀ x ∈ s.sb, x.natAbs ≤ m) ∧ (m = 0 ∨ ∃ x ∈ s.sb, x.natAbs = m) ∧
    (m = 0 → l = s.sb) ∧ l.length = s.sb.length ∧
    (m ≠ 0 → ∀ (k : Nat) (x : Int), s.sb[k]? = some x →
      ∃ y : Int, l[k]? = some y ∧ isTrunc ((x : ℝ) * 32767 / m) y ∧ -32767 ≤ y ∧ y ≤ 32767 ∧
        (x = m → y = 32767) ∧ (x = -(m : Int) → y = -32767)) ∧
    encode .norm = 0x61000000#32

/-- R72, R213, R326: NORM applied to what NORM left changes nothing, and finds 32767 when some sample
was not 0, and 0 exactly when the buffer was empty or all zero. -/
def Obligations.NormIsIdempotent : Prop :=
  ∀ s : State, ∃ (t : State) (v : Int),
    exec .norm s = .next t ∧ exec .norm t = .next (t.present v) ∧
    ((v = 32767 ∧ ∃ x ∈ s.sb, x ≠ 0) ∨ (v = 0 ∧ ∀ x ∈ s.sb, x = 0))

/-- R218, R223, R224: HPF.RST and HPF.STEP with the fallback of the first step, and their words. -/
def Obligations.HpfRstAndHpfStep : Prop :=
  ∀ (s : State) (v : BitVec 24),
    let x : Int := if v.toNat < 2 ^ 23 then (v.toNat : Int) else v.toNat - 2 ^ 24
    let y : Int := amul (s.xp + x - if s.yv = 1#1 then s.yp else x)
    exec .hpfRst s = .next (State.present { s with xp := 0, yp := 0, yv := 0#1 } 0) ∧
    exec (.hpfStep v) s = .next (State.present { s with xp := x, yp := y, yv := 1#1 } y) ∧
    encode .hpfRst = 0x62000000#32 ∧ encode (.hpfStep v) = 0x63000000#32 ||| v.setWidth 32

/-- R218 to R220, R225: HPF gives `y[0] = 0` and `y[n+1] = amul(x[n] + x[n+1] - y[n])` with the raw
inputs, whatever XP, YP and YV held, and leaves the last input, the last output and 1, or the initial
values for an empty buffer. -/
def Obligations.HpfFollowsTheRecurrence : Prop :=
  ∀ s : State, ∃ l : List Int,
    exec .hpf s = .next (State.present
      { s with
        sb := l, xp := s.sb.getLastD 0, yp := l.getLastD 0,
        yv := if s.sb = [] then 0#1 else 1#1 } s.sb.length) ∧
    l.length = s.sb.length ∧ (s.sb ≠ [] → l[0]? = some 0) ∧
    (∀ (n : Nat) (x0 x1 y0 : Int), s.sb[n]? = some x0 → s.sb[n + 1]? = some x1 → l[n]? = some y0 →
      l[n + 1]? = some (amul (x0 + x1 - y0))) ∧
    encode .hpf = 0x64000000#32

/-- R224, R225: the words of HPF.RST and of one HPF.STEP a sample return one by one the samples that
HPF leaves in SB, and leave the same XP, YP and YV. -/
def Obligations.HpfEqualsItsSteps : Prop :=
  ∀ (s t : State) (xs : List (BitVec 24)) (rest : List Input),
    s.sb = xs.map BitVec.toInt → exec .hpf s = .next t →
    s.inputs = commandInputs (.hpfRst :: xs.map .hpfStep) ++ rest →
    (∀ (k : Nat) (y : Int), t.sb[k]? = some y →
      ∃ u, Host.Core.run core (k + 2) s = .next u ∧ u.result = some (.done y)) ∧
    (∃ u, Host.Core.run core (xs.length + 1) s = .next u ∧ u.xp = t.xp ∧ u.yp = t.yp ∧ u.yv = t.yv ∧
      u.sb = s.sb ∧ u.inputs = rest)

/-- R221: inputs of magnitude at most 32768 give outputs of magnitude below 2860904. -/
def Obligations.FilterOutputIsBounded : Prop :=
  ∀ l : List Int, (∀ x ∈ l, x.natAbs ≤ 32768) →
    ∀ y ∈ filterOut FilterRegs.initial l, y.natAbs < 2860904

/-- R12, R15, R216, R217: `amul(k)` is `trunc(ALPHA*k)` for the real ALPHA, and odd, for every
integer k. -/
def Obligations.AmulIsTheTruncatedProduct : Prop :=
  ∀ k : Int,
    isTrunc (96000 / (96000 + 700 * Real.pi) * (k : ℝ)) (amul k) ∧ amul (-k) = -amul k

/-- R217: the two integer fractions give `amul(k)` on the ranges the spec states, and the first fails
at 317802. -/
def Obligations.AmulStandInFractions : Prop :=
  (∀ k : Nat, k ≤ 317801 → amul k = (k * 145062 / 148385 : Nat)) ∧
  amul 317802 ≠ (317802 * 145062 / 148385 : Nat) ∧
  (∀ k : Nat, k ≤ 3000000 → amul k = (k * 8364529 / 8556139 : Nat))

/-! ## Serialiser (spec/46_wave.md) -/

/-- R236 to R238, R240 to R242: WAV.WR on samples in range, with a willing sink, leaves in OB the
44-byte header and two bytes a sample, which read back as the samples; the file goes to the sink once
and whole; DONE is set; SB is not changed. -/
def Obligations.WavWrWritesTheFile : Prop :=
  ∀ s : State, 2 * s.sb.length ≤ 2 ^ 32 - 37 → fits (44 + 2 * s.sb.length) s.params.obCap = true →
    (∀ x ∈ s.sb, -32768 ≤ x ∧ x ≤ 32767) → s.sinkOk = true →
    ∃ f : List Byte,
      exec .wavWr s = .next (State.present
        { s with
          status := setDone 1#1 s.status, ob := f, sinkFiles := s.sinkFiles ++ [f],
          sinkAnswers := s.sinkAnswers.tail, freeCount := s.freeCount + 1 } f.length) ∧
      f.length = 44 + 2 * s.sb.length ∧
      f.take 4 = [0x52#8, 0x49#8, 0x46#8, 0x46#8] ∧
      leValue ((f.drop 4).take 4) = 36 + 2 * s.sb.length ∧
      (f.drop 8).take 32 =
        [0x57#8, 0x41#8, 0x56#8, 0x45#8, 0x66#8, 0x6D#8, 0x74#8, 0x20#8,
         0x10#8, 0x00#8, 0x00#8, 0x00#8, 0x01#8, 0x00#8, 0x01#8, 0x00#8,
         0x00#8, 0x77#8, 0x01#8, 0x00#8, 0x00#8, 0xEE#8, 0x02#8, 0x00#8,
         0x02#8, 0x00#8, 0x10#8, 0x00#8, 0x64#8, 0x61#8, 0x74#8, 0x61#8] ∧
      leValue ((f.drop 40).take 4) = 2 * s.sb.length ∧
      (∀ (k : Nat) (x : Int), s.sb[k]? = some x →
        ∃ lo hi, f[44 + 2 * k]? = some lo ∧ f[45 + 2 * k]? = some hi ∧ signed16 lo hi = x) ∧
      encode .wavWr = 0x70000000#32

/-- R239, R240, R242, R283, R285, R287: WAV.WR raises RangeError for a sample outside the 16-bit range
before the sink is asked, IOError when the sink refuses, and is refused for a file too long for its
header. -/
def Obligations.WavWrFaults : Prop :=
  ∀ s : State,
    (2 ^ 32 - 37 < 2 * s.sb.length → exec .wavWr s = .refused .fileTooLong) ∧
    (2 * s.sb.length ≤ 2 ^ 32 - 37 → fits (44 + 2 * s.sb.length) s.params.obCap = true →
      ((∃ x ∈ s.sb, x < -32768 ∨ 32767 < x) → exec .wavWr s = .next (s.faultEntry .rangeError)) ∧
      ((∀ x ∈ s.sb, -32768 ≤ x ∧ x ≤ 32767) → s.sinkOk = false →
        exec .wavWr s = .next (s.asked.faultEntry .ioError)))

/-! ## System commands (spec/47_system.md) -/

/-- R251, R253, R254: OP.CLR, LD.NP and LD.INFO, their refusals for size, and their words. -/
def Obligations.OpClrLdNpLdInfo : Prop :=
  ∀ (s : State) (n c : BitVec 8),
    exec .opClr s = .next (State.present { s with opm := [], infom := [], npath := 0 } 0) ∧
    (fits n.toNat s.params.pathMax = true →
      exec (.ldNp n) s = .next (State.present { s with npath := n.toNat } n.toNat)) ∧
    (∀ m, s.params.pathMax = some m → m < n.toNat → exec (.ldNp n) s = .refused (.pathTooLong n.toNat)) ∧
    (fits (s.infom.length + 1) s.params.infoMax = true →
      exec (.ldInfo c) s = .next (State.present { s with infom := s.infom ++ [c] } (s.infom.length + 1))) ∧
    (∀ m, s.params.infoMax = some m → s.infom.length = m → exec (.ldInfo c) s = .refused .infoFull) ∧
    encode .opClr = 0x08000000#32 ∧ encode (.ldNp n) = 0x0A000000#32 ||| n.setWidth 32 ∧
    encode (.ldInfo c) = 0x0B000000#32 ||| c.setWidth 32

/-- R252: LD.CS appends one character to one slot of OPM, in canonical form, every other slot and
everything else unchanged, and returns the slot's new length; a slot that does not exist and a full
string are refused. -/
def Obligations.LdCsAppendsOneCharacter : Prop :=
  ∀ (s : State) (slot c : BitVec 8), s.opm.wf = true →
    (slotExists s.params slot.toNat = true →
      fits ((s.opm.get slot.toNat).length + 1) s.params.csInMax = true →
      ∃ m : Memory,
        exec (.ldCs slot c) s =
          .next (State.present { s with opm := m } ((s.opm.get slot.toNat).length + 1)) ∧
        m.get slot.toNat = s.opm.get slot.toNat ++ [c] ∧
        (∀ k, k ≠ slot.toNat → m.get k = s.opm.get k) ∧ m.wf = true) ∧
    (∀ p, s.params.pathMax = some p → 2 + p ≤ slot.toNat →
      exec (.ldCs slot c) s = .refused (.noSuchSlot slot.toNat)) ∧
    (∀ p, slotExists s.params slot.toNat = true → s.params.csInMax = some p →
      (s.opm.get slot.toNat).length = p → exec (.ldCs slot c) s = .refused (.stringFull slot.toNat)) ∧
    encode (.ldCs slot c) = 0x09000000#32 ||| (slot.setWidth 32 <<< 8) ||| c.setWidth 32

/-- R97, R252: the words of LD.STR, one LD.CS a character, append the text to the slot and change
nothing else of OPM. -/
def Obligations.LdStrLoadsTheText : Prop :=
  ∀ (s : State) (slot : BitVec 8) (text : List Byte) (rest : List Input),
    s.opm.wf = true → slotExists s.params slot.toNat = true →
    fits ((s.opm.get slot.toNat).length + text.length) s.params.csInMax = true →
    s.inputs = commandInputs (text.map fun c => .ldCs slot c) ++ rest →
    ∃ t, Host.Core.run core text.length s = .next t ∧
      t.opm.get slot.toNat = s.opm.get slot.toNat ++ text ∧
      (∀ k, k ≠ slot.toNat → t.opm.get k = s.opm.get k) ∧
      t = { s with opm := t.opm, inputs := rest, result := t.result }

/-- R255: CLR restores the data path and STATUS and keeps the operands. -/
def Obligations.ClrRestoresTheDataPath : Prop :=
  ∀ s : State,
    exec .clr s = .next (State.present
      { s with
        crc := 0xFFFF#16, nrz := 1#1, ph := ⟨0, by decide⟩, xp := 0, yp := 0, yv := 0#1,
        fb := [], bb := [], sb := [], ob := [], status := 0#8 } 0) ∧
    encode .clr = 0x01000000#32

/-- R256 with R21, R28, R29, R31, R33: RD returns each register by its number, changes nothing else,
and is refused for a reserved number. -/
def Obligations.RdReturnsTheRegister : Prop :=
  ∀ s : State,
    exec (.rd 0#8) s = .next (s.present s.crc.toNat) ∧
    exec (.rd 1#8) s = .next (s.present s.nrz.toNat) ∧
    exec (.rd 2#8) s = .next (s.present s.ph.val) ∧
    exec (.rd 3#8) s = .next (s.present s.xp) ∧
    exec (.rd 4#8) s = .next (s.present s.yp) ∧
    exec (.rd 5#8) s = .next (s.present s.yv.toNat) ∧
    exec (.rd 7#8) s = .next (s.present s.status.toNat) ∧
    exec (.rd 8#8) s = .next (s.present s.fb.length) ∧
    exec (.rd 9#8) s = .next (s.present s.bb.length) ∧
    exec (.rd 10#8) s = .next (s.present s.sb.length) ∧
    exec (.rd 11#8) s = .next (s.present s.ob.length) ∧
    exec (.rd 12#8) s = .next (s.present s.npath) ∧
    exec (.rd 13#8) s = .next (s.present s.infom.length) ∧
    exec (.rd 14#8) s = .next (s.present (s.opm.get 0).length) ∧
    exec (.rd 15#8) s = .next (s.present (s.opm.get 1).length) ∧
    (∀ (r : BitVec 8) (v : Nat),
      [96000, 300, 320, 1800, 1600, 50, 32767, 32, 0x7E, 0x03, 0xF0, 0x8408, 0xFFFF, 0xFFFF,
        6, 0x20, 0x60, 0x01, 0, 1, 1, 350][r.toNat - 32]? = some v → 32 ≤ r.toNat →
      exec (.rd r) s = .next (s.present v)) ∧
    (∀ r : BitVec 8, (r.toNat = 6 ∨ (16 ≤ r.toNat ∧ r.toNat ≤ 31) ∨ 54 ≤ r.toNat) →
      exec (.rd r) s = .refused (.reservedRegister r)) ∧
    (∀ r : BitVec 8, encode (.rd r) = 0x02000000#32 ||| r.setWidth 32)

/-- R257: MRD returns the element of each space below its length and, in OPM, a slot's character or at
offset 0xFF its length; at or beyond a length, for a slot that does not exist and for selectors 6 and
7 it is refused. -/
def Obligations.MrdReturnsTheElement : Prop :=
  ∀ (s : State) (idx : BitVec 21),
    (∀ b, s.fb[idx.toNat]? = some b → exec (.mrd 0#3 idx) s = .next (s.present b.toNat)) ∧
    (∀ b, s.bb[idx.toNat]? = some b → exec (.mrd 1#3 idx) s = .next (s.present b.toNat)) ∧
    (∀ x, s.sb[idx.toNat]? = some x → exec (.mrd 2#3 idx) s = .next (s.present x)) ∧
    (∀ b, s.ob[idx.toNat]? = some b → exec (.mrd 3#3 idx) s = .next (s.present b.toNat)) ∧
    (∀ b, s.infom[idx.toNat]? = some b → exec (.mrd 4#3 idx) s = .next (s.present b.toNat)) ∧
    (∀ b, slotExists s.params (idx.toNat / 256) = true → idx.toNat % 256 ≠ 0xFF →
      (s.opm.get (idx.toNat / 256))[idx.toNat % 256]? = some b →
      exec (.mrd 5#3 idx) s = .next (s.present b.toNat)) ∧
    (slotExists s.params (idx.toNat / 256) = true → idx.toNat % 256 = 0xFF →
      exec (.mrd 5#3 idx) s = .next (s.present (s.opm.get (idx.toNat / 256)).length)) ∧
    (s.fb.length ≤ idx.toNat → exec (.mrd 0#3 idx) s = .refused (.noSuchElement idx.toNat)) ∧
    (s.bb.length ≤ idx.toNat → exec (.mrd 1#3 idx) s = .refused (.noSuchElement idx.toNat)) ∧
    (s.sb.length ≤ idx.toNat → exec (.mrd 2#3 idx) s = .refused (.noSuchElement idx.toNat)) ∧
    (s.ob.length ≤ idx.toNat → exec (.mrd 3#3 idx) s = .refused (.noSuchElement idx.toNat)) ∧
    (s.infom.length ≤ idx.toNat → exec (.mrd 4#3 idx) s = .refused (.noSuchElement idx.toNat)) ∧
    (slotExists s.params (idx.toNat / 256) = true → idx.toNat % 256 ≠ 0xFF →
      (s.opm.get (idx.toNat / 256)).length ≤ idx.toNat % 256 →
      exec (.mrd 5#3 idx) s = .refused (.noSuchElement (idx.toNat % 256))) ∧
    (slotExists s.params (idx.toNat / 256) = false →
      exec (.mrd 5#3 idx) s = .refused (.noSuchSlot (idx.toNat / 256))) ∧
    exec (.mrd 6#3 idx) s = .refused (.reservedSpace 6#3) ∧
    exec (.mrd 7#3 idx) s = .refused (.reservedSpace 7#3) ∧
    (∀ sp : BitVec 3,
      encode (.mrd sp idx) = 0x03000000#32 ||| (sp.setWidth 32 <<< 21) ||| idx.setWidth 32)

/-- R72: RD and MRD change nothing but the result presented, and repeated at once return the same. -/
def Obligations.ReadsChangeNothing : Prop :=
  ∀ (i : Instr) (s t : State),
    ((∃ r, i = .rd r) ∨ (∃ sp idx, i = .mrd sp idx)) → exec i s = .next t →
    (∃ v, t = s.present v) ∧ exec i t = .next t

/-! ## The whole transmission -/

/-- R199, R242, R262: ENCODE on ASCII operands with a willing sink ends done with every buffer the
composition of the stages, the registers as the last stage that wrote them left them, ERR 0 and DONE 1,
and returns the file's length; the operands are unchanged. -/
def Obligations.EncodeBuildsTheWholeTransmission : Prop :=
  ∀ s : State,
    fits (51 + 7 * s.npath + s.infom.length) s.params.fbCap = true → operandsAscii s →
    640 * (474 + 56 * s.npath + 8 * s.infom.length) ≤ 2 ^ 32 - 37 → s.sinkOk = true →
    let frame := framed (packet s)
    let normal := normalise (afskSamples ⟨0, by decide⟩ (bitSequence frame))
    let out := filterOut FilterRegs.initial normal
    exec .encode s = .next (State.present
      { s with
        crc := crcRun 0xFFFF#16 (checkedBytes s), nrz := (encodedBits frame).2,
        ph := afskPhase ⟨0, by decide⟩ (bitSequence frame),
        xp := normal.getLastD 0, yp := out.getLastD 0, yv := 1#1, status := 8#8,
        fb := frame, bb := bitSequence frame, sb := out, ob := waveFile out,
        sinkFiles := s.sinkFiles ++ [waveFile out], sinkAnswers := s.sinkAnswers.tail,
        freeCount := s.freeCount + 1 }
      ((44 + 640 * (474 + 56 * s.npath + 8 * s.infom.length) : Nat) : Int))

/-- R262, R287: ENCODE raises EncodingError for operands that are not ASCII, whatever the sink; else
IOError when the sink refuses. R66, R242 through R262: it is refused when the frame would not fit FB,
and on ASCII operands when the file would be too long for its header. That the EncodingError comes
before that last refusal, and after the first, is the model's reading (log entries 15 and 6). -/
def Obligations.EncodeFaults : Prop :=
  ∀ s : State,
    (fits (51 + 7 * s.npath + s.infom.length) s.params.fbCap = false →
      exec .encode s = .refused .bufferFull) ∧
    (fits (51 + 7 * s.npath + s.infom.length) s.params.fbCap = true →
      (¬operandsAscii s →
        exec .encode s = .next (State.faultEntry { s with status := 0#8 } .encodingError)) ∧
      (operandsAscii s → 2 ^ 32 - 37 < 640 * (474 + 56 * s.npath + 8 * s.infom.length) →
        exec .encode s = .refused .fileTooLong) ∧
      (operandsAscii s → 640 * (474 + 56 * s.npath + 8 * s.infom.length) ≤ 2 ^ 32 - 37 →
        s.sinkOk = false →
        exec .encode s = .next (State.faultEntry { s.asked with status := 0#8 } .ioError)))

/-- R221, R262 leave open whether ENCODE can raise RangeError: it cannot, whatever the operands, since
the filter's output on a phase-continuous tone sequence at full scale stays in the 16-bit range. -/
def Obligations.EncodeNeverRaisesRangeError : Prop :=
  (∀ (s t : State) (v : Int), exec .encode s = .next t → t.result ≠ some (.fault .rangeError v)) ∧
  (∀ bytes : List Byte, ∀ y ∈ filterOut FilterRegs.initial
    (normalise (afskSamples ⟨0, by decide⟩ (bitSequence bytes))), -32767 ≤ y ∧ y ≤ 32767)

/-- R97, R262: ENCODE is the sequence CLR, FRM.BUILD, BIT.ENC, AFSK.MOD, NORM, HPF, WAV.WR, each
ending done but perhaps the last, whose outcome is ENCODE's; when FRM.BUILD faults its outcome is
ENCODE's. -/
def Obligations.EncodeEqualsTheCommandSequence : Prop :=
  ∀ s t1 t2 : State, exec .clr s = .next t1 → exec .frmBuild t1 = .next t2 →
    (operandsAscii s → ∀ t3 t4 t5 t6 t7 : State,
      exec .bitEnc t2 = .next t3 → exec .afskMod t3 = .next t4 → exec .norm t4 = .next t5 →
      exec .hpf t5 = .next t6 → exec .wavWr t6 = .next t7 → exec .encode s = .next t7) ∧
    (¬operandsAscii s → exec .encode s = .next t2)

/-- R37, R263: the outcome of ENCODE and every piece of the data path after it depend on the operands
in use and on SINK_OK alone (for one block, that is for equal size parameters), and the sink is given
the same file. -/
def Obligations.EncodeDependsOnItsOperandsOnly : Prop :=
  ∀ s t : State, sameOperands s t → s.params = t.params → s.sinkOk = t.sinkOk →
    (∀ a, exec .encode s = .next a →
      ∃ b d, exec .encode t = .next b ∧ sameDataPath a b ∧ sameOutcome a.result b.result ∧
        a.sinkFiles = s.sinkFiles ++ d ∧ b.sinkFiles = t.sinkFiles ++ d) ∧
    (∀ r, exec .encode s = .refused r → exec .encode t = .refused r)

/-! ## Faults and whole-machine rules (spec/60_exceptions.md) -/

/-- R284, R286, R288: whatever command ends in a fault, the data path is as CLR leaves it, DONE is 0,
ERR is the cause, the operands are kept and nothing is sent to the sink. -/
def Obligations.FaultEntryState : Prop :=
  ∀ (i : Instr) (s t : State) (c : Cause) (v : Int),
    exec i s = .next t → t.result = some (.fault c v) →
    t.crc = 0xFFFF#16 ∧ t.nrz = 1#1 ∧ t.ph.val = 0 ∧ t.xp = 0 ∧ t.yp = 0 ∧ t.yv = 0#1 ∧
    t.fb = [] ∧ t.bb = [] ∧ t.sb = [] ∧ t.ob = [] ∧
    statusDone t.status = 0#1 ∧ statusErr t.status = c.code ∧
    t.opm = s.opm ∧ t.infom = s.infom ∧ t.npath = s.npath ∧ t.sinkFiles = s.sinkFiles

/-- R280: only ADDR.ENC, FRM.BUILD, ENCODE and WAV.WR can fault, each with its own causes. -/
def Obligations.OnlyFourCommandsFault : Prop :=
  ∀ (i : Instr) (s t : State) (c : Cause) (v : Int),
    exec i s = .next t → t.result = some (.fault c v) →
    (c = .encodingError ∧ ((∃ slot ssid, i = .addrEnc slot ssid) ∨ i = .frmBuild ∨ i = .encode)) ∨
    (c = .valueError ∧ ∃ slot ssid, i = .addrEnc slot ssid) ∨
    (c = .ioError ∧ (i = .wavWr ∨ i = .encode)) ∨
    (c = .rangeError ∧ (i = .wavWr ∨ i = .encode))

/-- R32, R289: STATUS is a record: what it holds changes no outcome and no other state of any command
but RD of STATUS itself. -/
def Obligations.StatusBlocksNothing : Prop :=
  ∀ (i : Instr) (s : State) (st : BitVec 8), i ≠ .rd 7#8 →
    (∀ t, exec i s = .next t → ∃ st', exec i { s with status := st } = .next { t with status := st' }) ∧
    (∀ r, exec i s = .refused r → exec i { s with status := st } = .refused r)

/-- R67, R240, R323: the sink is given a file only by a WAV.WR or ENCODE that ends done, once, whole,
equal to OB, with DONE set; every other command and every fault leaves the sink alone. -/
def Obligations.OutputIsAllOrNothing : Prop :=
  ∀ (i : Instr) (s t : State), exec i s = .next t →
    t.sinkFiles = s.sinkFiles ∨
    (t.sinkFiles = s.sinkFiles ++ [t.ob] ∧ IsWholeFile t.ob ∧ statusDone t.status = 1#1 ∧
      (i = .wavWr ∨ i = .encode) ∧ t.result = some (.done t.ob.length))

/-- R38, R80, R269: the operands are changed only by OP.CLR, LD.CS, LD.NP and LD.INFO; OB only by
WAV.WR, ENCODE, CLR and a fault; the size parameters and what the host has queued by nothing. -/
def Obligations.OnlyTheirOwnersChangeOperandsAndOutput : Prop :=
  ∀ (i : Instr) (s t : State), exec i s = .next t →
    ((i ≠ .opClr ∧ (∀ slot c, i ≠ .ldCs slot c) ∧ (∀ n, i ≠ .ldNp n) ∧ (∀ c, i ≠ .ldInfo c)) →
      t.opm = s.opm ∧ t.infom = s.infom ∧ t.npath = s.npath) ∧
    (t.ob = s.ob ∨ i = .wavWr ∨ i = .encode ∨ i = .clr ∨ ∃ c v, t.result = some (.fault c v)) ∧
    t.params = s.params ∧ t.inputs = s.inputs

/-- R19, R39, R90: every command that goes on presents an outcome of its own, and what the result port
held before is read by none. -/
def Obligations.EveryCommandPresentsItsOutcome : Prop :=
  ∀ (i : Instr) (s : State) (r : Option Result),
    exec i { s with result := r } = exec i s ∧
    (∀ t, exec i s = .next t → ∃ o, t.result = some o)
end

