-- ==== Sys2Proof/Laws/Sine.lean ====
section
/-! SUPPORT. The sample function against the real sine (spec/44_tone.md R188, R190): bounds of the
sine by its Taylor sums, the distance of every exact sample value from the next integer, and so the
truncated real value on the first quarter turn. -/

namespace Sys2Proof.Machine

/-- A function that is 0 at 0 and has a nonnegative derivative to the right of 0 is nonnegative there. -/
theorem nonneg_of_deriv_nonneg {f f' : ℝ → ℝ} (hd : ∀ x, HasDerivAt f (f' x) x) (h0 : f 0 = 0)
    (hn : ∀ x, 0 ≤ x → 0 ≤ f' x) {x : ℝ} (hx : 0 ≤ x) : 0 ≤ f x := by
  have hm : MonotoneOn f (Set.Ici 0) := by
    apply monotoneOn_of_deriv_nonneg (convex_Ici 0)
    · exact fun y _ => (hd y).continuousAt.continuousWithinAt
    · exact fun y _ => (hd y).differentiableAt.differentiableWithinAt
    · intro y hy
      rw [(hd y).deriv]
      exact hn y (interior_subset hy)
  have := hm (Set.mem_Ici.2 le_rfl) (Set.mem_Ici.2 hx) hx
  rwa [h0] at this

/-- The sine's Taylor sum of `n` terms. -/
noncomputable def sineSum (n : Nat) (x : ℝ) : ℝ :=
  ∑ i ∈ Finset.range n, (-1) ^ i * x ^ (2 * i + 1) / (2 * i + 1).factorial

/-- The cosine's Taylor sum of `n` terms. -/
noncomputable def cosineSum (n : Nat) (x : ℝ) : ℝ :=
  ∑ i ∈ Finset.range n, (-1) ^ i * x ^ (2 * i) / (2 * i).factorial

theorem sineSum_deriv (n : Nat) (x : ℝ) : HasDerivAt (sineSum n) (cosineSum n x) x := by
  unfold sineSum cosineSum
  refine HasDerivAt.fun_sum fun i _ => ?_
  have h := (((hasDerivAt_pow (2 * i + 1) x).const_mul ((-1 : ℝ) ^ i)).div_const ((2 * i + 1).factorial : ℝ))
  refine h.congr_deriv ?_
  have : ((2 * i + 1).factorial : ℝ) = (2 * i + 1 : ℕ) * (2 * i).factorial := by
    rw [Nat.factorial_succ]; push_cast; ring
  have h1 : ((2 * i).factorial : ℝ) ≠ 0 := by positivity
  have h2 : ((2 * i + 1 : ℕ) : ℝ) ≠ 0 := by positivity
  rw [this]
  field_simp
  simp

theorem cosineSum_deriv (n : Nat) (x : ℝ) : HasDerivAt (cosineSum (n + 1)) (-sineSum n x) x := by
  unfold cosineSum sineSum
  have hs : (fun x : ℝ => ∑ i ∈ Finset.range (n + 1), (-1) ^ i * x ^ (2 * i) / ((2 * i).factorial : ℝ)) =
      fun x => ∑ i ∈ Finset.range n, (-1) ^ (i + 1) * x ^ (2 * i + 2) / ((2 * i + 2).factorial : ℝ) + 1 := by
    funext y
    rw [Finset.sum_range_succ']
    simp [Nat.mul_add]
  rw [hs, ← Finset.sum_neg_distrib]
  refine (HasDerivAt.fun_sum fun i _ => ?_).add_const 1
  have h := (((hasDerivAt_pow (2 * i + 2) x).const_mul ((-1 : ℝ) ^ (i + 1))).div_const ((2 * i + 2).factorial : ℝ))
  refine h.congr_deriv ?_
  have : ((2 * i + 2).factorial : ℝ) = (2 * i + 2 : ℕ) * (2 * i + 1).factorial := by
    rw [Nat.factorial_succ (2 * i + 1)]; push_cast; ring
  have h1 : ((2 * i + 1).factorial : ℝ) ≠ 0 := by positivity
  have h2 : ((2 * i + 2 : ℕ) : ℝ) ≠ 0 := by positivity
  rw [this]
  field_simp
  simp [pow_succ]

theorem taylor_signs (n : Nat) : (∀ x : ℝ, 0 ≤ x → 0 ≤ (-1) ^ (n + 1) * (Real.cos x - cosineSum (n + 1) x)) ∧
    (∀ x : ℝ, 0 ≤ x → 0 ≤ (-1) ^ (n + 1) * (Real.sin x - sineSum (n + 1) x)) := by
  have key : ∀ m, (∀ x : ℝ, 0 ≤ x → 0 ≤ (-1) ^ m * (Real.cos x - cosineSum m x)) →
      ∀ x : ℝ, 0 ≤ x → 0 ≤ (-1) ^ m * (Real.sin x - sineSum m x) := fun m h x hx =>
    nonneg_of_deriv_nonneg (fun y => ((Real.hasDerivAt_sin y).sub (sineSum_deriv m y)).const_mul ((-1 : ℝ) ^ m))
      (by simp [sineSum]) h hx
  induction n with
  | zero =>
    have h : ∀ x : ℝ, 0 ≤ x → 0 ≤ (-1) ^ 1 * (Real.cos x - cosineSum 1 x) := fun x _ => by
      simp [cosineSum, Real.cos_le_one]
    exact ⟨h, key 1 h⟩
  | succ n ih =>
    have h : ∀ x : ℝ, 0 ≤ x → 0 ≤ (-1) ^ (n + 2) * (Real.cos x - cosineSum (n + 2) x) := fun x hx =>
      nonneg_of_deriv_nonneg
        (fun y => ((Real.hasDerivAt_cos y).sub (cosineSum_deriv (n + 1) y)).const_mul ((-1 : ℝ) ^ (n + 2)))
        (by simp [cosineSum, Finset.sum_range_succ'])
        (fun y hy => by
          have := ih.2 y hy
          have e : (-1 : ℝ) ^ (n + 2) * (-Real.sin y - -sineSum (n + 1) y) =
            (-1) ^ (n + 1) * (Real.sin y - sineSum (n + 1) y) := by rw [pow_succ]; ring
          rw [e]; exact this) hx
    exact ⟨h, key (n + 2) h⟩

theorem sineSum_le_sin {x : ℝ} (hx : 0 ≤ x) : sineSum 8 x ≤ Real.sin x := by
  have := (taylor_signs 7).2 x hx
  norm_num at this; linarith
theorem sin_le_sineSum {x : ℝ} (hx : 0 ≤ x) : Real.sin x ≤ sineSum 8 x + x ^ 17 / 355687428096000 := by
  have := (taylor_signs 8).2 x hx
  rw [sineSum, Finset.sum_range_succ, ← sineSum] at this
  norm_num [Nat.factorial] at this ⊢; linarith
theorem sineNum_div (a b : Int) (hb : b ≠ 0) : (sineNum a b : ℝ) / (sineDen b : ℝ) = sineSum 8 ((a : ℝ) / b) := by
  have hb' : (b : ℝ) ≠ 0 := by exact_mod_cast hb
  simp only [sineNum, sineDen, sineSum, Finset.sum_range_succ, Finset.sum_range_zero]
  push_cast
  norm_num [Nat.factorial]
  field_simp
  ring

/-! ## The distance of the exact values from the integers -/

/-- `c - q * e` of natural numbers, exact while `q * e` is within `c`. -/
theorem cast_step {q e c m n : Nat} (hq : q ≤ m) (he : e ≤ n) (hc : m * n ≤ c) :
    ((c - q * e : Nat) : Int) = c - q * e ∧ c - q * e ≤ c :=
  ⟨by rw [Nat.cast_sub ((Nat.mul_le_mul hq he).trans hc)]; push_cast; rfl, Nat.sub_le _ _⟩

/-- `sineNum` in natural numbers, for `a` up to `2 * b`, with `q = a * a` and the powers of `b`
scaled. -/
def sineNat (a c0 c2 c4 c6 c8 c10 c12 : Nat) : Nat :=
  a * (c0 - a * a * (c2 - a * a * (c4 - a * a * (c6 - a * a * (c8 - a * a * (c10 - a * a * (c12 - a * a)))))))

/-- `sineNat` with the coefficients of `sineNum`. -/
def sineNatAt (a b : Nat) : Nat :=
  sineNat a (1307674368000 * b ^ 14) (217945728000 * b ^ 12) (10897286400 * b ^ 10)
    (259459200 * b ^ 8) (3603600 * b ^ 6) (32760 * b ^ 4) (210 * b ^ 2)

theorem sineNatAt_eq (a b : Nat) (h : a ≤ 2 * b) : (sineNatAt a b : Int) = sineNum a b := by
  have hq : a * a ≤ 4 * b ^ 2 := (Nat.mul_le_mul h h).trans (by nlinarith)
  obtain ⟨e1, l1⟩ := cast_step (e := 1) (c := 210 * b ^ 2) hq le_rfl (by omega)
  obtain ⟨e2, l2⟩ := cast_step (c := 32760 * b ^ 4) hq l1 (by ring_nf; omega)
  obtain ⟨e3, l3⟩ := cast_step (c := 3603600 * b ^ 6) hq l2 (by ring_nf; omega)
  obtain ⟨e4, l4⟩ := cast_step (c := 259459200 * b ^ 8) hq l3 (by ring_nf; omega)
  obtain ⟨e5, l5⟩ := cast_step (c := 10897286400 * b ^ 10) hq l4 (by ring_nf; omega)
  obtain ⟨e6, l6⟩ := cast_step (c := 217945728000 * b ^ 12) hq l5 (by ring_nf; omega)
  obtain ⟨e7, -⟩ := cast_step (c := 1307674368000 * b ^ 14) hq l6 (by ring_nf; omega)
  rw [Nat.mul_one] at *
  unfold sineNatAt sineNat sineNum
  rw [Nat.cast_mul, e7, e6, e5, e4, e3, e2, e1]
  push_cast
  ring

/-- The sample function's exact value at `k`, before truncation, is at least 10^-8 below the next
integer. -/
def sineGapOk (k : Nat) : Bool :=
  Nat.ble ((32767 * sineNatAt (k * piDigits) (48000 * 10 ^ 20)) %
      (50 * (1307674368000 * (48000 * 10 ^ 20) ^ 15)) * 100000000 +
    50 * (1307674368000 * (48000 * 10 ^ 20) ^ 15)) (50 * (1307674368000 * (48000 * 10 ^ 20) ^ 15) * 100000000)

/-- `sineGapOk` from `k` on, `n` times. -/
def sineGapsOk : Nat → Nat → Bool
  | _, 0 => true
  | k, n + 1 => sineGapOk k && sineGapsOk (k + 1) n

theorem sineGapsOk_mem (k n : Nat) (h : sineGapsOk k n = true) (j : Nat) (h1 : k ≤ j) (h2 : j < k + n) : sineGapOk j = true := by
  induction n generalizing k with
  | zero => omega
  | succ n ih =>
    simp only [sineGapsOk, Bool.and_eq_true] at h
    rcases Nat.eq_or_lt_of_le h1 with rfl | h1
    · exact h.1
    · exact ih (k + 1) h.2 h1 (by omega)

theorem sineGaps_low : sineGapsOk 0 6000 = true := by decide +kernel
theorem sineGaps_lowMid : sineGapsOk 6000 6000 = true := by decide +kernel
theorem sineGaps_highMid : sineGapsOk 12000 6000 = true := by decide +kernel
theorem sineGaps_high : sineGapsOk 18000 6001 = true := by decide +kernel

theorem sineGapOk_of_le {k : Nat} (h : k ≤ 24000) : sineGapOk k = true := by
  by_cases h1 : k < 6000
  · exact sineGapsOk_mem 0 6000 sineGaps_low k (Nat.zero_le k) (by omega)
  by_cases h2 : k < 12000
  · exact sineGapsOk_mem 6000 6000 sineGaps_lowMid k (by omega) (by omega)
  by_cases h3 : k < 18000
  · exact sineGapsOk_mem 12000 6000 sineGaps_highMid k (by omega) (by omega)
  · exact sineGapsOk_mem 18000 6001 sineGaps_high k (by omega) (by omega)

/-- The exact value of the Taylor polynomial lies between `quarterSample k` and one more, less 10^-8. -/
theorem quarterSample_poly {k : Nat} (h : k ≤ 24000) :
    (quarterSample k : ℝ) ≤ 32767 / 50 * sineSum 8 (k * piDigits / (48000 * 10 ^ 20)) ∧
      32767 / 50 * sineSum 8 (k * piDigits / (48000 * 10 ^ 20)) + 1 / 10 ^ 8 ≤ quarterSample k + 1 := by
  have hgap := sineGapOk_of_le h
  have hle : k * piDigits ≤ 2 * (48000 * 10 ^ 20) :=
    (Nat.mul_le_mul_right _ h).trans (by decide)
  have hN := sineNatAt_eq _ _ hle
  generalize hn : sineNatAt (k * piDigits) (48000 * 10 ^ 20) = N at hN
  have hD : sineDen (48000 * 10 ^ 20) = ((1307674368000 * (48000 * 10 ^ 20) ^ 15 : Nat) : Int) := by
    unfold sineDen
    norm_num
  generalize hd : 1307674368000 * (48000 * 10 ^ 20) ^ 15 = D at hD
  have hDpos : 0 < D := by rw [← hd]; positivity
  have hq : quarterSample k = ((32767 * N / (50 * D) : Nat) : Int) := by
    unfold quarterSample
    have hN' : sineNum (↑k * ↑piDigits) (48000 * 10 ^ 20) = N := by rw [hN]; push_cast; rfl
    rw [hN', hD]
    simp [cfg]
  have hS : sineSum 8 (k * piDigits / (48000 * 10 ^ 20)) = (N : ℝ) / D := by
    have h1 := sineNum_div (k * piDigits) (48000 * 10 ^ 20) (by norm_num)
    have hN' : sineNum (↑k * ↑piDigits) (48000 * 10 ^ 20) = N := by rw [hN]; push_cast; rfl
    rw [hN', hD] at h1
    push_cast at h1 ⊢
    norm_num at h1 ⊢
    exact h1.symm
  simp only [sineGapOk, hn, hd] at hgap
  have hgap := Nat.le_of_ble_eq_true hgap
  have hdiv := Nat.div_add_mod (32767 * N) (50 * D)
  generalize 32767 * N / (50 * D) = Q at *
  generalize 32767 * N % (50 * D) = R at *
  have hdiv' : (50 * (D : ℝ)) * Q + R = 32767 * N := by exact_mod_cast hdiv
  have hgap' : (R : ℝ) * 100000000 + 50 * D ≤ 50 * D * 100000000 := by exact_mod_cast hgap
  have hD' : (0 : ℝ) < D := by exact_mod_cast hDpos
  have hR : (0 : ℝ) ≤ R := by positivity
  have he : 32767 / 50 * ((N : ℝ) / D) = Q + R / (50 * D) := by
    field_simp
    linarith
  rw [hq, hS, he]
  push_cast
  have h0 : 0 ≤ (R : ℝ) / (50 * D) := by positivity
  have h1 : (R : ℝ) / (50 * D) ≤ 1 - 1 / 10 ^ 8 := by
    rw [div_le_iff₀ (by positivity)]
    norm_num
    linarith
  constructor <;> linarith

/-- The sample function on the first quarter turn is the truncated real value. -/
theorem quarterSample_sine {k : Nat} (h : k ≤ 24000) :
    (quarterSample k : ℝ) ≤ 32767 / 50 * Real.sin (2 * Real.pi * k / 96000) ∧
      32767 / 50 * Real.sin (2 * Real.pi * k / 96000) < quarterSample k + 1 := by
  obtain ⟨h1, h2⟩ := quarterSample_poly h
  have hk : (k : ℝ) ≤ 24000 := by exact_mod_cast h
  have hk0 : (0 : ℝ) ≤ k := by positivity
  have hp1 := Real.pi_gt_d20
  have hp2 := Real.pi_lt_d20
  set y : ℝ := k * piDigits / (48000 * 10 ^ 20) with hy
  have hy0 : 0 ≤ y := by positivity
  have hpd : (piDigits : ℝ) = 314159265358979323846 := by norm_num [piDigits]
  have hyv : y = k * (3.14159265358979323846 / 48000) := by
    rw [hy, hpd]; ring
  have hx : 2 * Real.pi * k / 96000 = k * (Real.pi / 48000) := by ring
  have hyx : y ≤ 2 * Real.pi * k / 96000 := by
    rw [hx, hyv]
    exact mul_le_mul_of_nonneg_left (by linarith) hk0
  have hd : 2 * Real.pi * k / 96000 - y ≤ 1 / 10 ^ 15 := by
    have : 2 * Real.pi * k / 96000 - y = k * ((Real.pi - 3.14159265358979323846) / 48000) := by
      rw [hx, hyv]; ring
    rw [this]
    have h3 : (Real.pi - 3.14159265358979323846) / 48000 ≤ 1 / 10 ^ 20 := by
      rw [div_le_iff₀ (by norm_num)]; norm_num; linarith
    calc (k : ℝ) * ((Real.pi - 3.14159265358979323846) / 48000) ≤ 24000 * (1 / 10 ^ 20) :=
          mul_le_mul hk h3 (by apply div_nonneg <;> linarith) (by norm_num)
      _ ≤ 1 / 10 ^ 15 := by norm_num
  have hxp : 2 * Real.pi * k / 96000 ≤ Real.pi / 2 := by
    rw [hx]; nlinarith [Real.pi_pos]
  have hyb : y ≤ 1.5708 := by linarith
  have hmono : Real.sin y ≤ Real.sin (2 * Real.pi * k / 96000) :=
    Real.sin_le_sin_of_le_of_le_pi_div_two (by linarith [Real.pi_pos]) hxp hyx
  have hlip : Real.sin (2 * Real.pi * k / 96000) ≤ Real.sin y + (2 * Real.pi * k / 96000 - y) := by
    have := Real.abs_sin_sub_sin_le (2 * Real.pi * k / 96000) y
    have h4 := le_of_abs_le this
    rw [abs_of_nonneg (by linarith)] at h4
    linarith
  have hlow := sineSum_le_sin hy0
  have hhigh := sin_le_sineSum hy0
  have hrem : y ^ 17 / 355687428096000 ≤ 1 / 10 ^ 11 := by
    have : y ^ 17 ≤ 1.5708 ^ 17 := pow_le_pow_left₀ hy0 hyb 17
    calc y ^ 17 / 355687428096000 ≤ 1.5708 ^ 17 / 355687428096000 := by gcongr
      _ ≤ 1 / 10 ^ 11 := by norm_num
  constructor
  · linarith
  · have h5 : Real.sin (2 * Real.pi * k / 96000) ≤ sineSum 8 y + 1 / 10 ^ 11 + 1 / 10 ^ 15 := by linarith
    have h6 : (32767 : ℝ) / 50 * (1 / 10 ^ 11 + 1 / 10 ^ 15) < 1 / 10 ^ 8 := by norm_num
    nlinarith

end Sys2Proof.Machine
end

