-- ==== Sys2Proof/Laws/Alpha.lean ====
section
/-! SUPPORT. The filter coefficient ALPHA against its printed digits (spec/45_postprocess.md R216,
R217): pi to 65 digits by Machin's formula, ALPHA between `alphaDigits` and one more over 10^60,
those digits settling every floor of `ALPHA*k` for `k` up to 10^30, the rational bounds of every
precision, and so `amulNat k` the floor of `ALPHA*k` for every `k`. -/

namespace Sys2Proof.Machine

/-! ## The arctangent's Taylor sums -/

/-- The arctangent's Taylor sum of `n` terms. -/
noncomputable def arctanSum (n : Nat) (x : ℝ) : ℝ :=
  ∑ i ∈ Finset.range n, (-1) ^ i * x ^ (2 * i + 1) / (2 * i + 1 : ℕ)

theorem arctanSum_deriv (n : Nat) (x : ℝ) :
    HasDerivAt (arctanSum n) (∑ i ∈ Finset.range n, (-(x ^ 2)) ^ i) x := by
  unfold arctanSum
  refine HasDerivAt.fun_sum fun i _ => ?_
  have h := ((hasDerivAt_pow (2 * i + 1) x).const_mul ((-1 : ℝ) ^ i)).div_const ((2 * i + 1 : ℕ) : ℝ)
  refine h.congr_deriv ?_
  have h2 : ((2 * i + 1 : ℕ) : ℝ) ≠ 0 := by positivity
  rw [neg_pow (x ^ 2), Nat.add_sub_cancel, ← pow_mul]
  field_simp

/-- The sums lie alternately above and below the arctangent. -/
theorem arctan_signs (n : Nat) {x : ℝ} (hx : 0 ≤ x) : 0 ≤ (-1) ^ n * (Real.arctan x - arctanSum n x) := by
  refine nonneg_of_deriv_nonneg (f := fun y => (-1) ^ n * (Real.arctan y - arctanSum n y))
    (fun y => ((Real.hasDerivAt_arctan y).sub (arctanSum_deriv n y)).const_mul ((-1 : ℝ) ^ n))
    (by simp [arctanSum]) (fun y _ => ?_) hx
  have hpos : (0 : ℝ) < 1 + y ^ 2 := by positivity
  have hg : (∑ i ∈ Finset.range n, (-(y ^ 2)) ^ i) * (1 + y ^ 2) = 1 - (-(y ^ 2)) ^ n := by
    have := geom_sum_mul (-(y ^ 2)) n
    linarith
  have hs : (∑ i ∈ Finset.range n, (-(y ^ 2)) ^ i) = (1 - (-(y ^ 2)) ^ n) / (1 + y ^ 2) := by
    rw [eq_div_iff hpos.ne', hg]
  rw [hs, ← sub_div, sub_sub_cancel, neg_pow (y ^ 2), ← mul_div_assoc, ← mul_assoc, ← mul_pow]
  have : ((-1 : ℝ) * -1) ^ n = 1 := by norm_num
  rw [this, one_mul]
  positivity

/-! ## Pi to 64 decimals -/

theorem pi_digits : (3.1415926535897932384626433832795028841971693993751058209749445923 : ℝ) < Real.pi ∧
    Real.pi < 3.1415926535897932384626433832795028841971693993751058209749445924 := by
  have hm := Real.four_mul_arctan_inv_5_sub_arctan_inv_239
  have a1 := arctan_signs 46 (x := 5⁻¹) (by norm_num)
  have a2 := arctan_signs 47 (x := 5⁻¹) (by norm_num)
  have b1 := arctan_signs 14 (x := 239⁻¹) (by norm_num)
  have b2 := arctan_signs 15 (x := 239⁻¹) (by norm_num)
  simp only [arctanSum, Finset.sum_range_succ, Finset.sum_range_zero] at a1 a2 b1 b2
  norm_num at a1 a2 b1 b2
  constructor <;> linarith

/-! ## The coefficient -/

/-- ALPHA = 96000 / (96000 + 700*pi) (spec/00_scope.md R12). -/
noncomputable def alpha : ℝ := 96000 / (96000 + 700 * Real.pi)

theorem alpha_pos : 0 < alpha := by
  have := Real.pi_pos
  unfold alpha
  positivity

/-- ALPHA lies strictly between the printed digits and one more. -/
theorem alpha_digits : (alphaDigits : ℝ) < alpha * alphaScale ∧ alpha * alphaScale < alphaDigits + 1 := by
  obtain ⟨h1, h2⟩ := pi_digits
  have hp : 0 < 96000 + 700 * Real.pi := by linarith [Real.pi_pos]
  unfold alpha alphaDigits alphaScale
  rw [div_mul_eq_mul_div, lt_div_iff₀ hp, div_lt_iff₀ hp]
  push_cast
  constructor <;> linarith

/-- Between the digits and one more there is no fraction with a denominator up to 10^30: both lie
between two neighbouring fractions whose denominators add up to more than that. -/
theorem no_short_fraction {k m : Nat} (h : k ≤ 10 ^ 30) (h1 : k * alphaDigits < m * alphaScale)
    (h2 : m * alphaScale ≤ k * (alphaDigits + 1)) : False := by
  unfold alphaDigits alphaScale at h1 h2
  have a1 : 538241215404700797338374334222 * k < 550570947214307616434857256355 * m := by omega
  have a2 : 580923867395299072069924792072 * m < 567914398728228987056551999707 * k := by omega
  omega

/-- The digits settle the floor of `ALPHA*k` for every `k` up to 10^30, so no search is made
there. -/
theorem amulLow_eq_amulHigh {k : Nat} (h : k ≤ 10 ^ 30) : amulLow k = amulHigh k := by
  have hs : 0 < alphaScale := by unfold alphaScale; positivity
  have hle : amulLow k ≤ amulHigh k := Nat.div_le_div_right (Nat.mul_le_mul_left k (Nat.le_succ _))
  by_contra hne
  have hlt : amulLow k < amulHigh k := lt_of_le_of_ne hle hne
  exact no_short_fraction h ((Nat.div_lt_iff_lt_mul hs).1 hlt) ((Nat.le_div_iff_mul_le hs).1 le_rfl)

theorem amulNat_eq {k : Nat} (h : k ≤ 10 ^ 30) : amulNat k = k * alphaDigits / alphaScale := by
  rw [amulNat, if_pos (amulLow_eq_amulHigh h)]
  rfl

/-! ## The floor at every precision -/

theorem arctanTerms_eq_sum (d n : Nat) : ((arctanTerms d n : ℚ) : ℝ) = arctanSum n (d : ℝ)⁻¹ := by
  rw [arctanTerms_cast, one_div, arctanSum]

/-- Machin's rationals lie below and above pi. -/
theorem piBelow_le (n : Nat) : ((piBelow n : ℚ) : ℝ) ≤ Real.pi := by
  have hm := Real.four_mul_arctan_inv_5_sub_arctan_inv_239
  have h5 := arctan_signs (2 * n) (x := 5⁻¹) (by norm_num)
  have h239 := arctan_signs (2 * n + 1) (x := 239⁻¹) (by norm_num)
  rw [pow_succ, pow_mul, neg_one_sq, one_pow] at h239
  rw [pow_mul, neg_one_sq, one_pow] at h5
  unfold piBelow
  push_cast
  rw [arctanTerms_eq_sum, arctanTerms_eq_sum]
  refine max_le Real.pi_gt_three.le ?_
  push_cast
  linarith

theorem le_piAbove (n : Nat) : Real.pi ≤ ((piAbove n : ℚ) : ℝ) := by
  have hm := Real.four_mul_arctan_inv_5_sub_arctan_inv_239
  have h5 := arctan_signs (2 * n + 1) (x := 5⁻¹) (by norm_num)
  have h239 := arctan_signs (2 * n) (x := 239⁻¹) (by norm_num)
  rw [pow_succ, pow_mul, neg_one_sq, one_pow] at h5
  rw [pow_mul, neg_one_sq, one_pow] at h239
  unfold piAbove
  push_cast
  rw [arctanTerms_eq_sum, arctanTerms_eq_sum]
  push_cast
  linarith

theorem alphaOf_piAbove_le (n : Nat) : ((alphaOf (piAbove n) : ℚ) : ℝ) ≤ alpha := by
  rw [alphaOf_cast, alpha]
  have := Real.pi_pos
  exact div_le_div_of_nonneg_left (by norm_num) (by positivity) (by linarith [le_piAbove n])

theorem le_alphaOf_piBelow (n : Nat) : alpha ≤ ((alphaOf (piBelow n) : ℚ) : ℝ) := by
  rw [alphaOf_cast, alpha]
  have h3 : (3 : ℝ) ≤ ((piBelow n : ℚ) : ℝ) := by simp [piBelow]
  exact div_le_div_of_nonneg_left (by norm_num) (by linarith) (by linarith [piBelow_le n])

/-- The search gives the floor of `ALPHA*k`, whatever `k` is. -/
theorem floorProduct_floor (k : Nat) :
    (floorProduct k : ℝ) ≤ alpha * k ∧ alpha * k < floorProduct k + 1 := by
  obtain ⟨n, hn, he⟩ : ∃ n, floorLow k n = floorHigh k n ∧ floorProduct k = (floorLow k n).toNat :=
    ⟨_, Nat.find_spec (floor_settled k), rfl⟩
  have hk : (0 : ℝ) ≤ k := by positivity
  have hpos : 0 ≤ floorLow k n := by
    have h0 : (0 : ℝ) ≤ ((alphaOf (piAbove n) : ℚ) : ℝ) := by
      rw [alphaOf_cast]
      have := Real.pi_pos
      exact div_nonneg (by norm_num) (by linarith [le_piAbove n])
    have h0' : (0 : ℚ) ≤ alphaOf (piAbove n) := by exact_mod_cast h0
    exact Int.floor_nonneg.2 (by positivity)
  have hz : ((floorProduct k : ℕ) : ℝ) = (floorLow k n : ℝ) := by
    rw [he]
    exact_mod_cast Int.toNat_of_nonneg hpos
  have h1 : ((floorLow k n : Int) : ℝ) ≤ alphaOf (piAbove n) * k := by
    exact_mod_cast Int.floor_le (alphaOf (piAbove n) * k)
  have h2 : ((alphaOf (piBelow n) : ℚ) : ℝ) * k < floorLow k n + 1 := by
    rw [hn]
    exact_mod_cast Int.lt_floor_add_one (alphaOf (piBelow n) * k)
  rw [hz]
  exact ⟨h1.trans (mul_le_mul_of_nonneg_right (alphaOf_piAbove_le n) hk),
    (mul_le_mul_of_nonneg_right (le_alphaOf_piBelow n) hk).trans_lt h2⟩

/-- Where the digits settle it, they give the floor of `ALPHA*k`. -/
theorem amulLow_floor {k : Nat} (h : amulLow k = amulHigh k) :
    (amulLow k : ℝ) ≤ alpha * k ∧ alpha * k < amulLow k + 1 := by
  obtain ⟨h1, h2⟩ := alpha_digits
  have hs : 0 < alphaScale := by unfold alphaScale; positivity
  have hsr : (0 : ℝ) < alphaScale := by exact_mod_cast hs
  have hk : (0 : ℝ) ≤ k := by positivity
  have hlow : amulLow k * alphaScale ≤ k * alphaDigits := Nat.div_mul_le_self _ _
  have hhigh : k * (alphaDigits + 1) < (amulLow k + 1) * alphaScale := by
    rw [← Nat.div_lt_iff_lt_mul hs]
    exact Nat.lt_succ_of_le h.ge
  have hlow' : (amulLow k : ℝ) * alphaScale ≤ k * alphaDigits := by exact_mod_cast hlow
  have hhigh' : (k : ℝ) * (alphaDigits + 1) < (amulLow k + 1) * alphaScale := by exact_mod_cast hhigh
  constructor
  · refine le_of_mul_le_mul_right (hlow'.trans ?_) hsr
    nlinarith
  · refine lt_of_mul_lt_mul_right (lt_of_le_of_lt ?_ hhigh') hsr.le
    nlinarith

/-- `amulNat k` is the floor of `ALPHA*k`, whatever `k` is (spec/45_postprocess.md R217). -/
theorem amulNat_floor (k : Nat) : (amulNat k : ℝ) ≤ alpha * k ∧ alpha * k < amulNat k + 1 := by
  unfold amulNat
  split
  · exact amulLow_floor ‹_›
  · exact floorProduct_floor k

end Sys2Proof.Machine
end

