-- ==== Sys2Proof/Laws/Config.lean ====
section
/-! SUPPORT. The constants of the configuration as simp lemmas (spec/00_scope.md R11), and the
capacities for bounded and unbounded size parameters (spec/20_memory.md R66). -/

namespace Sys2Proof

@[simp] theorem cfg_sampleRate : cfg.sampleRate = 96000 := rfl
@[simp] theorem cfg_baudRate : cfg.baudRate = 300 := rfl
@[simp] theorem cfg_spb : cfg.spb = 320 := rfl
@[simp] theorem cfg_markTone : cfg.markTone = 1800 := rfl
@[simp] theorem cfg_spaceTone : cfg.spaceTone = 1600 := rfl
@[simp] theorem cfg_amplitudeDen : cfg.amplitudeDen = 50 := rfl
@[simp] theorem cfg_fullScale : cfg.fullScale = 32767 := rfl
@[simp] theorem cfg_preambleLength : cfg.preambleLength = 32 := rfl
@[simp] theorem cfg_flag : cfg.flag = 0x7E#8 := rfl
@[simp] theorem cfg_control : cfg.control = 0x03#8 := rfl
@[simp] theorem cfg_pid : cfg.pid = 0xF0#8 := rfl
@[simp] theorem cfg_crcPoly : cfg.crcPoly = 0x8408#16 := rfl
@[simp] theorem cfg_crcInit : cfg.crcInit = 0xFFFF#16 := rfl
@[simp] theorem cfg_crcXorout : cfg.crcXorout = 0xFFFF#16 := rfl
@[simp] theorem cfg_callLen : cfg.callLen = 6 := rfl
@[simp] theorem cfg_padChar : cfg.padChar = 0x20#8 := rfl
@[simp] theorem cfg_ssidBase : cfg.ssidBase = 0x60#8 := rfl
@[simp] theorem cfg_endMark : cfg.endMark = 0x01#8 := rfl
@[simp] theorem cfg_frameSsid : cfg.frameSsid = 0 := rfl
@[simp] theorem cfg_nrzInit : cfg.nrzInit = 1#1 := rfl
@[simp] theorem cfg_sync : cfg.sync = (0#1, 1#1) := rfl
@[simp] theorem cfg_hpfCutoff : cfg.hpfCutoff = 350 := rfl

@[simp] theorem fits_none (n : Nat) : fits n none = true := rfl
@[simp] theorem fits_some (n m : Nat) : fits n (some m) = true ↔ n ≤ m := by simp [fits]

/-- Fitting is kept by going down. -/
theorem fits_of_le {n m : Nat} {b : Option Nat} (h : n ≤ m) (hm : fits m b = true) : fits n b = true := by
  cases b with
  | none => rfl
  | some c => simp at hm ⊢; omega

/-- The frame of a path and a payload within their parameters is within FB_CAP. -/
theorem frame_fits {p : SizeParams} {np len : Nat} (hp : fits np p.pathMax = true)
    (hl : fits len p.infoMax = true) : fits (51 + 7 * np + len) p.fbCap = true := by
  unfold SizeParams.fbCap
  cases h1 : p.pathMax <;> cases h2 : p.infoMax <;> simp_all
  omega

/-- The bits of a frame within FB_CAP are within BB_CAP. -/
theorem bits_fit {p : SizeParams} {n : Nat} (h : fits n p.fbCap = true) :
    fits (66 + 8 * n) p.bbCap = true := by
  unfold SizeParams.bbCap
  cases h1 : p.fbCap <;> simp_all
  omega

/-- The samples of a bit sequence within BB_CAP are within SB_CAP. -/
theorem samples_fit {p : SizeParams} {n : Nat} (h : fits n p.bbCap = true) :
    fits (320 * n) p.sbCap = true := by
  unfold SizeParams.sbCap
  cases h1 : p.bbCap <;> simp_all

/-- The file of a sample buffer within SB_CAP is within OB_CAP. -/
theorem file_fits {p : SizeParams} {n : Nat} (h : fits n p.sbCap = true) :
    fits (44 + 2 * n) p.obCap = true := by
  unfold SizeParams.obCap
  cases h1 : p.sbCap <;> simp_all

end Sys2Proof
end

