-- ==== Sys2Proof/Laws/Decode.lean ====
section
/-! SUPPORT. The fields of a word put together from fields, and a word as its fields, format by
format (spec/30_encoding.md R91). -/

namespace Sys2Proof

/-! ## Fields of a joined bit vector -/

theorem field_low {n m : Nat} (a : BitVec n) (b : BitVec m) : (a ++ b).extractLsb' 0 m = b :=
  BitVec.extractLsb'_append_eq_right

theorem field_mid {n l m : Nat} (a : BitVec n) (b : BitVec l) (c : BitVec m) :
    (a ++ b ++ c).extractLsb' m l = b := by
  rw [BitVec.extractLsb'_append_eq_of_le (by omega), Nat.sub_self]
  exact BitVec.extractLsb'_append_eq_right

theorem field_high {k n m : Nat} (op : BitVec k) (a : BitVec n) (b : BitVec m) {s : Nat}
    (h : m + n = s) : (op ++ a ++ b).extractLsb' s k = op := by
  subst h
  rw [BitVec.extractLsb'_append_eq_of_le (by omega)]
  have : m + n - m = n := by omega
  rw [this]
  exact BitVec.extractLsb'_append_eq_left

/-- Two adjacent fields are one field. -/
theorem fields_join {k : Nat} (w : BitVec k) (s l m : Nat) :
    w.extractLsb' (s + m) l ++ w.extractLsb' s m = w.extractLsb' s (l + m) := by
  apply BitVec.eq_of_getLsbD_eq
  intro i hi
  rw [BitVec.getLsbD_append]
  split
  · simp_all
  · rename_i h
    have h1 : i - m < l := by omega
    have h2 : s + m + (i - m) = s + i := by omega
    simp [h1, h2, hi]

/-! ## The operation code of a word put together -/

theorem opField_wide (op : BitVec 8) (a : BitVec 24) : opField (op ++ a) = op :=
  BitVec.extractLsb'_append_eq_left

theorem opField_byte (op a : BitVec 8) : opField (op ++ 0#16 ++ a) = op := field_high op _ _ rfl

theorem opField_bit (op : BitVec 8) (a : BitVec 1) : opField (op ++ 0#23 ++ a) = op :=
  field_high op _ _ rfl

theorem opField_tone (op : BitVec 8) (f n : BitVec 12) : opField (op ++ f ++ n) = op :=
  field_high op _ _ rfl

theorem opField_space (op : BitVec 8) (sp : BitVec 3) (idx : BitVec 21) : opField (op ++ sp ++ idx) = op :=
  field_high op _ _ rfl

theorem opField_slot (op a b : BitVec 8) : opField (op ++ 0#8 ++ a ++ b) = op := by
  unfold opField
  rw [BitVec.extractLsb'_append_eq_of_le (by omega)]
  exact field_high op _ _ rfl

/-! ## A word put together is read back -/

theorem formatZ_join (op : BitVec 8) (i : Instr) : formatZ (op ++ 0#24) i = .ok i := by
  simp only [formatZ, field_low]
  rfl

theorem formatB_join (op a : BitVec 8) (i : BitVec 8 → Instr) :
    formatB (op ++ 0#16 ++ a) i = .ok (i a) := by
  simp only [formatB, field_low, field_mid]
  rfl

theorem formatBit_join (op : BitVec 8) (a : BitVec 1) (i : BitVec 1 → Instr) :
    formatBit (op ++ 0#23 ++ a) i = .ok (i a) := by
  simp only [formatBit, field_low, field_mid]
  rfl

theorem formatS_join (op a b : BitVec 8) (i : BitVec 8 → BitVec 8 → Instr) :
    formatS (op ++ 0#8 ++ a ++ b) i = .ok (i a b) := by
  have h : (op ++ 0#8 ++ a ++ b).extractLsb' 16 8 = 0#8 := by
    rw [BitVec.extractLsb'_append_eq_of_le (by omega)]
    exact field_mid op 0#8 a
  simp only [formatS, field_low, field_mid, h, if_true]

theorem formatT_join (op : BitVec 8) (f n : BitVec 12) (i : BitVec 12 → BitVec 12 → Instr) :
    formatT (op ++ f ++ n) i = .ok (i f n) := by
  simp only [formatT, field_low, field_mid]

theorem formatW_join (op : BitVec 8) (a : BitVec 24) (i : BitVec 24 → Instr) :
    formatW (op ++ a) i = .ok (i a) := by
  simp only [formatW, field_low]

theorem formatM_join (op : BitVec 8) (sp : BitVec 3) (idx : BitVec 21)
    (i : BitVec 3 → BitVec 21 → Instr) (h : selectorOk sp = true) :
    formatM (op ++ sp ++ idx) i = .ok (i sp idx) := by
  simp only [formatM, field_low, field_mid, h, if_true]

/-! ## A word is its fields -/

theorem opField_of_toNat {w : Word} {n : Nat} (h : (opField w).toNat = n) :
    opField w = BitVec.ofNat 8 n := by
  rw [← h]
  simp

theorem word_wide (w : Word) : w = opField w ++ w.extractLsb' 0 24 := by
  have h := fields_join w 0 8 24
  exact (h.trans BitVec.extractLsb'_eq_self).symm

theorem word_byte (w : Word) : w = opField w ++ w.extractLsb' 8 16 ++ w.extractLsb' 0 8 := by
  have h := fields_join w 0 16 8
  rw [BitVec.append_assoc]
  simp only [Nat.zero_add] at h
  rw [h]
  exact word_wide w

theorem word_bit (w : Word) : w = opField w ++ w.extractLsb' 1 23 ++ w.extractLsb' 0 1 := by
  have h := fields_join w 0 23 1
  rw [BitVec.append_assoc]
  simp only [Nat.zero_add] at h
  rw [h]
  exact word_wide w

theorem word_tone (w : Word) : w = opField w ++ w.extractLsb' 12 12 ++ w.extractLsb' 0 12 := by
  have h := fields_join w 0 12 12
  rw [BitVec.append_assoc]
  simp only [Nat.zero_add] at h
  rw [h]
  exact word_wide w

theorem word_space (w : Word) : w = opField w ++ w.extractLsb' 21 3 ++ w.extractLsb' 0 21 := by
  have h := fields_join w 0 3 21
  rw [BitVec.append_assoc]
  simp only [Nat.zero_add] at h
  rw [h]
  exact word_wide w

theorem word_slot (w : Word) :
    w = opField w ++ w.extractLsb' 16 8 ++ w.extractLsb' 8 8 ++ w.extractLsb' 0 8 := by
  have h1 := fields_join w 16 8 8
  have h2 := fields_join w 0 8 8
  have h3 := fields_join w 0 16 16
  rw [BitVec.append_assoc]
  simp only [Nat.zero_add] at h2 h3
  have h4 : opField w ++ w.extractLsb' 16 8 = w.extractLsb' 16 16 := h1
  rw [h4, h2]
  exact (h3.trans BitVec.extractLsb'_eq_self).symm

end Sys2Proof
end

