-- ==== Sys2Proof/Laws/State.lean ====
section
/-! SUPPORT. One lemma per field per named update of State, true by rfl; what a setting of STATUS's
fields does to each field; that the state is its fields. -/

namespace Sys2Proof.Machine

/-! ## A done outcome presented -/

@[simp] theorem present_crc (s : State) (v : Int) : (s.present v).crc = s.crc := rfl
@[simp] theorem present_nrz (s : State) (v : Int) : (s.present v).nrz = s.nrz := rfl
@[simp] theorem present_ph (s : State) (v : Int) : (s.present v).ph = s.ph := rfl
@[simp] theorem present_xp (s : State) (v : Int) : (s.present v).xp = s.xp := rfl
@[simp] theorem present_yp (s : State) (v : Int) : (s.present v).yp = s.yp := rfl
@[simp] theorem present_yv (s : State) (v : Int) : (s.present v).yv = s.yv := rfl
@[simp] theorem present_status (s : State) (v : Int) : (s.present v).status = s.status := rfl
@[simp] theorem present_npath (s : State) (v : Int) : (s.present v).npath = s.npath := rfl
@[simp] theorem present_opm (s : State) (v : Int) : (s.present v).opm = s.opm := rfl
@[simp] theorem present_infom (s : State) (v : Int) : (s.present v).infom = s.infom := rfl
@[simp] theorem present_fb (s : State) (v : Int) : (s.present v).fb = s.fb := rfl
@[simp] theorem present_bb (s : State) (v : Int) : (s.present v).bb = s.bb := rfl
@[simp] theorem present_sb (s : State) (v : Int) : (s.present v).sb = s.sb := rfl
@[simp] theorem present_ob (s : State) (v : Int) : (s.present v).ob = s.ob := rfl
@[simp] theorem present_inputs (s : State) (v : Int) : (s.present v).inputs = s.inputs := rfl
@[simp] theorem present_result (s : State) (v : Int) : (s.present v).result = some (.done v) := rfl
@[simp] theorem present_sinkAnswers (s : State) (v : Int) : (s.present v).sinkAnswers = s.sinkAnswers := rfl
@[simp] theorem present_sinkFiles (s : State) (v : Int) : (s.present v).sinkFiles = s.sinkFiles := rfl
@[simp] theorem present_freeCount (s : State) (v : Int) : (s.present v).freeCount = s.freeCount := rfl
@[simp] theorem present_params (s : State) (v : Int) : (s.present v).params = s.params := rfl

/-! ## The data path cleared -/

@[simp] theorem clearDataPath_crc (s : State) : (s.clearDataPath).crc = 0xFFFF := rfl
@[simp] theorem clearDataPath_nrz (s : State) : (s.clearDataPath).nrz = 1 := rfl
@[simp] theorem clearDataPath_ph (s : State) : (s.clearDataPath).ph = 0 := rfl
@[simp] theorem clearDataPath_xp (s : State) : (s.clearDataPath).xp = 0 := rfl
@[simp] theorem clearDataPath_yp (s : State) : (s.clearDataPath).yp = 0 := rfl
@[simp] theorem clearDataPath_yv (s : State) : (s.clearDataPath).yv = 0 := rfl
@[simp] theorem clearDataPath_status (s : State) : (s.clearDataPath).status = s.status := rfl
@[simp] theorem clearDataPath_npath (s : State) : (s.clearDataPath).npath = s.npath := rfl
@[simp] theorem clearDataPath_opm (s : State) : (s.clearDataPath).opm = s.opm := rfl
@[simp] theorem clearDataPath_infom (s : State) : (s.clearDataPath).infom = s.infom := rfl
@[simp] theorem clearDataPath_fb (s : State) : (s.clearDataPath).fb = [] := rfl
@[simp] theorem clearDataPath_bb (s : State) : (s.clearDataPath).bb = [] := rfl
@[simp] theorem clearDataPath_sb (s : State) : (s.clearDataPath).sb = [] := rfl
@[simp] theorem clearDataPath_ob (s : State) : (s.clearDataPath).ob = [] := rfl
@[simp] theorem clearDataPath_inputs (s : State) : (s.clearDataPath).inputs = s.inputs := rfl
@[simp] theorem clearDataPath_result (s : State) : (s.clearDataPath).result = s.result := rfl
@[simp] theorem clearDataPath_sinkAnswers (s : State) : (s.clearDataPath).sinkAnswers = s.sinkAnswers := rfl
@[simp] theorem clearDataPath_sinkFiles (s : State) : (s.clearDataPath).sinkFiles = s.sinkFiles := rfl
@[simp] theorem clearDataPath_freeCount (s : State) : (s.clearDataPath).freeCount = s.freeCount := rfl
@[simp] theorem clearDataPath_params (s : State) : (s.clearDataPath).params = s.params := rfl

/-! ## The data path and STATUS cleared -/

@[simp] theorem cleared_crc (s : State) : (s.cleared).crc = 0xFFFF := rfl
@[simp] theorem cleared_nrz (s : State) : (s.cleared).nrz = 1 := rfl
@[simp] theorem cleared_ph (s : State) : (s.cleared).ph = 0 := rfl
@[simp] theorem cleared_xp (s : State) : (s.cleared).xp = 0 := rfl
@[simp] theorem cleared_yp (s : State) : (s.cleared).yp = 0 := rfl
@[simp] theorem cleared_yv (s : State) : (s.cleared).yv = 0 := rfl
@[simp] theorem cleared_status (s : State) : (s.cleared).status = 0 := rfl
@[simp] theorem cleared_npath (s : State) : (s.cleared).npath = s.npath := rfl
@[simp] theorem cleared_opm (s : State) : (s.cleared).opm = s.opm := rfl
@[simp] theorem cleared_infom (s : State) : (s.cleared).infom = s.infom := rfl
@[simp] theorem cleared_fb (s : State) : (s.cleared).fb = [] := rfl
@[simp] theorem cleared_bb (s : State) : (s.cleared).bb = [] := rfl
@[simp] theorem cleared_sb (s : State) : (s.cleared).sb = [] := rfl
@[simp] theorem cleared_ob (s : State) : (s.cleared).ob = [] := rfl
@[simp] theorem cleared_inputs (s : State) : (s.cleared).inputs = s.inputs := rfl
@[simp] theorem cleared_result (s : State) : (s.cleared).result = s.result := rfl
@[simp] theorem cleared_sinkAnswers (s : State) : (s.cleared).sinkAnswers = s.sinkAnswers := rfl
@[simp] theorem cleared_sinkFiles (s : State) : (s.cleared).sinkFiles = s.sinkFiles := rfl
@[simp] theorem cleared_freeCount (s : State) : (s.cleared).freeCount = s.freeCount := rfl
@[simp] theorem cleared_params (s : State) : (s.cleared).params = s.params := rfl

/-! ## Fault entry -/

@[simp] theorem faultEntry_crc (s : State) (c : Cause) : (s.faultEntry c).crc = 0xFFFF := rfl
@[simp] theorem faultEntry_nrz (s : State) (c : Cause) : (s.faultEntry c).nrz = 1 := rfl
@[simp] theorem faultEntry_ph (s : State) (c : Cause) : (s.faultEntry c).ph = 0 := rfl
@[simp] theorem faultEntry_xp (s : State) (c : Cause) : (s.faultEntry c).xp = 0 := rfl
@[simp] theorem faultEntry_yp (s : State) (c : Cause) : (s.faultEntry c).yp = 0 := rfl
@[simp] theorem faultEntry_yv (s : State) (c : Cause) : (s.faultEntry c).yv = 0 := rfl
@[simp] theorem faultEntry_status (s : State) (c : Cause) : (s.faultEntry c).status = setErr c.code (setDone 0 s.status) := rfl
@[simp] theorem faultEntry_npath (s : State) (c : Cause) : (s.faultEntry c).npath = s.npath := rfl
@[simp] theorem faultEntry_opm (s : State) (c : Cause) : (s.faultEntry c).opm = s.opm := rfl
@[simp] theorem faultEntry_infom (s : State) (c : Cause) : (s.faultEntry c).infom = s.infom := rfl
@[simp] theorem faultEntry_fb (s : State) (c : Cause) : (s.faultEntry c).fb = [] := rfl
@[simp] theorem faultEntry_bb (s : State) (c : Cause) : (s.faultEntry c).bb = [] := rfl
@[simp] theorem faultEntry_sb (s : State) (c : Cause) : (s.faultEntry c).sb = [] := rfl
@[simp] theorem faultEntry_ob (s : State) (c : Cause) : (s.faultEntry c).ob = [] := rfl
@[simp] theorem faultEntry_inputs (s : State) (c : Cause) : (s.faultEntry c).inputs = s.inputs := rfl
@[simp] theorem faultEntry_result (s : State) (c : Cause) : (s.faultEntry c).result = some (.fault c (Config.faultRes s.freeCount)) := rfl
@[simp] theorem faultEntry_sinkAnswers (s : State) (c : Cause) : (s.faultEntry c).sinkAnswers = s.sinkAnswers := rfl
@[simp] theorem faultEntry_sinkFiles (s : State) (c : Cause) : (s.faultEntry c).sinkFiles = s.sinkFiles := rfl
@[simp] theorem faultEntry_freeCount (s : State) (c : Cause) : (s.faultEntry c).freeCount = s.freeCount + 1 := rfl
@[simp] theorem faultEntry_params (s : State) (c : Cause) : (s.faultEntry c).params = s.params := rfl

/-! ## A write attempt answered -/

@[simp] theorem asked_crc (s : State) : (s.asked).crc = s.crc := rfl
@[simp] theorem asked_nrz (s : State) : (s.asked).nrz = s.nrz := rfl
@[simp] theorem asked_ph (s : State) : (s.asked).ph = s.ph := rfl
@[simp] theorem asked_xp (s : State) : (s.asked).xp = s.xp := rfl
@[simp] theorem asked_yp (s : State) : (s.asked).yp = s.yp := rfl
@[simp] theorem asked_yv (s : State) : (s.asked).yv = s.yv := rfl
@[simp] theorem asked_status (s : State) : (s.asked).status = s.status := rfl
@[simp] theorem asked_npath (s : State) : (s.asked).npath = s.npath := rfl
@[simp] theorem asked_opm (s : State) : (s.asked).opm = s.opm := rfl
@[simp] theorem asked_infom (s : State) : (s.asked).infom = s.infom := rfl
@[simp] theorem asked_fb (s : State) : (s.asked).fb = s.fb := rfl
@[simp] theorem asked_bb (s : State) : (s.asked).bb = s.bb := rfl
@[simp] theorem asked_sb (s : State) : (s.asked).sb = s.sb := rfl
@[simp] theorem asked_ob (s : State) : (s.asked).ob = s.ob := rfl
@[simp] theorem asked_inputs (s : State) : (s.asked).inputs = s.inputs := rfl
@[simp] theorem asked_result (s : State) : (s.asked).result = s.result := rfl
@[simp] theorem asked_sinkAnswers (s : State) : (s.asked).sinkAnswers = s.sinkAnswers.tail := rfl
@[simp] theorem asked_sinkFiles (s : State) : (s.asked).sinkFiles = s.sinkFiles := rfl
@[simp] theorem asked_freeCount (s : State) : (s.asked).freeCount = s.freeCount + 1 := rfl
@[simp] theorem asked_params (s : State) : (s.asked).params = s.params := rfl

/-! ## Reset -/

@[simp] theorem hardReset_crc (s : State) : (s.hardReset).crc = 0xFFFF := rfl
@[simp] theorem hardReset_nrz (s : State) : (s.hardReset).nrz = 1 := rfl
@[simp] theorem hardReset_ph (s : State) : (s.hardReset).ph = 0 := rfl
@[simp] theorem hardReset_xp (s : State) : (s.hardReset).xp = 0 := rfl
@[simp] theorem hardReset_yp (s : State) : (s.hardReset).yp = 0 := rfl
@[simp] theorem hardReset_yv (s : State) : (s.hardReset).yv = 0 := rfl
@[simp] theorem hardReset_status (s : State) : (s.hardReset).status = 0 := rfl
@[simp] theorem hardReset_npath (s : State) : (s.hardReset).npath = 0 := rfl
@[simp] theorem hardReset_opm (s : State) : (s.hardReset).opm = [] := rfl
@[simp] theorem hardReset_infom (s : State) : (s.hardReset).infom = [] := rfl
@[simp] theorem hardReset_fb (s : State) : (s.hardReset).fb = [] := rfl
@[simp] theorem hardReset_bb (s : State) : (s.hardReset).bb = [] := rfl
@[simp] theorem hardReset_sb (s : State) : (s.hardReset).sb = [] := rfl
@[simp] theorem hardReset_ob (s : State) : (s.hardReset).ob = [] := rfl
@[simp] theorem hardReset_inputs (s : State) : (s.hardReset).inputs = s.inputs := rfl
@[simp] theorem hardReset_result (s : State) : (s.hardReset).result = none := rfl
@[simp] theorem hardReset_sinkAnswers (s : State) : (s.hardReset).sinkAnswers = s.sinkAnswers := rfl
@[simp] theorem hardReset_sinkFiles (s : State) : (s.hardReset).sinkFiles = s.sinkFiles := rfl
@[simp] theorem hardReset_freeCount (s : State) : (s.hardReset).freeCount = s.freeCount := rfl
@[simp] theorem hardReset_params (s : State) : (s.hardReset).params = s.params := rfl

/-! ## The filter's carried values set -/

@[simp] theorem setFilter_crc (s : State) (r : FilterRegs) : (s.setFilter r).crc = s.crc := rfl
@[simp] theorem setFilter_nrz (s : State) (r : FilterRegs) : (s.setFilter r).nrz = s.nrz := rfl
@[simp] theorem setFilter_ph (s : State) (r : FilterRegs) : (s.setFilter r).ph = s.ph := rfl
@[simp] theorem setFilter_xp (s : State) (r : FilterRegs) : (s.setFilter r).xp = r.xp := rfl
@[simp] theorem setFilter_yp (s : State) (r : FilterRegs) : (s.setFilter r).yp = r.yp := rfl
@[simp] theorem setFilter_yv (s : State) (r : FilterRegs) : (s.setFilter r).yv = r.yv := rfl
@[simp] theorem setFilter_status (s : State) (r : FilterRegs) : (s.setFilter r).status = s.status := rfl
@[simp] theorem setFilter_npath (s : State) (r : FilterRegs) : (s.setFilter r).npath = s.npath := rfl
@[simp] theorem setFilter_opm (s : State) (r : FilterRegs) : (s.setFilter r).opm = s.opm := rfl
@[simp] theorem setFilter_infom (s : State) (r : FilterRegs) : (s.setFilter r).infom = s.infom := rfl
@[simp] theorem setFilter_fb (s : State) (r : FilterRegs) : (s.setFilter r).fb = s.fb := rfl
@[simp] theorem setFilter_bb (s : State) (r : FilterRegs) : (s.setFilter r).bb = s.bb := rfl
@[simp] theorem setFilter_sb (s : State) (r : FilterRegs) : (s.setFilter r).sb = s.sb := rfl
@[simp] theorem setFilter_ob (s : State) (r : FilterRegs) : (s.setFilter r).ob = s.ob := rfl
@[simp] theorem setFilter_inputs (s : State) (r : FilterRegs) : (s.setFilter r).inputs = s.inputs := rfl
@[simp] theorem setFilter_result (s : State) (r : FilterRegs) : (s.setFilter r).result = s.result := rfl
@[simp] theorem setFilter_sinkAnswers (s : State) (r : FilterRegs) : (s.setFilter r).sinkAnswers = s.sinkAnswers := rfl
@[simp] theorem setFilter_sinkFiles (s : State) (r : FilterRegs) : (s.setFilter r).sinkFiles = s.sinkFiles := rfl
@[simp] theorem setFilter_freeCount (s : State) (r : FilterRegs) : (s.setFilter r).freeCount = s.freeCount := rfl
@[simp] theorem setFilter_params (s : State) (r : FilterRegs) : (s.setFilter r).params = s.params := rfl

/-! ## The fields of STATUS -/

/-- The fields of three joined bit fields of widths 4, 1 and 3. -/
theorem fields_append (r : BitVec 4) (d : BitVec 1) (e : BitVec 3) :
    (r ++ d ++ e).extractLsb' 0 3 = e ∧ (r ++ d ++ e).extractLsb' 3 1 = d ∧
      (r ++ d ++ e).extractLsb' 4 4 = r := by
  refine ⟨BitVec.extractLsb'_append_eq_right, ?_, ?_⟩
  · rw [BitVec.extractLsb'_append_eq_of_le (by decide)]
    exact BitVec.extractLsb'_append_eq_right
  · rw [BitVec.extractLsb'_append_eq_of_le (by decide)]
    exact BitVec.extractLsb'_append_eq_left

@[simp] theorem statusErr_setErr (c : BitVec 3) (st : BitVec 8) : statusErr (setErr c st) = c :=
  (fields_append (statusRest st) (statusDone st) c).1

@[simp] theorem statusDone_setErr (c : BitVec 3) (st : BitVec 8) :
    statusDone (setErr c st) = statusDone st :=
  (fields_append (statusRest st) (statusDone st) c).2.1

@[simp] theorem statusRest_setErr (c : BitVec 3) (st : BitVec 8) :
    statusRest (setErr c st) = statusRest st :=
  (fields_append (statusRest st) (statusDone st) c).2.2

@[simp] theorem statusErr_setDone (d : Bit) (st : BitVec 8) : statusErr (setDone d st) = statusErr st :=
  (fields_append (statusRest st) d (statusErr st)).1

@[simp] theorem statusDone_setDone (d : Bit) (st : BitVec 8) : statusDone (setDone d st) = d :=
  (fields_append (statusRest st) d (statusErr st)).2.1

@[simp] theorem statusRest_setDone (d : Bit) (st : BitVec 8) :
    statusRest (setDone d st) = statusRest st :=
  (fields_append (statusRest st) d (statusErr st)).2.2

/-- STATUS is its three fields. -/
theorem status_ext {a b : BitVec 8} (hr : statusRest a = statusRest b) (hd : statusDone a = statusDone b)
    (he : statusErr a = statusErr b) : a = b := by
  apply BitVec.eq_of_getLsbD_eq
  intro i hi
  by_cases h3 : i < 3
  · have := congrArg (fun v => v.getLsbD i) he
    simpa [statusErr, h3] using this
  · by_cases h4 : i < 4
    · obtain rfl : i = 3 := by omega
      have := congrArg (fun v => v.getLsbD 0) hd
      simpa [statusDone] using this
    · have := congrArg (fun v => v.getLsbD (i - 4)) hr
      have hi4 : i - 4 < 4 := by omega
      have hi' : 4 + (i - 4) = i := by omega
      simpa [statusRest, hi4, hi'] using this

/-! ## The cause numbers -/

theorem code_le_four (c : Cause) : c.code.toNat ≤ 4 := by cases c <;> decide

theorem code_injective {a b : Cause} (h : a.code = b.code) : a = b := by
  cases a <;> cases b <;> first | rfl | exact absurd h (by decide)

end Sys2Proof.Machine
end

