-- ==== Sys2Proof/Laws/Units.lean ====
section
/-! SUPPORT. What each function of the units gives: lengths, and how it goes through a joined
sequence. -/

namespace Sys2Proof.Machine

/-! ## Checksum -/

@[simp] theorem crcRun_nil (r : BitVec 16) : crcRun r [] = r := rfl

@[simp] theorem crcRun_cons (r : BitVec 16) (b : Byte) (bs : List Byte) :
    crcRun r (b :: bs) = crcRun (crcByte r b) bs := rfl

theorem crcRun_append (r : BitVec 16) (a b : List Byte) :
    crcRun r (a ++ b) = crcRun (crcRun r a) b := by simp [crcRun]

/-! ## Address field -/

@[simp] theorem paddedCall_length (cs : List Byte) : (paddedCall cs).length = 6 := by
  simp [paddedCall]

@[simp] theorem addrBytes_length (cs : List Byte) (ssid : Nat) : (addrBytes cs ssid).length = 7 := by
  simp [addrBytes]

/-! ## Frame -/

@[simp] theorem markLast_length (l : List Byte) : (markLast l).length = l.length := by
  fun_induction markLast l <;> simp_all

/-- The end marker is set on the last byte and nowhere else. -/
theorem markLast_append (l : List Byte) (b : Byte) :
    markLast (l ++ [b]) = l ++ [b ||| cfg.endMark] := by
  induction l with
  | nil => rfl
  | cons a l ih => cases l <;> simp_all [markLast]

@[simp] theorem pathStrings_length (s : State) : (pathStrings s).length = s.npath := by
  simp [pathStrings]

@[simp] theorem callStrings_length (s : State) : (callStrings s).length = s.npath + 2 := by
  simp [callStrings]

@[simp] theorem addressField_length (s : State) : (addressField s).length = 14 + 7 * s.npath := by
  simp [addressField, List.length_flatMap]
  omega

@[simp] theorem fcsBytes_length (fcs : BitVec 16) : (fcsBytes fcs).length = 2 := rfl

@[simp] theorem checkedBytes_length (s : State) :
    (checkedBytes s).length = 16 + 7 * s.npath + s.infom.length := by
  simp [checkedBytes]
  omega

@[simp] theorem packet_length (s : State) : (packet s).length = 18 + 7 * s.npath + s.infom.length := by
  simp [packet]
  omega

@[simp] theorem framed_length (l : List Byte) : (framed l).length = 33 + l.length := by
  simp [framed]
  omega

/-- The registers and buffers that FRM.BUILD reads are the operands in use. -/
theorem packet_congr {s t : State} (hn : s.npath = t.npath) (hi : s.infom = t.infom)
    (hk : ∀ k, k < 2 + s.npath → s.opm.get k = t.opm.get k) :
    packet s = packet t ∧ checkedBytes s = checkedBytes t ∧ frameHasNonAscii s = frameHasNonAscii t := by
  have hp : pathStrings s = pathStrings t := by
    simp only [pathStrings, hn]
    apply List.map_congr_left
    intro j hj
    exact hk _ (by have := List.mem_range.1 hj; omega)
  have hc : callStrings s = callStrings t := by
    simp only [callStrings, hp, hk 0 (by omega), hk 1 (by omega)]
  have hb : checkedBytes s = checkedBytes t := by
    simp only [checkedBytes, addressField, hc, hi]
  exact ⟨by simp only [packet, hb], hb, by simp only [frameHasNonAscii, hc, hi]⟩

/-! ## Bit encoder -/

@[simp] theorem byteBits_length (b : Byte) : (byteBits b).length = 8 := by simp [byteBits]

@[simp] theorem nrziRun_length (st : Bit) (bs : List Bit) : (nrziRun st bs).1.length = bs.length := by
  induction bs generalizing st with
  | nil => rfl
  | cons b bs ih => simp [nrziRun, ih]

theorem nrziRun_append (st : Bit) (a b : List Bit) :
    nrziRun st (a ++ b) =
      ((nrziRun st a).1 ++ (nrziRun (nrziRun st a).2 b).1, (nrziRun (nrziRun st a).2 b).2) := by
  induction a generalizing st with
  | nil => simp [nrziRun]
  | cons x a ih => simp [nrziRun, ih]

@[simp] theorem dataBits_length (bytes : List Byte) : (bytes.flatMap byteBits).length = 8 * bytes.length := by
  induction bytes with
  | nil => rfl
  | cons b bs ih => simp [ih]; omega

@[simp] theorem bitSequence_length (bytes : List Byte) :
    (bitSequence bytes).length = 66 + 8 * bytes.length := by
  simp [bitSequence, encodedBits, syncPair]
  omega

/-! ## Tone engine -/

@[simp] theorem advance_val (p : Phase) (f n : Nat) : (advance p f n).val = (p.val + f * n) % 96000 := rfl

@[simp] theorem toneRun_length (p : Phase) (f n : Nat) : (toneRun p f n).length = n := by
  simp [toneRun]

/-- The accumulator of a run in two parts (spec/44_tone.md R189, R191). -/
theorem advance_add (p : Phase) (f n m : Nat) : advance (advance p f n) f m = advance p f (n + m) := by
  apply Fin.ext
  simp [Nat.mul_add, Nat.add_assoc]

/-- A run in two parts is the whole run (spec/44_tone.md R191). -/
theorem toneRun_add (p : Phase) (f n m : Nat) :
    toneRun p f (n + m) = toneRun p f n ++ toneRun (advance p f n) f m := by
  simp only [toneRun, List.range_add, List.map_append, List.map_map, advance_add]
  rfl

@[simp] theorem afskSamples_length (p : Phase) (bs : List Bit) :
    (afskSamples p bs).length = 320 * bs.length := by
  induction bs generalizing p with
  | nil => rfl
  | cons b bs ih => simp [afskSamples, ih]; omega

/-! ## Normaliser and filter -/

theorem natAbs_le_maxAbs {l : List Int} {x : Int} (h : x ∈ l) : x.natAbs ≤ maxAbs l := by
  induction l with
  | nil => simp at h
  | cons y l ih =>
    rcases List.mem_cons.1 h with rfl | h
    · exact Nat.le_max_left _ _
    · exact (ih h).trans (Nat.le_max_right _ _)

theorem maxAbs_attained (l : List Int) (h : maxAbs l ≠ 0) : ∃ x ∈ l, x.natAbs = maxAbs l := by
  induction l with
  | nil => simp [maxAbs] at h
  | cons y l ih =>
    by_cases hy : maxAbs l ≤ y.natAbs
    · exact ⟨y, by simp, by simp [maxAbs, hy]⟩
    · obtain ⟨x, hx, he⟩ := ih (by omega)
      exact ⟨x, List.mem_cons_of_mem _ hx, by simp [maxAbs, he]; omega⟩

@[simp] theorem normalise_length (l : List Int) : (normalise l).length = l.length := by
  unfold normalise
  split <;> simp

@[simp] theorem filterRegs_nil (r : FilterRegs) : filterRegs r [] = r := rfl

@[simp] theorem filterRegs_cons (r : FilterRegs) (x : Int) (l : List Int) :
    filterRegs r (x :: l) = filterRegs (filterStep r x) l := rfl

@[simp] theorem filterOut_length (r : FilterRegs) (l : List Int) : (filterOut r l).length = l.length := by
  induction l generalizing r with
  | nil => rfl
  | cons x l ih => simp [filterOut, ih]

/-- After at least one step YV is 1. -/
theorem filterRegs_yv (r : FilterRegs) (x : Int) (l : List Int) : (filterRegs r (x :: l)).yv = 1 := by
  induction l generalizing r x with
  | nil => rfl
  | cons y l ih => exact ih _ y

/-- While the filter has run over nothing its carried values are 0. -/
theorem filterRegs_initial_zero {l : List Int} (h : (filterRegs .initial l).yv = 0) :
    (filterRegs .initial l).xp = 0 ∧ (filterRegs .initial l).yp = 0 := by
  cases l with
  | nil => exact ⟨rfl, rfl⟩
  | cons x l => rw [filterRegs_yv] at h; exact absurd h (by decide)

/-! ## Serialiser -/

@[simp] theorem leBytes_length (n v : Nat) : (leBytes n v).length = n := by
  induction n generalizing v with
  | zero => rfl
  | succ n ih => simp [leBytes, ih]

@[simp] theorem waveHeader_length (d : Nat) : (waveHeader d).length = 44 := by simp [waveHeader]

@[simp] theorem sampleBytes_length (x : Int) : (sampleBytes x).length = 2 := by simp [sampleBytes]

@[simp] theorem sampleData_length (l : List Int) : (l.flatMap sampleBytes).length = 2 * l.length := by
  induction l with
  | nil => rfl
  | cons x l ih => simp [ih]; omega

@[simp] theorem waveFile_length (l : List Int) : (waveFile l).length = 44 + 2 * l.length := by
  simp [waveFile, Nat.mul_comm]

end Sys2Proof.Machine
end

