-- ==== Sys2Proof/Laws/Outcome.lean ====
section
/-! SUPPORT. What an attempt can come to, and what each stage of the composite commands can do, said
once. -/

namespace Sys2Proof.Machine

@[simp] theorem finish_done (s : State) (v : Int) : (Attempt.done s v).finish = .next (s.present v) := rfl

@[simp] theorem finish_raise (c : Cause) (s : State) : (Attempt.raise c s).finish = .next (s.faultEntry c) := rfl

@[simp] theorem finish_refuse (r : Refusal) : (Attempt.refuse r).finish = .refused r := rfl

@[simp] theorem andThen_done (s : State) (v : Int) (f : State → Attempt) :
    (Attempt.done s v).andThen f = f s := rfl

@[simp] theorem andThen_raise (c : Cause) (s : State) (f : State → Attempt) :
    (Attempt.raise c s).andThen f = .raise c s := rfl

@[simp] theorem andThen_refuse (r : Refusal) (f : State → Attempt) :
    (Attempt.refuse r).andThen f = .refuse r := rfl

/-- A command goes on in a state with its outcome presented: done, or a fault taken. -/
theorem finish_eq_next {a : Attempt} {t : State} (h : a.finish = .next t) :
    (∃ s v, a = .done s v ∧ t = s.present v) ∨ (∃ c s, a = .raise c s ∧ t = s.faultEntry c) := by
  cases a with
  | done s v => exact .inl ⟨s, v, rfl, by simpa using h.symm⟩
  | raise c s => exact .inr ⟨c, s, rfl, by simpa using h.symm⟩
  | refuse r => simp at h

theorem finish_ne_fault (a : Attempt) (f : Fault) : a.finish ≠ .fault f := nomatch f

theorem andThen_eq_done {a : Attempt} {f : State → Attempt} {t : State} {v : Int}
    (h : a.andThen f = .done t v) : ∃ s w, a = .done s w ∧ f s = .done t v := by
  cases a with
  | done s w => exact ⟨s, w, rfl, h⟩
  | raise c s => simp at h
  | refuse r => simp at h

theorem andThen_eq_raise {a : Attempt} {f : State → Attempt} {t : State} {c : Cause}
    (h : a.andThen f = .raise c t) :
    a = .raise c t ∨ ∃ s w, a = .done s w ∧ f s = .raise c t := by
  cases a with
  | done s w => exact .inr ⟨s, w, rfl, h⟩
  | raise c s => exact .inl h
  | refuse r => simp at h

/-- FRM.BUILD's stage is refused for size, raises EncodingError where it stands, or builds FB and
leaves CRC. -/
theorem frmBuildStage_cases (s : State) :
    (fits (51 + 7 * s.npath + s.infom.length) s.params.fbCap = false ∧
      frmBuildStage s = .refuse .bufferFull) ∨
    (fits (51 + 7 * s.npath + s.infom.length) s.params.fbCap = true ∧ frameHasNonAscii s = true ∧
      frmBuildStage s = .raise .encodingError s) ∨
    (fits (51 + 7 * s.npath + s.infom.length) s.params.fbCap = true ∧ frameHasNonAscii s = false ∧
      frmBuildStage s = .done { s with crc := crcRun 0xFFFF (checkedBytes s), fb := framed (packet s) }
        ((51 + 7 * s.npath + s.infom.length : Nat) : Int)) := by
  have hl : (framed (packet s)).length = 51 + 7 * s.npath + s.infom.length := by simp; omega
  unfold frmBuildStage
  rw [hl]
  cases hf : fits (51 + 7 * s.npath + s.infom.length) s.params.fbCap
  · simp
  · cases ha : frameHasNonAscii s <;> simp

/-- BIT.ENC's stage is refused for size or builds BB and leaves NRZ. -/
theorem bitEncStage_cases (s : State) :
    (fits (66 + 8 * s.fb.length) s.params.bbCap = false ∧ bitEncStage s = .refuse .bufferFull) ∨
    (fits (66 + 8 * s.fb.length) s.params.bbCap = true ∧
      bitEncStage s = .done { s with bb := bitSequence s.fb, nrz := (encodedBits s.fb).2 }
        ((66 + 8 * s.fb.length : Nat) : Int)) := by
  unfold bitEncStage
  rw [bitSequence_length]
  cases fits (66 + 8 * s.fb.length) s.params.bbCap <;> simp

/-- AFSK.MOD's stage is refused for size or builds SB and leaves PH. -/
theorem afskModStage_cases (s : State) :
    (fits (320 * s.bb.length) s.params.sbCap = false ∧ afskModStage s = .refuse .bufferFull) ∨
    (fits (320 * s.bb.length) s.params.sbCap = true ∧
      afskModStage s = .done { s with sb := afskSamples 0 s.bb, ph := afskPhase 0 s.bb }
        ((320 * s.bb.length : Nat) : Int)) := by
  unfold afskModStage
  rw [afskSamples_length]
  cases fits (320 * s.bb.length) s.params.sbCap <;> simp

/-- WAV.WR's stage is refused for length or size, raises RangeError before the sink is asked, raises
IOError after, or writes the whole file and gives it to the sink. -/
theorem wavWrStage_cases (s : State) :
    (2 ^ 32 - 37 < 2 * s.sb.length ∧ wavWrStage s = .refuse .fileTooLong) ∨
    (2 * s.sb.length ≤ 2 ^ 32 - 37 ∧ fits (44 + 2 * s.sb.length) s.params.obCap = false ∧
      wavWrStage s = .refuse .bufferFull) ∨
    (2 * s.sb.length ≤ 2 ^ 32 - 37 ∧ fits (44 + 2 * s.sb.length) s.params.obCap = true ∧
      s.sb.all inRange16 = false ∧
      wavWrStage s = .raise .rangeError { s with status := setDone 0 s.status, ob := [] }) ∨
    (2 * s.sb.length ≤ 2 ^ 32 - 37 ∧ fits (44 + 2 * s.sb.length) s.params.obCap = true ∧
      s.sb.all inRange16 = true ∧ s.sinkOk = false ∧
      wavWrStage s = .raise .ioError { s.asked with status := setDone 0 s.status, ob := [] }) ∨
    (2 * s.sb.length ≤ 2 ^ 32 - 37 ∧ fits (44 + 2 * s.sb.length) s.params.obCap = true ∧
      s.sb.all inRange16 = true ∧ s.sinkOk = true ∧
      wavWrStage s = .done { s.asked with
        status := setDone 1 s.status, ob := waveFile s.sb,
        sinkFiles := s.sinkFiles ++ [waveFile s.sb] } ((44 + 2 * s.sb.length : Nat) : Int)) := by
  unfold wavWrStage
  by_cases hl : 2 ^ 32 - 37 < 2 * s.sb.length
  · exact .inl ⟨hl, by rw [if_pos hl]⟩
  · have hl' : 2 * s.sb.length ≤ 2 ^ 32 - 37 := Nat.le_of_not_lt hl
    rw [if_neg hl]
    refine .inr ?_
    cases hf : fits (44 + 2 * s.sb.length) s.params.obCap
    · exact .inl ⟨hl', rfl, by simp⟩
    · refine .inr ?_
      cases hr : s.sb.all inRange16
      · exact .inl ⟨hl', rfl, rfl, by simp⟩
      · refine .inr ?_
        cases hk : s.sinkOk
        · exact .inl ⟨hl', rfl, rfl, rfl, by simp⟩
        · exact .inr ⟨hl', rfl, rfl, rfl, by simp⟩

/-- A fault of WAV.WR's stage leaves all but STATUS, OB and the sink's answers alone. -/
theorem wavWrStage_raise {s t : State} {c : Cause} (h : wavWrStage s = .raise c t) :
    (c = .ioError ∨ c = .rangeError) ∧ t.opm = s.opm ∧ t.infom = s.infom ∧ t.npath = s.npath ∧
      t.sinkFiles = s.sinkFiles ∧ t.params = s.params ∧ t.inputs = s.inputs ∧
      statusRest t.status = statusRest s.status := by
  rcases wavWrStage_cases s with ⟨-, k⟩ | ⟨-, -, k⟩ | ⟨-, -, -, k⟩ | ⟨-, -, -, -, k⟩ | ⟨-, -, -, -, k⟩ <;>
    rw [k] at h <;> cases h <;> simp

/-- WAV.WR's stage ends done only with every sample in range, having given the sink the whole file. -/
theorem wavWrStage_done {s t : State} {v : Int} (h : wavWrStage s = .done t v) :
    t = { s.asked with
      status := setDone 1 s.status, ob := waveFile s.sb,
      sinkFiles := s.sinkFiles ++ [waveFile s.sb] } ∧
    v = ((44 + 2 * s.sb.length : Nat) : Int) ∧ s.sb.all inRange16 = true ∧
    fits (44 + 2 * s.sb.length) s.params.obCap = true := by
  rcases wavWrStage_cases s with ⟨-, k⟩ | ⟨-, -, k⟩ | ⟨-, -, -, k⟩ | ⟨-, -, -, -, k⟩ | ⟨-, hf, hr, -, k⟩ <;>
    rw [k] at h <;> cases h
  exact ⟨rfl, rfl, hr, hf⟩

/-- The fault of the address encoder is one of two. -/
theorem addrFault_cases {cs : List Byte} {ssid : Int} {c : Cause} (h : addrFault cs ssid = some c) :
    c = .encodingError ∨ c = .valueError := by
  unfold addrFault at h
  split at h
  · cases h; exact .inl rfl
  · split at h
    · cases h; exact .inr rfl
    · cases h

/-- Every command is the finish of some attempt, so what holds of every finish holds of every command. -/
theorem exec_finish (i : Instr) (s : State) : ∃ a : Attempt, exec i s = a.finish := by
  cases i <;> simp only [exec, execClr, execRd, execMrd, execEncode, execOpClr, execLdCs,
    execLdNp, execLdInfo, execCrcInit, execCrcUpd, execCrcFin, execAddrEnc, execFbPut,
    execFrmBuild, execNrzRst, execNrzBit, execBbPut, execBitEnc, execPhLd, execToneRun,
    execAfskMod, execSbPut, execNorm, execHpfRst, execHpfStep, execHpf, execWavWr] <;> exact
    ⟨_, rfl⟩

end Sys2Proof.Machine
end

