-- ==== Sys2Proof/Laws/Range.lean ====
section
/-! SUPPORT. The filter on the block's own tone sequences (spec/45_postprocess.md R218, R221): how far
consecutive samples of a phase-continuous tone sequence lie apart, what the normaliser and the filter
make of such a sequence, and that the filter's outputs stay in the 16-bit range. -/

namespace Sys2Proof.Machine

/-! ## The sample function is within one of the real sine -/

theorem quarterSample_near {k : Nat} (h : k ≤ 24000) :
    |(quarterSample k : ℝ) - 32767 / 50 * Real.sin (2 * Real.pi * k / 96000)| < 1 := by
  obtain ⟨h1, h2⟩ := quarterSample_sine h
  rw [abs_lt]
  constructor <;> linarith

theorem sampleAt_near {k : Nat} (h : k < 96000) :
    |(sampleAt k : ℝ) - 32767 / 50 * Real.sin (2 * Real.pi * k / 96000)| < 1 := by
  unfold sampleAt
  split
  · exact quarterSample_near ‹_›
  split
  · rename_i h1 h2
    have := quarterSample_near (k := 48000 - k) (by omega)
    have he : 2 * Real.pi * ((48000 - k : Nat) : ℝ) / 96000 = Real.pi - 2 * Real.pi * k / 96000 := by
      rw [Nat.cast_sub h2]; push_cast; ring
    rwa [he, Real.sin_pi_sub] at this
  split
  · rename_i h1 h2 h3
    have := quarterSample_near (k := k - 48000) (by omega)
    have he : 2 * Real.pi * ((k - 48000 : Nat) : ℝ) / 96000 = 2 * Real.pi * k / 96000 - Real.pi := by
      rw [Nat.cast_sub (by omega)]; push_cast; ring
    rw [he, Real.sin_sub_pi] at this
    push_cast
    rw [abs_sub_comm]
    convert this using 1
    congr 1
    ring
  · rename_i h1 h2 h3
    have := quarterSample_near (k := 96000 - k) (by omega)
    have he : 2 * Real.pi * ((96000 - k : Nat) : ℝ) / 96000 = 2 * Real.pi - 2 * Real.pi * k / 96000 := by
      rw [Nat.cast_sub (by omega)]; push_cast; ring
    rw [he, Real.sin_two_pi_sub] at this
    push_cast
    rw [abs_sub_comm]
    convert this using 1
    congr 1
    ring

/-- A sample's magnitude is at most 655, 655.34 truncated. -/
theorem quarterSample_range {k : Nat} (h : k ≤ 24000) : 0 ≤ quarterSample k ∧ quarterSample k ≤ 655 := by
  obtain ⟨h1, h2⟩ := quarterSample_sine h
  have hk : (k : ℝ) ≤ 24000 := by exact_mod_cast h
  have hk0 : (0 : ℝ) ≤ k := by positivity
  have hs : 0 ≤ Real.sin (2 * Real.pi * k / 96000) := by
    apply Real.sin_nonneg_of_nonneg_of_le_pi
    · have := Real.pi_pos; positivity
    · have := Real.pi_pos; nlinarith
  have h3 := Real.sin_le_one (2 * Real.pi * k / 96000)
  constructor
  · have : (-1 : ℝ) < quarterSample k := by linarith
    have : (-1 : Int) < quarterSample k := by exact_mod_cast this
    omega
  · have : (quarterSample k : ℝ) < 656 := by linarith
    have : quarterSample k < 656 := by exact_mod_cast this
    omega

theorem sampleAt_natAbs_le {k : Nat} (h : k < 96000) : (sampleAt k).natAbs ≤ 655 := by
  unfold sampleAt
  split
  · have := quarterSample_range (k := k) (by omega); omega
  split
  · have := quarterSample_range (k := 48000 - k) (by omega); omega
  split
  · have := quarterSample_range (k := k - 48000) (by omega); omega
  · have := quarterSample_range (k := 96000 - k) (by omega); omega

/-! ## Steps of a tone sequence -/

/-- The angle of `f` in 1/SAMPLE_RATE turns. -/
noncomputable def turn (f : Nat) : ℝ := 2 * Real.pi * f / 96000

theorem sin_advance (p : Phase) (f : Nat) (a : ℝ) :
    Real.sin (turn (advance p f 1).val + a) = Real.sin (turn p.val + turn f + a) := by
  have h : (advance p f 1).val + 96000 * ((p.val + f) / 96000) = p.val + f := by
    rw [advance_val, Nat.mul_one]
    exact Nat.mod_add_div _ _
  have h' : ((advance p f 1).val : ℝ) + 96000 * ((p.val + f) / 96000 : Nat) = p.val + f := by exact_mod_cast h
  have he : turn p.val + turn f + a =
      turn (advance p f 1).val + a + ((p.val + f) / 96000 : Nat) * (2 * Real.pi) := by
    unfold turn
    have : (p.val : ℝ) = (advance p f 1).val + 96000 * ((p.val + f) / 96000 : Nat) - f := by linarith
    rw [this]; ring
  rw [he, Real.sin_add_nat_mul_two_pi]

/-- The tones' angles and the sizes that the bounds below rest on. -/
theorem turn_bounds {f : Nat} (hf : f = 1600 ∨ f = 1800) : 0.1047 ≤ turn f ∧ turn f ≤ 0.11782 := by
  have h1 := Real.pi_gt_d20
  have h2 := Real.pi_lt_d20
  unfold turn
  rcases hf with rfl | rfl <;> constructor <;> norm_num <;> linarith

/-- One step of a tone changes the sine by at most the tone's angle. -/
theorem sin_first (b φ : ℝ) (h0 : 0 ≤ φ) : |Real.sin (b + φ) - Real.sin b| ≤ φ := by
  have := Real.abs_sin_sub_sin_le (b + φ) b
  rwa [add_sub_cancel_left, abs_of_nonneg h0] at this

/-- Two steps, with angles up to 0.1179 and less than 0.0132 apart. -/
theorem sin_second (b φ ψ : ℝ) (hφ : 0.1047 ≤ φ ∧ φ ≤ 0.11782) (hψ : 0.1047 ≤ ψ ∧ ψ ≤ 0.11782) :
    |Real.sin (b + ψ) - 2 * Real.sin b + Real.sin (b - φ)| ≤ 0.02701 := by
  have e : Real.sin (b + ψ) - 2 * Real.sin b + Real.sin (b - φ) =
      Real.sin b * (Real.cos ψ - 1 + (Real.cos φ - 1)) + Real.cos b * (Real.sin ψ - Real.sin φ) := by
    rw [Real.sin_add, Real.sin_sub]; ring
  have c1 := Real.one_sub_sq_div_two_le_cos (x := ψ)
  have c2 := Real.one_sub_sq_div_two_le_cos (x := φ)
  have c3 := Real.cos_le_one ψ
  have c4 := Real.cos_le_one φ
  have hd := Real.abs_sin_sub_sin_le ψ φ
  have hd' : |ψ - φ| ≤ 0.01312 := by rw [abs_le]; constructor <;> linarith
  have hcos : |Real.cos ψ - 1 + (Real.cos φ - 1)| ≤ 0.01389 := by
    rw [abs_le]
    constructor
    · nlinarith
    · linarith
  rw [e]
  calc |Real.sin b * (Real.cos ψ - 1 + (Real.cos φ - 1)) + Real.cos b * (Real.sin ψ - Real.sin φ)|
      ≤ |Real.sin b| * |Real.cos ψ - 1 + (Real.cos φ - 1)| + |Real.cos b| * |Real.sin ψ - Real.sin φ| := by
        rw [← abs_mul, ← abs_mul]; exact abs_add_le _ _
    _ ≤ 1 * 0.01389 + 1 * 0.01312 := by
        gcongr
        · exact Real.abs_sin_le_one b
        · exact Real.abs_cos_le_one b
        · exact hd.trans hd'
    _ ≤ 0.02701 := by norm_num

/-- How far a sample lies from the one before it and from the line through the two before it. -/
theorem sample_steps {p0 p1 p2 : Phase} {f g : Nat} (hf : f = 1600 ∨ f = 1800) (hg : g = 1600 ∨ g = 1800)
    (h1 : p1 = advance p0 f 1) (h2 : p2 = advance p1 g 1) :
    (sampleAt p2.val - sampleAt p1.val).natAbs ≤ 79 ∧
      (sampleAt p2.val - 2 * sampleAt p1.val + sampleAt p0.val).natAbs ≤ 21 := by
  have n0 := sampleAt_near p0.isLt
  have n1 := sampleAt_near p1.isLt
  have n2 := sampleAt_near p2.isLt
  have s1 : Real.sin (turn p0.val) = Real.sin (turn p1.val - turn f) := by
    have := sin_advance p0 f (-turn f)
    rw [← h1] at this
    rw [sub_eq_add_neg, this]
    congr 1; ring
  have s2 : Real.sin (turn p2.val) = Real.sin (turn p1.val + turn g) := by
    have := sin_advance p1 g 0
    rwa [← h2, add_zero, add_zero] at this
  change |(sampleAt p0.val : ℝ) - 32767 / 50 * Real.sin (turn p0.val)| < 1 at n0
  change |(sampleAt p1.val : ℝ) - 32767 / 50 * Real.sin (turn p1.val)| < 1 at n1
  change |(sampleAt p2.val : ℝ) - 32767 / 50 * Real.sin (turn p2.val)| < 1 at n2
  have d1 := sin_first (turn p1.val) (turn g) (by linarith [(turn_bounds hg).1])
  have d2 := sin_second (turn p1.val) (turn f) (turn g) (turn_bounds hf) (turn_bounds hg)
  have hb := (turn_bounds hg).2
  rw [← s2] at d1 d2
  rw [← s1] at d2
  rw [abs_lt] at n0 n1 n2
  rw [abs_le] at d1 d2
  constructor
  · have a1 : ((sampleAt p2.val - sampleAt p1.val : Int) : ℝ) < 80 := by push_cast; linarith
    have a2 : (-80 : ℝ) < (sampleAt p2.val - sampleAt p1.val : Int) := by push_cast; linarith
    have a1' : sampleAt p2.val - sampleAt p1.val < 80 := by exact_mod_cast a1
    have a2' : -80 < sampleAt p2.val - sampleAt p1.val := by exact_mod_cast a2
    omega
  · have a1 : ((sampleAt p2.val - 2 * sampleAt p1.val + sampleAt p0.val : Int) : ℝ) < 22 := by
      push_cast; linarith
    have a2 : (-22 : ℝ) < (sampleAt p2.val - 2 * sampleAt p1.val + sampleAt p0.val : Int) := by
      push_cast; linarith
    have a1' : sampleAt p2.val - 2 * sampleAt p1.val + sampleAt p0.val < 22 := by exact_mod_cast a1
    have a2' : -22 < sampleAt p2.val - 2 * sampleAt p1.val + sampleAt p0.val := by exact_mod_cast a2
    omega

/-! ## Smooth sequences -/

/-- The sequence goes on from the samples `x'` and `x` with values up to `a`, first differences up to
`d` and second differences up to `e`. -/
def Smooth (a d e : Nat) : Int → Int → List Int → Prop
  | _, _, [] => True
  | x', x, u :: l =>
    u.natAbs ≤ a ∧ (u - x).natAbs ≤ d ∧ (u - 2 * x + x').natAbs ≤ e ∧ Smooth a d e x u l

/-- The accumulator values of a run of tones: each follows from the one before by a tone of the block. -/
inductive Tones : Phase → List Phase → Phase → Prop
  | none (p : Phase) : Tones p [] p
  | one (p : Phase) (f : Nat) (l : List Phase) (q : Phase) (hf : f = 1600 ∨ f = 1800)
      (h : Tones (advance p f 1) l q) : Tones p (p :: l) q

theorem Tones.append {p q r : Phase} {l m : List Phase} (h1 : Tones p l q) (h2 : Tones q m r) :
    Tones p (l ++ m) r := by
  induction h1 with
  | none => exact h2
  | one p f l q hf _ ih => exact .one p f (l ++ m) r hf (ih h2)

theorem Tones.run (p : Phase) (f n : Nat) (hf : f = 1600 ∨ f = 1800) :
    Tones p ((List.range n).map (advance p f)) (advance p f n) := by
  induction n generalizing p with
  | zero =>
    have : advance p f 0 = p := by apply Fin.ext; simp [Nat.mod_eq_of_lt p.isLt]
    rw [this]
    exact .none p
  | succ n ih =>
    have h0 : advance p f 0 = p := by apply Fin.ext; simp [Nat.mod_eq_of_lt p.isLt]
    have h := ih (advance p f 1)
    rw [advance_add, Nat.add_comm 1 n] at h
    rw [List.range_succ_eq_map, List.map_cons, List.map_map, h0]
    refine .one p f _ _ hf ?_
    convert h using 2
    funext t
    simp [advance_add, Nat.add_comm 1 t]

theorem bitTone_cases (b : Bit) : bitTone b = 1600 ∨ bitTone b = 1800 := by
  unfold bitTone
  split <;> simp

/-- The samples of a bit sequence are those of a run of tones. -/
theorem afskSamples_tones (p : Phase) (bs : List Bit) :
    ∃ l, Tones p l (afskPhase p bs) ∧ afskSamples p bs = l.map fun q => sampleAt q.val := by
  induction bs generalizing p with
  | nil => exact ⟨[], .none p, rfl⟩
  | cons b bs ih =>
    obtain ⟨l, h1, h2⟩ := ih (advance p (bitTone b) cfg.spb)
    refine ⟨_, (Tones.run p (bitTone b) cfg.spb (bitTone_cases b)).append h1, ?_⟩
    rw [afskSamples, h2, toneRun, List.map_append, List.map_map]
    rfl

theorem Tones.smooth {p q : Phase} {l : List Phase} (h : Tones p l q) {p0 p1 : Phase} {f g : Nat}
    (hf : f = 1600 ∨ f = 1800) (hg : g = 1600 ∨ g = 1800) (h1 : p1 = advance p0 f 1)
    (h2 : p = advance p1 g 1) :
    Smooth 655 79 21 (sampleAt p0.val) (sampleAt p1.val) (l.map fun q => sampleAt q.val) := by
  induction h generalizing p0 p1 f g with
  | none => trivial
  | one p k l q hk _ ih =>
    obtain ⟨d1, d2⟩ := sample_steps hf hg h1 h2
    exact ⟨sampleAt_natAbs_le p.isLt, d1, d2, ih hg hk h2 rfl⟩

/-! ## The normaliser on a smooth sequence -/

theorem rescale_near (x : Int) : |(rescale 655 x : ℝ) - x * 32767 / 655| < 1 := by
  have h1 := Int.mul_tdiv_add_tmod (x * 32767) 655
  have h2 : (Int.tmod (x * 32767) 655).natAbs < 655 := by
    rw [Int.natAbs_tmod]
    exact Nat.mod_lt _ (by decide)
  have he : rescale 655 x = (x * 32767).tdiv 655 := rfl
  rw [he]
  generalize (x * 32767).tdiv 655 = q at *
  generalize (x * 32767).tmod 655 = r at *
  have h1' : (655 : ℝ) * q + r = x * 32767 := by exact_mod_cast h1
  have h3 : (r : ℝ) < 655 ∧ (-655 : ℝ) < r := by
    constructor
    · have : r < 655 := by omega
      exact_mod_cast this
    · have : -655 < r := by omega
      exact_mod_cast this
  rw [abs_lt]
  constructor
  · have : (q : ℝ) - x * 32767 / 655 = -r / 655 := by field_simp; linarith
    rw [this, lt_div_iff₀ (by norm_num)]; linarith
  · have : (q : ℝ) - x * 32767 / 655 = -r / 655 := by field_simp; linarith
    rw [this, div_lt_iff₀ (by norm_num)]; linarith

theorem rescale_natAbs_le {x : Int} (h : x.natAbs ≤ 655) : (rescale 655 x).natAbs ≤ 32767 := by
  have he : rescale 655 x = (x * 32767).tdiv 655 := rfl
  rw [he, Int.natAbs_tdiv, Int.natAbs_mul]
  refine Nat.div_le_of_le_mul ?_
  exact Nat.mul_le_mul_right _ h

theorem Smooth.rescale {x' x : Int} {l : List Int} (h : Smooth 655 79 21 x' x l) :
    Smooth 32767 4000 1100 (rescale 655 x') (rescale 655 x) (l.map (rescale 655)) := by
  induction l generalizing x' x with
  | nil => trivial
  | cons u l ih =>
    obtain ⟨h1, h2, h3, h4⟩ := h
    refine ⟨rescale_natAbs_le h1, ?_, ?_, ih h4⟩
    all_goals
      have n0 := rescale_near x'
      have n1 := rescale_near x
      have n2 := rescale_near u
      rw [abs_lt] at n0 n1 n2
      generalize Machine.rescale 655 x' = r0 at *
      generalize Machine.rescale 655 x = r1 at *
      generalize Machine.rescale 655 u = r2 at *
    · have b1 : u - x ≤ 79 := by omega
      have b2 : -79 ≤ u - x := by omega
      have b1' : (u : ℝ) - x ≤ 79 := by exact_mod_cast b1
      have b2' : (-79 : ℝ) ≤ (u : ℝ) - x := by exact_mod_cast b2
      have a1 : ((r2 - r1 : Int) : ℝ) < 4000 := by push_cast; linarith
      have a2 : (-4000 : ℝ) < (r2 - r1 : Int) := by push_cast; linarith
      have a1' : r2 - r1 < 4000 := by exact_mod_cast a1
      have a2' : -4000 < r2 - r1 := by exact_mod_cast a2
      omega
    · have b1 : u - 2 * x + x' ≤ 21 := by omega
      have b2 : -21 ≤ u - 2 * x + x' := by omega
      have b1' : (u : ℝ) - 2 * x + x' ≤ 21 := by exact_mod_cast b1
      have b2' : (-21 : ℝ) ≤ (u : ℝ) - 2 * x + x' := by exact_mod_cast b2
      have a1 : ((r2 - 2 * r1 + r0 : Int) : ℝ) < 1100 := by push_cast; linarith
      have a2 : (-1100 : ℝ) < (r2 - 2 * r1 + r0 : Int) := by push_cast; linarith
      have a1' : r2 - 2 * r1 + r0 < 1100 := by exact_mod_cast a1
      have a2' : -1100 < r2 - 2 * r1 + r0 := by exact_mod_cast a2
      omega

/-! ## The filter on a smooth sequence -/

theorem alpha_bounds : 0.9776055 < alpha ∧ alpha < 0.9776056 := by
  obtain ⟨h1, h2⟩ := alpha_digits
  unfold alphaDigits alphaScale at h1 h2
  push_cast at h1 h2
  constructor <;> nlinarith

theorem amul_natCast (n : Nat) : amul n = amulNat n := by
  unfold amul
  rcases Nat.eq_zero_or_pos n with rfl | h
  · rfl
  · rw [Int.sign_eq_one_of_pos (by omega), Int.natAbs_natCast, one_mul]

theorem amul_neg (k : Int) : amul (-k) = -amul k := by
  simp [amul]

theorem amul_near (k : Int) : |(amul k : ℝ) - alpha * k| < 1 := by
  have hn : ∀ n : Nat, |(amul n : ℝ) - alpha * n| < 1 := by
    intro n
    obtain ⟨h1, h2⟩ := amulNat_floor n
    rw [amul_natCast, abs_lt]
    push_cast
    constructor <;> linarith
  obtain ⟨n, rfl | rfl⟩ := k.eq_nat_or_neg
  · exact_mod_cast hn n
  · have := hn n
    rw [amul_neg, abs_sub_comm]
    push_cast
    convert this using 1
    congr 1
    ring

/-- What the filter's error is measured against: the output that would follow the input at once, less
the part that a steady slope adds. -/
noncomputable def lag (x' x y : ℝ) : ℝ :=
  y - 2 * alpha / (1 + alpha) * x + alpha * (1 - alpha) / (1 + alpha) ^ 2 * (x - x')

theorem lag_step (x' x y u y' : ℝ) :
    lag x u y' = -alpha * lag x' x y - alpha * (alpha * (1 - alpha) / (1 + alpha) ^ 2) * (u - 2 * x + x') +
      (y' - alpha * (x + u - y)) := by
  have h : (1 + alpha) ≠ 0 := by linarith [alpha_pos]
  unfold lag
  field_simp
  ring

theorem lag_coefficients : 0 < 2 * alpha / (1 + alpha) ∧ 2 * alpha / (1 + alpha) < 0.98868 ∧
    0 < alpha * (1 - alpha) / (1 + alpha) ^ 2 ∧ alpha * (1 - alpha) / (1 + alpha) ^ 2 < 0.0056 := by
  obtain ⟨h1, h2⟩ := alpha_bounds
  refine ⟨by positivity, ?_, ?_, ?_⟩
  · rw [div_lt_iff₀ (by linarith)]; linarith
  · have : 0 < 1 - alpha := by linarith
    positivity
  · rw [div_lt_iff₀ (by positivity)]; nlinarith

/-- From a smooth sequence the filter's outputs stay in the range of a full-scale sample. -/
theorem filterOut_smooth {l : List Int} {r : FilterRegs} {x' : Int} (hs : Smooth 32767 4000 1100 x' r.xp l)
    (hv : r.yv = 1) (hw : |lag x' r.xp r.yp| ≤ 320) (hx : r.xp.natAbs ≤ 32767) (hy : r.yp.natAbs ≤ 32767) :
    ∀ y ∈ filterOut r l, y.natAbs ≤ 32767 := by
  induction l generalizing r x' with
  | nil => simp [filterOut]
  | cons u l ih =>
    obtain ⟨h1, h2, h3, h4⟩ := hs
    have hstep : filterStep r u = ⟨u, amul (r.xp + u - r.yp), 1⟩ := by simp [filterStep, hv]
    have hn := amul_near (r.xp + u - r.yp)
    obtain ⟨c1, c2, c3, c4⟩ := lag_coefficients
    obtain ⟨a1, a2⟩ := alpha_bounds
    generalize hyv : amul (r.xp + u - r.yp) = y' at *
    have hlag := lag_step x' r.xp r.yp u y'
    push_cast at hn
    have b3 : |((u : ℝ) - 2 * r.xp + x')| ≤ 1100 := by
      have : |u - 2 * r.xp + x'| ≤ 1100 := abs_le.2 ⟨by omega, by omega⟩
      exact_mod_cast this
    have b2 : |((u : ℝ) - r.xp)| ≤ 4000 := by
      have : |u - r.xp| ≤ 4000 := abs_le.2 ⟨by omega, by omega⟩
      exact_mod_cast this
    have b1 : |(u : ℝ)| ≤ 32767 := by
      have : |u| ≤ 32767 := abs_le.2 ⟨by omega, by omega⟩
      exact_mod_cast this
    have hw' : |lag r.xp u y'| ≤ 320 := by
      rw [hlag]
      have g1 : |-alpha * lag x' r.xp r.yp| ≤ 0.9776056 * 320 := by
        rw [abs_mul, abs_neg, abs_of_pos alpha_pos]
        exact mul_le_mul a2.le hw (abs_nonneg _) (by norm_num)
      have g2 : |alpha * (alpha * (1 - alpha) / (1 + alpha) ^ 2) * (u - 2 * r.xp + x')| ≤
          0.9776056 * 0.0056 * 1100 := by
        rw [abs_mul, abs_mul, abs_of_pos alpha_pos, abs_of_pos c3]
        gcongr
      rw [abs_le] at g1 g2 ⊢
      rw [abs_lt] at hn
      constructor <;> linarith
    have hy' : y'.natAbs ≤ 32767 := by
      have g3 : |2 * alpha / (1 + alpha) * u| ≤ 0.98868 * 32767 := by
        rw [abs_mul, abs_of_pos c1]
        gcongr
      have g4 : |alpha * (1 - alpha) / (1 + alpha) ^ 2 * (u - r.xp)| ≤ 0.0056 * 4000 := by
        rw [abs_mul, abs_of_pos c3]
        gcongr
      have he : (y' : ℝ) = lag r.xp u y' + 2 * alpha / (1 + alpha) * u -
          alpha * (1 - alpha) / (1 + alpha) ^ 2 * (u - r.xp) := by unfold lag; ring
      rw [abs_le] at g3 g4 hw'
      have e1 : (y' : ℝ) < 32768 := by linarith
      have e2 : (-32768 : ℝ) < y' := by linarith
      have e1' : y' < 32768 := by exact_mod_cast e1
      have e2' : -32768 < y' := by exact_mod_cast e2
      omega
    intro y hmem
    simp only [filterOut, hstep, List.mem_cons] at hmem
    rcases hmem with rfl | hmem
    · exact hy'
    · exact ih (r := ⟨u, y', 1⟩) h4 rfl hw' h1 hy' y hmem

/-! ## A tone sequence that starts with a space tone -/

/-- A bit sequence that starts with 0 gives samples of largest magnitude 655: sample 15 of 1600 Hz is
a quarter turn on. -/
theorem maxAbs_afsk (bs : List Bit) : maxAbs (afskSamples 0 (0#1 :: bs)) = 655 := by
  obtain ⟨l, hl, he⟩ := afskSamples_tones 0 (0#1 :: bs)
  have hle : ∀ x ∈ afskSamples 0 (0#1 :: bs), x.natAbs ≤ 655 := by
    intro x hx
    rw [he] at hx
    obtain ⟨q, -, rfl⟩ := List.mem_map.1 hx
    exact sampleAt_natAbs_le q.isLt
  have hmem : (655 : Int) ∈ afskSamples 0 (0#1 :: bs) := by
    rw [afskSamples]
    refine List.mem_append_left _ (List.mem_map.2 ⟨15, by simp [cfg], ?_⟩)
    have : (advance 0 (bitTone 0#1) 15).val = 24000 := by decide
    rw [this]
    decide +kernel
  apply Nat.le_antisymm
  · by_cases h0 : maxAbs (afskSamples 0 (0#1 :: bs)) = 0
    · omega
    · obtain ⟨x, hx, hm⟩ := maxAbs_attained _ h0
      rw [← hm]
      exact hle x hx
  · exact natAbs_le_maxAbs hmem

/-- The filter's outputs on the normalised samples of such a bit sequence are in the range of a
full-scale sample. -/
theorem filtered_afsk_natAbs_le (bs : List Bit) :
    ∀ y ∈ filterOut .initial (normalise (afskSamples 0 (0#1 :: bs))), y.natAbs ≤ 32767 := by
  have hm := maxAbs_afsk bs
  obtain ⟨l, hl, he⟩ := afskSamples_tones 0 (0#1 :: bs)
  have hn : normalise (afskSamples 0 (0#1 :: bs)) = (afskSamples 0 (0#1 :: bs)).map (rescale 655) := by
    unfold normalise
    rw [hm]
    rfl
  rw [hn, he]
  generalize afskPhase 0 (0#1 :: bs) = e at hl
  generalize hz : (0 : Phase) = z at hl
  cases hl with
  | none =>
    have := congrArg List.length he
    simp at this
  | one p f l q hf h =>
    subst hz
    have h0 : sampleAt (0 : Phase).val = 0 := by decide +kernel
    have hr0 : rescale 655 0 = 0 := by decide
    have hprev : (0 : Phase) = advance 94400 1600 1 := by decide
    have hs := (h.smooth (p0 := 94400) (p1 := 0) (.inl rfl) hf hprev rfl).rescale
    rw [h0, hr0] at hs
    have hstep : filterStep .initial 0 = ⟨0, 0, 1⟩ := by
      simp [filterStep, FilterRegs.initial, amul]
    intro y hy
    rw [List.map_cons, List.map_cons, h0, hr0, filterOut, hstep] at hy
    rcases List.mem_cons.1 hy with rfl | hy
    · decide
    · refine filterOut_smooth (r := ⟨0, 0, 1⟩) hs rfl ?_ (by decide) (by decide) y hy
      obtain ⟨-, -, c3, c4⟩ := lag_coefficients
      have hb := rescale_natAbs_le (sampleAt_natAbs_le (94400 : Phase).isLt)
      generalize rescale 655 (sampleAt (94400 : Phase).val) = x' at hb ⊢
      have hb' : |(x' : ℝ)| ≤ 32767 := by
        have : |x'| ≤ 32767 := abs_le.2 ⟨by omega, by omega⟩
        exact_mod_cast this
      have hl : lag x' ((0 : Int) : ℝ) ((0 : Int) : ℝ) = -(alpha * (1 - alpha) / (1 + alpha) ^ 2 * x') := by
        unfold lag; push_cast; ring
      show |lag x' ((0 : Int) : ℝ) ((0 : Int) : ℝ)| ≤ 320
      rw [hl, abs_neg, abs_mul, abs_of_pos c3]
      calc alpha * (1 - alpha) / (1 + alpha) ^ 2 * |(x' : ℝ)| ≤ 0.0056 * 32767 :=
            mul_le_mul c4.le hb' (abs_nonneg _) (by norm_num)
        _ ≤ 320 := by norm_num

end Sys2Proof.Machine
end

