-- ==== Sys2Proof/Laws/Encode.lean ====
section
/-! SUPPORT. The stages of ENCODE together (spec/47_system.md R262): what its last stage finds, and
that the samples it finds there are always in the 16-bit range. -/

namespace Sys2Proof.Machine

/-! ## What is ASCII -/

theorem any_nonAscii {cs : List Byte} : cs.any nonAscii = true ↔ ∃ c ∈ cs, 0x80 ≤ c.toNat := by
  simp [nonAscii]

/-- What FRM.BUILD checks is that the operands in use are ASCII. -/
theorem frameHasNonAscii_eq_false_iff (s : State) : frameHasNonAscii s = false ↔ operandsAscii s := by
  rw [← Bool.not_eq_true, frameHasNonAscii, Bool.or_eq_true, not_or, operandsAscii]
  refine and_congr ?_ (by rw [any_nonAscii]; rfl)
  rw [List.any_eq_true]
  simp only [callStrings, pathStrings, List.mem_cons, List.mem_map, List.mem_range]
  constructor
  · intro h k hk hn
    refine h ⟨s.opm.get k, ?_, any_nonAscii.2 hn⟩
    rcases k with _ | _ | k
    · exact .inr (.inl rfl)
    · exact .inl rfl
    · exact .inr (.inr ⟨k, by omega, by rw [Nat.add_comm]⟩)
  · rintro h ⟨cs, hc, hn⟩
    rcases hc with rfl | rfl | ⟨j, hj, rfl⟩
    · exact h 1 (by omega) (any_nonAscii.1 hn)
    · exact h 0 (by omega) (any_nonAscii.1 hn)
    · exact h (2 + j) (by omega) (any_nonAscii.1 hn)

/-! ## The filtered samples -/

/-- The filtered samples of a byte sequence: its bits modulated, normalised and filtered. -/
def filtered (bytes : List Byte) : List Int :=
  filterOut .initial (normalise (afskSamples 0 (bitSequence bytes)))

/-- A BitSequence starts with the 0 of the first sync pair. -/
theorem bitSequence_head (bytes : List Byte) : ∃ l, bitSequence bytes = 0#1 :: l := ⟨_, rfl⟩

theorem filtered_natAbs_le (bytes : List Byte) : ∀ y ∈ filtered bytes, y.natAbs ≤ 32767 := by
  obtain ⟨l, h⟩ := bitSequence_head bytes
  unfold filtered
  rw [h]
  exact filtered_afsk_natAbs_le l

theorem filtered_inRange (bytes : List Byte) : (filtered bytes).all inRange16 = true := by
  rw [List.all_eq_true]
  intro x hx
  have := filtered_natAbs_le bytes x hx
  simp [inRange16]
  omega

theorem filtered_length (bytes : List Byte) :
    (filtered bytes).length = 320 * (66 + 8 * bytes.length) := by
  simp [filtered]

/-- After a sample sequence that is not empty the filter's carried values are the last input, the last
output and 1. -/
theorem filterRegs_last (r : FilterRegs) {l : List Int} (h : l ≠ []) :
    filterRegs r l = ⟨l.getLastD 0, (filterOut r l).getLastD 0, 1⟩ := by
  induction l generalizing r with
  | nil => exact absurd rfl h
  | cons x l ih =>
    cases l with
    | nil => rfl
    | cons y l =>
      rw [filterRegs_cons, ih _ (by simp)]
      simp [filterOut]

/-! ## ENCODE before its last stage -/

/-- The cleared state with the results of the stages before WAV.WR put in. -/
def staged (s : State) (crc : BitVec 16) (nrz : Bit) (ph : Phase) (regs : FilterRegs) (fb : List Byte)
    (bb : List Bit) (sb : List Int) : State :=
  { s.cleared.setFilter regs with crc := crc, nrz := nrz, ph := ph, fb := fb, bb := bb, sb := sb }

/-- The state in which ENCODE's last stage, WAV.WR, starts on ASCII operands. -/
def modulated (s : State) : State :=
  staged s (crcRun 0xFFFF (checkedBytes s)) (encodedBits (framed (packet s))).2
    (afskPhase 0 (bitSequence (framed (packet s))))
    (filterRegs .initial (normalise (afskSamples 0 (bitSequence (framed (packet s))))))
    (framed (packet s)) (bitSequence (framed (packet s))) (filtered (framed (packet s)))

theorem staged_fields (s : State) (crc : BitVec 16) (nrz : Bit) (ph : Phase) (regs : FilterRegs)
    (fb : List Byte) (bb : List Bit) (sb : List Int) :
    (staged s crc nrz ph regs fb bb sb).sb = sb ∧
    (staged s crc nrz ph regs fb bb sb).status = 0 ∧
    (staged s crc nrz ph regs fb bb sb).ob = [] ∧
    (staged s crc nrz ph regs fb bb sb).npath = s.npath ∧
    (staged s crc nrz ph regs fb bb sb).opm = s.opm ∧
    (staged s crc nrz ph regs fb bb sb).infom = s.infom ∧
    (staged s crc nrz ph regs fb bb sb).inputs = s.inputs ∧
    (staged s crc nrz ph regs fb bb sb).sinkOk = s.sinkOk ∧
    (staged s crc nrz ph regs fb bb sb).sinkAnswers = s.sinkAnswers ∧
    (staged s crc nrz ph regs fb bb sb).sinkFiles = s.sinkFiles ∧
    (staged s crc nrz ph regs fb bb sb).freeCount = s.freeCount ∧
    (staged s crc nrz ph regs fb bb sb).params = s.params :=
  ⟨rfl, rfl, rfl, rfl, rfl, rfl, rfl, rfl, rfl, rfl, rfl, rfl⟩

theorem modulated_fields (s : State) :
    (modulated s).sb = filtered (framed (packet s)) ∧ (modulated s).status = 0 ∧ (modulated s).ob = [] ∧
    (modulated s).npath = s.npath ∧ (modulated s).opm = s.opm ∧ (modulated s).infom = s.infom ∧
    (modulated s).inputs = s.inputs ∧ (modulated s).sinkOk = s.sinkOk ∧
    (modulated s).sinkAnswers = s.sinkAnswers ∧ (modulated s).sinkFiles = s.sinkFiles ∧
    (modulated s).freeCount = s.freeCount ∧ (modulated s).params = s.params :=
  staged_fields s _ _ _ _ _ _ _

theorem staged_dataPath (s : State) (crc : BitVec 16) (nrz : Bit) (ph : Phase) (regs : FilterRegs)
    (fb : List Byte) (bb : List Bit) (sb : List Int) :
    (staged s crc nrz ph regs fb bb sb).crc = crc ∧ (staged s crc nrz ph regs fb bb sb).nrz = nrz ∧
    (staged s crc nrz ph regs fb bb sb).ph = ph ∧ (staged s crc nrz ph regs fb bb sb).filter = regs ∧
    (staged s crc nrz ph regs fb bb sb).fb = fb ∧ (staged s crc nrz ph regs fb bb sb).bb = bb :=
  ⟨rfl, rfl, rfl, rfl, rfl, rfl⟩

theorem modulated_dataPath (s : State) :
    (modulated s).crc = crcRun 0xFFFF (checkedBytes s) ∧
    (modulated s).nrz = (encodedBits (framed (packet s))).2 ∧
    (modulated s).ph = afskPhase 0 (bitSequence (framed (packet s))) ∧
    (modulated s).filter =
      filterRegs .initial (normalise (afskSamples 0 (bitSequence (framed (packet s))))) ∧
    (modulated s).fb = framed (packet s) ∧ (modulated s).bb = bitSequence (framed (packet s)) :=
  staged_dataPath s _ _ _ _ _ _ _

/-- A fault taken in WAV.WR leaves nothing of the stages. -/
theorem staged_faultEntry (s : State) (crc : BitVec 16) (nrz : Bit) (ph : Phase) (regs : FilterRegs)
    (fb : List Byte) (bb : List Bit) (sb : List Int) (c : Cause) :
    State.faultEntry { staged s crc nrz ph regs fb bb sb with
        status := setDone 0 (staged s crc nrz ph regs fb bb sb).status, ob := [] } c =
      s.cleared.faultEntry c ∧
    State.faultEntry { (staged s crc nrz ph regs fb bb sb).asked with
        status := setDone 0 (staged s crc nrz ph regs fb bb sb).status, ob := [] } c =
      s.asked.cleared.faultEntry c := by
  have h : setDone 0 0 = 0 := by decide
  constructor <;>
    simp only [State.faultEntry, State.clearDataPath, State.asked, State.cleared, staged, State.setFilter,
      h]

theorem modulated_length (s : State) :
    (modulated s).sb.length = 320 * (474 + 56 * s.npath + 8 * s.infom.length) := by
  rw [(modulated_fields s).1, filtered_length]
  simp
  omega

theorem packet_cleared (s : State) : packet s.cleared = packet s :=
  (packet_congr rfl rfl fun _ _ => rfl).1

theorem checkedBytes_cleared (s : State) : checkedBytes s.cleared = checkedBytes s :=
  (packet_congr rfl rfl fun _ _ => rfl).2.1

theorem normStage_of {s : State} {l : List Int} (h : s.sb = l) :
    normStage s = .done { s with sb := normalise l } (maxAbs l) := by
  subst h
  rfl

theorem hpfStage_of {s : State} {l : List Int} (h : s.sb = l) :
    hpfStage s =
      .done { s.setFilter (filterRegs .initial l) with sb := filterOut .initial l } l.length := by
  subst h
  rfl

/-- ENCODE is refused when the frame would not fit, raises EncodingError before any buffer is built, or
comes to WAV.WR. -/
theorem encodeStages_cases (s : State) :
    (fits (51 + 7 * s.npath + s.infom.length) s.params.fbCap = false ∧
      encodeStages s = .refuse .bufferFull) ∨
    (fits (51 + 7 * s.npath + s.infom.length) s.params.fbCap = true ∧ frameHasNonAscii s = true ∧
      encodeStages s = .raise .encodingError s.cleared) ∨
    (fits (51 + 7 * s.npath + s.infom.length) s.params.fbCap = true ∧ frameHasNonAscii s = false ∧
      fits (44 + 2 * (modulated s).sb.length) s.params.obCap = true ∧
      encodeStages s = wavWrStage (modulated s)) := by
  unfold encodeStages
  rcases frmBuildStage_cases s.cleared with ⟨h1, h⟩ | ⟨h1, h2, h⟩ | ⟨h1, h2, h⟩ <;> rw [h]
  · exact .inl ⟨h1, rfl⟩
  · exact .inr (.inl ⟨h1, h2, rfl⟩)
  · refine .inr (.inr ⟨h1, h2, ?_, ?_⟩)
    · have h1' : fits (51 + 7 * s.npath + s.infom.length) s.params.fbCap = true := h1
      have hf := file_fits (samples_fit (bits_fit h1'))
      rw [modulated_length]
      convert hf using 2
      omega
    · have hl : (framed (packet s)).length = 51 + 7 * s.npath + s.infom.length := by simp; omega
      have hb : fits (66 + 8 * (framed (packet s)).length) s.params.bbCap = true := by
        rw [hl]; exact bits_fit h1
      have hs : fits (320 * (bitSequence (framed (packet s))).length) s.params.sbCap = true := by
        rw [bitSequence_length]; exact samples_fit hb
      rw [andThen_done, packet_cleared, checkedBytes_cleared]
      generalize h1s : ({ s.cleared with
          crc := crcRun 0xFFFF (checkedBytes s), fb := framed (packet s) } : State) = s1
      have hfb : s1.fb = framed (packet s) := by rw [← h1s]
      have hp1 : s1.params = s.params := by rw [← h1s]; rfl
      rcases bitEncStage_cases s1 with ⟨k1, -⟩ | ⟨-, k⟩
      · rw [hfb, hp1] at k1
        exact absurd (hb.symm.trans k1) (by decide)
      rw [hfb] at k
      rw [k, andThen_done]
      generalize h2s : ({ s1 with
          fb := framed (packet s), bb := bitSequence (framed (packet s)),
          nrz := (encodedBits (framed (packet s))).2 } : State) = s2
      have hbb : s2.bb = bitSequence (framed (packet s)) := by rw [← h2s]
      have hp2 : s2.params = s.params := by rw [← h2s]; exact hp1
      rcases afskModStage_cases s2 with ⟨m1, -⟩ | ⟨-, m⟩
      · rw [hbb, hp2] at m1
        exact absurd (hs.symm.trans m1) (by decide)
      rw [hbb] at m
      rw [m, andThen_done]
      generalize h3s : ({ s2 with
          bb := bitSequence (framed (packet s)),
          sb := afskSamples 0 (bitSequence (framed (packet s))),
          ph := afskPhase 0 (bitSequence (framed (packet s))) } : State) = s3
      rw [normStage_of (by rw [← h3s] : s3.sb = afskSamples 0 (bitSequence (framed (packet s)))), andThen_done]
      generalize h4s : ({ s3 with
          sb := normalise (afskSamples 0 (bitSequence (framed (packet s)))) } : State) = s4
      rw [hpfStage_of (by rw [← h4s] : s4.sb = normalise (afskSamples 0 (bitSequence (framed (packet s))))),
        andThen_done]
      refine congrArg wavWrStage ?_
      unfold modulated filtered staged
      generalize filterRegs .initial (normalise (afskSamples 0 (bitSequence (framed (packet s))))) = regs
      generalize filterOut FilterRegs.initial (normalise (afskSamples 0 (bitSequence (framed (packet s))))) = out
      generalize normalise (afskSamples 0 (bitSequence (framed (packet s)))) = samples at h4s
      generalize afskSamples 0 (bitSequence (framed (packet s))) = tones at h3s
      generalize afskPhase 0 (bitSequence (framed (packet s))) = phase at h3s ⊢
      generalize (encodedBits (framed (packet s))).2 = last at h2s ⊢
      generalize bitSequence (framed (packet s)) = bits at h2s h3s ⊢
      generalize framed (packet s) = frame at h1s h2s ⊢
      generalize crcRun 0xFFFF (checkedBytes s) = crc at h1s ⊢
      subst h4s h3s h2s h1s
      rfl

end Sys2Proof.Machine
end

