-- ==== Sys2Proof/Laws/Memory.lean ====
section
/-! SUPPORT. OPM: read after append, and that an append keeps the canonical form. -/

namespace Sys2Proof.Machine

@[simp] theorem Memory.get_nil (k : Nat) : Memory.get [] k = [] := rfl

@[simp] theorem Memory.wf_nil : Memory.wf [] = true := rfl

/-- The slot appended to holds one character more. -/
theorem Memory.get_append_same (m : Memory) (k : Nat) (c : Byte) {lo : Nat}
    (h : Memory.risingFrom lo m = true) : (m.append k c).get k = m.get k ++ [c] := by
  induction m generalizing lo with
  | nil => simp [Memory.append, Memory.get]
  | cons p rest ih =>
    obtain ⟨j, str⟩ := p
    simp only [Memory.risingFrom, Bool.and_eq_true, decide_eq_true_eq] at h
    rcases Nat.lt_trichotomy j k with hj | rfl | hj
    · have hne : ¬ j = k := by omega
      have hnk : ¬ k < j := by omega
      simp [Memory.append, Memory.get, hne, hnk, ih h.2]
    · simp [Memory.append, Memory.get]
    · have hne : ¬ j = k := by omega
      have hempty : ∀ (r : Memory) (l : Nat), Memory.risingFrom l r = true → k < l → r.get k = [] := by
        intro r
        induction r with
        | nil => intro l _ _; rfl
        | cons q r ihr =>
          intro l hr hl
          obtain ⟨i, t⟩ := q
          simp only [Memory.risingFrom, Bool.and_eq_true, decide_eq_true_eq] at hr
          have : ¬ i = k := by omega
          simp [Memory.get, this, ihr (i + 1) hr.2 (by omega)]
      simp [Memory.append, Memory.get, hne, hj, hempty rest (j + 1) h.2 (by omega)]

/-- Every other slot is as it was. -/
theorem Memory.get_append_other (m : Memory) {k k' : Nat} (c : Byte) (hk : k' ≠ k) :
    (m.append k c).get k' = m.get k' := by
  induction m with
  | nil => simp [Memory.append, Memory.get, Ne.symm hk]
  | cons p rest ih =>
    obtain ⟨j, str⟩ := p
    by_cases hj : j = k
    · subst hj
      simp [Memory.append, Memory.get, Ne.symm hk]
    · by_cases hlt : k < j
      · simp [Memory.append, Memory.get, hj, hlt, Ne.symm hk]
      · simp only [Memory.append, hj, hlt, if_false, Memory.get, ih]

theorem Memory.append_rising (m : Memory) (k : Nat) (c : Byte) (lo : Nat) (hlo : lo ≤ k)
    (h : Memory.risingFrom lo m = true) : Memory.risingFrom lo (m.append k c) = true := by
  induction m generalizing lo with
  | nil => simp [Memory.append, Memory.risingFrom, hlo]
  | cons p rest ih =>
    obtain ⟨j, str⟩ := p
    simp only [Memory.risingFrom, Bool.and_eq_true, decide_eq_true_eq] at h
    by_cases hj : j = k
    · subst hj
      simp [Memory.append, Memory.risingFrom, h]
    · by_cases hlt : k < j
      · have : k + 1 ≤ j := hlt
        simp [Memory.append, Memory.risingFrom, hj, hlt, hlo, h, this]
      · simp [Memory.append, Memory.risingFrom, hj, hlt, h, ih (j + 1) (by omega) h.2]

/-- An append lists only the old pairs and the slot appended to. -/
theorem Memory.mem_append {m : Memory} {k : Nat} {c : Byte} {p : Nat × List Byte}
    (h : p ∈ m.append k c) : p ∈ m ∨ (p.1 = k ∧ p.2 = [c]) ∨ (∃ str, (k, str) ∈ m ∧ p = (k, str ++ [c])) := by
  induction m with
  | nil => simp [Memory.append] at h; simp [h]
  | cons q rest ih =>
    obtain ⟨j, str⟩ := q
    unfold Memory.append at h
    split at h
    · rename_i hj
      subst hj
      rcases List.mem_cons.1 h with rfl | h
      · exact .inr (.inr ⟨str, by simp⟩)
      · exact .inl (List.mem_cons_of_mem _ h)
    · split at h
      · rcases List.mem_cons.1 h with rfl | h
        · exact .inr (.inl ⟨rfl, rfl⟩)
        · exact .inl h
      · rcases List.mem_cons.1 h with rfl | h
        · simp
        · rcases ih h with h | h | ⟨t, h, hp⟩
          · exact .inl (List.mem_cons_of_mem _ h)
          · exact .inr (.inl h)
          · exact .inr (.inr ⟨t, List.mem_cons_of_mem _ h, hp⟩)

/-- An append keeps the canonical form. -/
theorem Memory.append_wf (m : Memory) (k : Nat) (c : Byte) (h : m.wf = true) :
    (m.append k c).wf = true := by
  simp only [Memory.wf, Bool.and_eq_true, List.all_eq_true] at h ⊢
  refine ⟨Memory.append_rising m k c 0 (Nat.zero_le k) h.1, fun p hp => ?_⟩
  rcases Memory.mem_append hp with hp | ⟨-, hp⟩ | ⟨str, -, rfl⟩
  · exact h.2 p hp
  · simp [hp]
  · simp

theorem Memory.wf_rising {m : Memory} (h : m.wf = true) : Memory.risingFrom 0 m = true := by
  simp only [Memory.wf, Bool.and_eq_true] at h
  exact h.1

/-- What a slot of a canonical OPM holds is what the list says of it. -/
theorem Memory.get_of_mem {m : Memory} {lo : Nat} (h : Memory.risingFrom lo m = true)
    {p : Nat × List Byte} (hp : p ∈ m) : m.get p.1 = p.2 ∧ lo ≤ p.1 := by
  induction m generalizing lo with
  | nil => simp at hp
  | cons q rest ih =>
    obtain ⟨j, str⟩ := q
    simp only [Memory.risingFrom, Bool.and_eq_true, decide_eq_true_eq] at h
    rcases List.mem_cons.1 hp with rfl | hp
    · simp [Memory.get, h.1]
    · obtain ⟨h1, h2⟩ := ih h.2 hp
      have : ¬ j = p.1 := by omega
      exact ⟨by simp [Memory.get, this, h1], by omega⟩

end Sys2Proof.Machine
end

