-- ==== Sys2Proof/Laws/PerInstr.lean ====
section
/-! SUPPORT. Per instruction: a command's word is one of the words of the command's own row of the
operation table (spec/30_encoding.md R93), whatever its operands. -/

namespace Sys2Proof.Laws.RowWord

/-- The row of the command's mnemonic covers the command's word. -/
def Statement (i : Instr) : Prop :=
  ∃ r ∈ opTable, r.mnemonic = i.mnemonic ∧ encode i &&& r.mask = r.pattern

/-- A word of two parts under a mask of two parts. -/
theorem masked {n m : Nat} (x mx : BitVec n) (y my : BitVec m) :
    (x ++ y) &&& (mx ++ my) = (x &&& mx) ++ (y &&& my) := BitVec.and_append

theorem clr : Statement .clr := ⟨⟨"CLR", 0x01000000, 0xFFFFFFFF⟩, by decide, rfl, by decide⟩

theorem rd (a : BitVec 8) : Statement (.rd a) := by
  refine ⟨⟨"RD", 0x02000000, 0xFFFFFF00⟩, by decide, rfl, ?_⟩
  have h := masked (0x02#8 ++ 0#16) (BitVec.allOnes 24) a 0#8
  simp only [BitVec.and_zero, BitVec.and_allOnes] at h
  exact h

theorem mrd (a : BitVec 3) (b : BitVec 21) : Statement (.mrd a b) := by
  refine ⟨⟨"MRD", 0x03000000, 0xFF000000⟩, by decide, rfl, ?_⟩
  have h := masked (0x03#8 ++ a) (BitVec.allOnes 8 ++ 0#3) b 0#21
  rw [masked 0x03#8 (BitVec.allOnes 8) a 0#3] at h
  simp only [BitVec.and_zero, BitVec.and_allOnes] at h
  exact h

theorem encode : Statement .encode := ⟨⟨"ENCODE", 0x04000000, 0xFFFFFFFF⟩, by decide, rfl, by decide⟩

theorem opClr : Statement .opClr := ⟨⟨"OP.CLR", 0x08000000, 0xFFFFFFFF⟩, by decide, rfl, by decide⟩

theorem ldCs (a b : BitVec 8) : Statement (.ldCs a b) := by
  refine ⟨⟨"LD.CS", 0x09000000, 0xFFFF0000⟩, by decide, rfl, ?_⟩
  have h := masked (0x09#8 ++ 0#8 ++ a) (BitVec.allOnes 16 ++ 0#8) b 0#8
  rw [masked (0x09#8 ++ 0#8) (BitVec.allOnes 16) a 0#8] at h
  simp only [BitVec.and_zero, BitVec.and_allOnes] at h
  exact h

theorem ldNp (a : BitVec 8) : Statement (.ldNp a) := by
  refine ⟨⟨"LD.NP", 0x0A000000, 0xFFFFFF00⟩, by decide, rfl, ?_⟩
  have h := masked (0x0A#8 ++ 0#16) (BitVec.allOnes 24) a 0#8
  simp only [BitVec.and_zero, BitVec.and_allOnes] at h
  exact h

theorem ldInfo (a : BitVec 8) : Statement (.ldInfo a) := by
  refine ⟨⟨"LD.INFO", 0x0B000000, 0xFFFFFF00⟩, by decide, rfl, ?_⟩
  have h := masked (0x0B#8 ++ 0#16) (BitVec.allOnes 24) a 0#8
  simp only [BitVec.and_zero, BitVec.and_allOnes] at h
  exact h

theorem crcInit : Statement .crcInit := ⟨⟨"CRC.INIT", 0x10000000, 0xFFFFFFFF⟩, by decide, rfl, by decide⟩

theorem crcUpd (a : BitVec 8) : Statement (.crcUpd a) := by
  refine ⟨⟨"CRC.UPD", 0x11000000, 0xFFFFFF00⟩, by decide, rfl, ?_⟩
  have h := masked (0x11#8 ++ 0#16) (BitVec.allOnes 24) a 0#8
  simp only [BitVec.and_zero, BitVec.and_allOnes] at h
  exact h

theorem crcFin : Statement .crcFin := ⟨⟨"CRC.FIN", 0x12000000, 0xFFFFFFFF⟩, by decide, rfl, by decide⟩

theorem addrEnc (a b : BitVec 8) : Statement (.addrEnc a b) := by
  refine ⟨⟨"ADDR.ENC", 0x20000000, 0xFFFF0000⟩, by decide, rfl, ?_⟩
  have h := masked (0x20#8 ++ 0#8 ++ a) (BitVec.allOnes 16 ++ 0#8) b 0#8
  rw [masked (0x20#8 ++ 0#8) (BitVec.allOnes 16) a 0#8] at h
  simp only [BitVec.and_zero, BitVec.and_allOnes] at h
  exact h

theorem fbPut (a : BitVec 8) : Statement (.fbPut a) := by
  refine ⟨⟨"FB.PUT", 0x30000000, 0xFFFFFF00⟩, by decide, rfl, ?_⟩
  have h := masked (0x30#8 ++ 0#16) (BitVec.allOnes 24) a 0#8
  simp only [BitVec.and_zero, BitVec.and_allOnes] at h
  exact h

theorem frmBuild : Statement .frmBuild := ⟨⟨"FRM.BUILD", 0x31000000, 0xFFFFFFFF⟩, by decide, rfl, by decide⟩

theorem nrzRst : Statement .nrzRst := ⟨⟨"NRZ.RST", 0x40000000, 0xFFFFFFFF⟩, by decide, rfl, by decide⟩

theorem nrzBit (a : BitVec 1) : Statement (.nrzBit a) := by
  refine ⟨⟨"NRZ.BIT", 0x41000000, 0xFFFFFFFE⟩, by decide, rfl, ?_⟩
  have h := masked (0x41#8 ++ 0#23) (BitVec.allOnes 31) a 0#1
  simp only [BitVec.and_zero, BitVec.and_allOnes] at h
  exact h

theorem bbPut (a : BitVec 1) : Statement (.bbPut a) := by
  refine ⟨⟨"BB.PUT", 0x42000000, 0xFFFFFFFE⟩, by decide, rfl, ?_⟩
  have h := masked (0x42#8 ++ 0#23) (BitVec.allOnes 31) a 0#1
  simp only [BitVec.and_zero, BitVec.and_allOnes] at h
  exact h

theorem bitEnc : Statement .bitEnc := ⟨⟨"BIT.ENC", 0x43000000, 0xFFFFFFFF⟩, by decide, rfl, by decide⟩

theorem phLd (a : BitVec 24) : Statement (.phLd a) := by
  refine ⟨⟨"PH.LD", 0x50000000, 0xFF000000⟩, by decide, rfl, ?_⟩
  have h := masked 0x50#8 (BitVec.allOnes 8) a 0#24
  simp only [BitVec.and_zero, BitVec.and_allOnes] at h
  exact h

theorem toneRun (a b : BitVec 12) : Statement (.toneRun a b) := by
  refine ⟨⟨"TONE.RUN", 0x51000000, 0xFF000000⟩, by decide, rfl, ?_⟩
  have h := masked (0x51#8 ++ a) (BitVec.allOnes 8 ++ 0#12) b 0#12
  rw [masked 0x51#8 (BitVec.allOnes 8) a 0#12] at h
  simp only [BitVec.and_zero, BitVec.and_allOnes] at h
  exact h

theorem afskMod : Statement .afskMod := ⟨⟨"AFSK.MOD", 0x52000000, 0xFFFFFFFF⟩, by decide, rfl, by decide⟩

theorem sbPut (a : BitVec 24) : Statement (.sbPut a) := by
  refine ⟨⟨"SB.PUT", 0x60000000, 0xFF000000⟩, by decide, rfl, ?_⟩
  have h := masked 0x60#8 (BitVec.allOnes 8) a 0#24
  simp only [BitVec.and_zero, BitVec.and_allOnes] at h
  exact h

theorem norm : Statement .norm := ⟨⟨"NORM", 0x61000000, 0xFFFFFFFF⟩, by decide, rfl, by decide⟩

theorem hpfRst : Statement .hpfRst := ⟨⟨"HPF.RST", 0x62000000, 0xFFFFFFFF⟩, by decide, rfl, by decide⟩

theorem hpfStep (a : BitVec 24) : Statement (.hpfStep a) := by
  refine ⟨⟨"HPF.STEP", 0x63000000, 0xFF000000⟩, by decide, rfl, ?_⟩
  have h := masked 0x63#8 (BitVec.allOnes 8) a 0#24
  simp only [BitVec.and_zero, BitVec.and_allOnes] at h
  exact h

theorem hpf : Statement .hpf := ⟨⟨"HPF", 0x64000000, 0xFFFFFFFF⟩, by decide, rfl, by decide⟩

theorem wavWr : Statement .wavWr := ⟨⟨"WAV.WR", 0x70000000, 0xFFFFFFFF⟩, by decide, rfl, by decide⟩

end Sys2Proof.Laws.RowWord
end

