-- ==== Sys2Proof/Tests/Slice0.lean ====
section
/-! SUPPORT. The model's own tests. Expected values are those of spec/95_test_vectors.md (named in each
test's comment) or of the rule named; the words are written out from the formats of
spec/30_encoding.md R91 and the codes of R93. After them, for every statement with hypotheses, states
and operands that meet them. -/

namespace Sys2Proof.Machine.Tests

/-! ## Helpers -/

/-- What the result port shows after a command, if it went on. -/
def shown (o : Host.Outcome State Fault Refusal) : Option Result :=
  match o with
  | .next s => s.result
  | _ => none

/-- A field of the next state, if there is one. -/
def field {α : Type} (o : Host.Outcome State Fault Refusal) (f : State → α) : Option α :=
  match o with
  | .next s => some (f s)
  | _ => none

/-- The command went on and ended in this fault. -/
def faulted (o : Host.Outcome State Fault Refusal) (c : Cause) : Bool :=
  match o with
  | .next s => s.result.bind Result.cause == some c.code
  | _ => false

/-- The command was refused for this reason. -/
def refusedWith (o : Host.Outcome State Fault Refusal) (r : Refusal) : Bool :=
  match o with
  | .refused q => q == r
  | _ => false

/-- Source `A`, destination `B`, no path, empty payload (V-FRM-1). -/
def small : State := { State.reset with opm := [(0, [0x41]), (1, [0x42])] }

/-- Size parameters at their least values (spec/00_scope.md R14): FB_CAP is 150, BB_CAP 1266,
SB_CAP 405120, OB_CAP 810284. -/
def least : SizeParams := ⟨some 8, some 2, some 85⟩

/-- A block of the least size. -/
def tight : State := { State.reset with params := least }

/-! ## The configuration and the table -/

theorem test_cfg_legal : cfg.legal = true := by decide

theorem test_params_legal : SizeParams.unbounded.legal = true ∧ least.legal = true ∧
    SizeParams.legal ⟨some 7, some 2, some 85⟩ = false := by decide

/-- The capacities of the least size, by hand from R66. -/
theorem test_capacities : least.fbCap = some 150 ∧ least.bbCap = some 1266 ∧
    least.sbCap = some 405120 ∧ least.obCap = some 810284 := by decide

/-- No word is covered by two rows: wherever two rows' masks meet, their patterns differ. -/
theorem test_rows_disjoint : opTable.Pairwise fun r q =>
    r.mask &&& q.mask &&& (r.pattern ^^^ q.pattern) ≠ 0 := by decide

theorem test_rows_count : opTable.length = 27 := by decide

/-! ## WellFormed: the one check, and terms it refuses -/

theorem smoke_mrd_last_space : (Instr.mrd 5#3 0#21).wf = true := by decide
theorem smoke_mrd_six : (Instr.mrd 6#3 0#21).wf = false := by decide
theorem smoke_mrd_seven : (Instr.mrd 7#3 5#21).wf = false := by decide

/-! ## Decoding: one written-out word per row -/

theorem decode_clr : decode 0b00000001000000000000000000000000#32 = .ok .clr := by decide
theorem decode_rd : decode 0b00000010000000000000000000100010#32 = .ok (.rd 34#8) := by decide
theorem decode_mrd : decode 0b00000011010000000000000100111111#32 = .ok (.mrd 2#3 319#21) := by decide
theorem decode_encode : decode 0b00000100000000000000000000000000#32 = .ok .encode := by decide
theorem decode_opClr : decode 0b00001000000000000000000000000000#32 = .ok .opClr := by decide
theorem decode_ldCs : decode 0b00001001000000000000000101000010#32 = .ok (.ldCs 1#8 0x42#8) := by decide
theorem decode_ldNp : decode 0b00001010000000000000000000000010#32 = .ok (.ldNp 2#8) := by decide
theorem decode_ldInfo : decode 0b00001011000000000000000000100001#32 = .ok (.ldInfo 0x21#8) := by decide
theorem decode_crcInit : decode 0b00010000000000000000000000000000#32 = .ok .crcInit := by decide
theorem decode_crcUpd : decode 0b00010001000000000000000000110001#32 = .ok (.crcUpd 0x31#8) := by decide
theorem decode_crcFin : decode 0b00010010000000000000000000000000#32 = .ok .crcFin := by decide
theorem decode_addrEnc : decode 0b00100000000000000000000100010000#32 = .ok (.addrEnc 1#8 16#8) := by decide
theorem decode_fbPut : decode 0b00110000000000000000000001111110#32 = .ok (.fbPut 0x7E#8) := by decide
theorem decode_frmBuild : decode 0b00110001000000000000000000000000#32 = .ok .frmBuild := by decide
theorem decode_nrzRst : decode 0b01000000000000000000000000000000#32 = .ok .nrzRst := by decide
theorem decode_nrzBit : decode 0b01000001000000000000000000000001#32 = .ok (.nrzBit 1#1) := by decide
theorem decode_bbPut : decode 0b01000010000000000000000000000001#32 = .ok (.bbPut 1#1) := by decide
theorem decode_bitEnc : decode 0b01000011000000000000000000000000#32 = .ok .bitEnc := by decide
theorem decode_phLd : decode 0b01010000000000010111011011111111#32 = .ok (.phLd 95999#24) := by decide
theorem decode_toneRun : decode 0b01010001011001000000000101000000#32 = .ok (.toneRun 1600#12 320#12) := by decide
theorem decode_afskMod : decode 0b01010010000000000000000000000000#32 = .ok .afskMod := by decide
theorem decode_sbPut : decode 0b01100000111111111111111111001110#32 = .ok (.sbPut (-50#24)) := by decide
theorem decode_norm : decode 0b01100001000000000000000000000000#32 = .ok .norm := by decide
theorem decode_hpfRst : decode 0b01100010000000000000000000000000#32 = .ok .hpfRst := by decide
theorem decode_hpfStep : decode 0b01100011111111111111111111001110#32 = .ok (.hpfStep (-50#24)) := by decide
theorem decode_hpf : decode 0b01100100000000000000000000000000#32 = .ok .hpf := by decide
theorem decode_wavWr : decode 0b01110000000000000000000000000000#32 = .ok .wavWr := by decide

/-- The refused words of V-SYS-2, each by name. -/
theorem decode_refuses :
    decode 0x00000000#32 = .error (.reservedOp 0x00#8) ∧
    decode 0x05000000#32 = .error (.reservedOp 0x05#8) ∧
    decode 0x01000001#32 = .error (.nonzeroField 0x01#8) ∧
    decode 0x41000002#32 = .error (.nonzeroField 0x41#8) ∧
    decode 0x11000100#32 = .error (.nonzeroField 0x11#8) ∧
    decode 0x20010000#32 = .error (.nonzeroField 0x20#8) ∧
    decode 0x03C00000#32 = .error (.reservedSelector 6#3) := by decide

/-- The host's two hooks on one word. -/
theorem decode_table_word : decodeTableWord 32 0x11000031 = some (.crcUpd 0x31#8) := by decide
theorem test_withFetchWord :
    shown (step (State.reset.withFetchWord 32 0x11000031)) = some (.done 0x2F8D) := by decide

/-! ## One or two steps per command, on the spec's vectors -/

/-- V-CRC-1. -/
theorem test_crcInit : field (exec .crcInit { small with crc := 0x1234 }) (fun s => s.crc) = some 0xFFFF := by decide
/-- V-CRC-3. -/
theorem test_crcUpd : shown (exec (.crcUpd 0x31) State.reset) = some (.done 0x2F8D) := by decide
/-- V-CRC-5. -/
theorem test_crcUpd_continues :
    shown (exec (.crcUpd 0x32) { State.reset with crc := 0x2F8D }) = some (.done 0x4D53) := by decide
/-- V-CRC-7. -/
theorem test_crcFin : shown (exec .crcFin { State.reset with crc := 0x6F91 }) = some (.done 0x906E) ∧
    field (exec .crcFin { State.reset with crc := 0x6F91 }) (fun s => s.crc) = some 0x6F91 := by decide
/-- V-ADDR-1. -/
theorem test_addrEnc : shown (exec (.addrEnc 0 0)
    { State.reset with opm := [(0, [0x49, 0x4F, 0x53, 0x50, 0x59, 0x31])] }) =
      some (.done 0x6062B2A0A69E92) := by decide
/-- V-ADDR-8 and V-ADDR-12. -/
theorem test_addrBytes :
    addrBytes [0x57, 0x49, 0x44, 0x45, 0x31, 0x2D, 0x31] 0 = [0xAE, 0x92, 0x88, 0x8A, 0x62, 0x5A, 0x60] ∧
    addrBytes [0x61, 0x7B, 0x7A, 0x60] 0 = [0x82, 0xF6, 0xB4, 0xC0, 0x40, 0x40, 0x60] := by decide
/-- R163. -/
theorem test_fbPut : field (exec (.fbPut 0x7E) { State.reset with fb := [1] }) (fun s => s.fb) =
    some [1, 0x7E] := by decide
/-- V-FRM-1. -/
theorem test_frmBuild : field (exec .frmBuild small) (fun s => (s.fb.drop 32, s.crc)) =
    some ([0x84, 0x40, 0x40, 0x40, 0x40, 0x40, 0x60, 0x82, 0x40, 0x40, 0x40, 0x40, 0x40, 0x61, 0x03, 0xF0,
      0x11, 0xD5, 0x7E], 0x2AEE) := by decide +kernel
/-- V-FRM-2: with a path entry the source's seventh byte is not marked. -/
theorem test_frmBuild_path : field (exec .frmBuild { State.reset with
      opm := [(0, [0x4E, 0x30, 0x43, 0x41, 0x4C, 0x4C]), (1, [0x41, 0x50, 0x52, 0x53]),
        (2, [0x57, 0x49, 0x44, 0x45, 0x31])], npath := 1, infom := [0x21] })
      (fun s => (s.fb.drop 45).take 14) =
    some [0x60, 0xAE, 0x92, 0x88, 0x8A, 0x62, 0x40, 0x61, 0x03, 0xF0, 0x21, 0x1D, 0x63, 0x7E] := by decide +kernel
/-- P6. -/
theorem test_nrzRst : shown (exec .nrzRst { State.reset with nrz := 0 }) = some (.done 1) := by decide
theorem test_nrzBit : shown (exec (.nrzBit 0) State.reset) = some (.done 0) ∧
    shown (exec (.nrzBit 1) { State.reset with nrz := 0 }) = some (.done 0) := by decide
/-- R177. -/
theorem test_bbPut : field (exec (.bbPut 1) { State.reset with bb := [0] }) (fun s => s.bb) =
    some [0, 1] := by decide
/-- V-NRZ-2. -/
theorem test_bitEnc : field (exec .bitEnc { State.reset with fb := [0x00, 0xFF] })
    (fun s => (s.bb.drop 62, s.nrz)) =
    some ([0, 1, 0, 1, 0, 1, 0, 1, 0, 1, 1, 1, 1, 1, 1, 1, 1, 1, 0, 1], 1) := by decide
/-- V-NRZ-1, the three rows that R179 speaks of. -/
theorem test_nrziRun :
    nrziRun 1 (byteBits 0x7E) = ([0, 0, 0, 0, 0, 0, 0, 1], 1) ∧
    nrziRun 0 (byteBits 0x00) = ([1, 0, 1, 0, 1, 0, 1, 0], 0) ∧
    nrziRun 0 (byteBits 0x84) = ([1, 0, 0, 1, 0, 1, 0, 0], 0) := by decide
/-- R193. -/
theorem test_phLd : field (exec (.phLd 95999) State.reset) (fun s => s.ph.val) = some 95999 := by decide
theorem test_phLd_refused : refusedWith (exec (.phLd 96000) State.reset) (.phaseTooLarge 96000) = true := by decide
/-- V-TONE-2. -/
theorem test_toneRun : field (exec (.toneRun 1800 5) State.reset) (fun s => (s.sb, s.ph.val)) =
    some ([0, 77, 152, 226, 297], 9000) := by decide +kernel
/-- V-TONE-1, row 4, with V-TONE-4: truncation toward zero below 0. -/
theorem test_toneRun_negative : field (exec (.toneRun 1800 12) { State.reset with ph := 32000 }) (fun s => s.sb) =
    some [567, 525, 475, 419, 356, 289, 218, 144, 68, -8, -85, -161] := by decide +kernel
/-- V-TONE-6. -/
theorem test_afskMod : field (exec .afskMod { State.reset with bb := [1, 0], ph := 5, sb := [9] })
    (fun s => ((s.sb.drop 316).take 10, s.ph.val)) =
    some ([-297, -226, -152, -77, 0, 68, 136, 202, 266, 327], 32000) := by decide +kernel
/-- P4. -/
theorem test_sbPut : field (exec (.sbPut (-50#24)) { State.reset with sb := [100] }) (fun s => s.sb) =
    some [100, -50] := by decide
/-- V-NORM-1 and V-NORM-8. -/
theorem test_norm : field (exec .norm { State.reset with sb := [100, -50, 25] }) (fun s => s.sb) =
    some [32767, -16383, 8191] := by decide
theorem test_norm_lowest : field (exec .norm { State.reset with sb := [32767, -32768] }) (fun s => s.sb) =
    some [32766, -32767] := by decide
/-- R223. -/
theorem test_hpfRst : field (exec .hpfRst { State.reset with xp := 3, yp := 4, yv := 1 })
    (fun s => (s.xp, s.yp, s.yv)) = some (0, 0, 0) := by decide
/-- V-HPF-7. -/
theorem test_hpfStep : field (exec (.hpfStep 8191) { State.reset with xp := -16383, yp := 16017, yv := 1 })
    (fun s => (s.xp, s.yp, s.yv)) = some (8191, -23666, 1) := by decide
/-- The first step's fallback, R219. -/
theorem test_hpfStep_first : field (exec (.hpfStep 32767) State.reset)
    (fun s => (s.xp, s.yp, s.yv)) = some (32767, 0, 1) := by decide
/-- V-HPF-3 and V-HPF-6. -/
theorem test_hpf : field (exec .hpf { State.reset with sb := [-1000, 2000, -3000, 4000] }) (fun s => s.sb) =
    some [0, 977, -1932, 2866] := by decide
theorem test_hpf_wide : field (exec .hpf
      { State.reset with sb := [32767, 32767, 32767, 32767, 32767, 32767], xp := 7, yp := 8, yv := 1 })
    (fun s => (s.sb, s.xp, s.yp, s.yv)) =
    some ([0, 64066, 1435, 62663, 2806, 61323], 32767, 61323, 1) := by decide
/-- V-WAV-3. -/
theorem test_wavWr : field (exec .wavWr { State.reset with sb := [0, 16017, -23666], sinkAnswers := [true] })
    (fun s => (s.ob, s.status, s.sb)) =
    some ([0x52, 0x49, 0x46, 0x46, 0x2A, 0x00, 0x00, 0x00, 0x57, 0x41, 0x56, 0x45, 0x66, 0x6D, 0x74, 0x20,
      0x10, 0x00, 0x00, 0x00, 0x01, 0x00, 0x01, 0x00, 0x00, 0x77, 0x01, 0x00, 0x00, 0xEE, 0x02, 0x00,
      0x02, 0x00, 0x10, 0x00, 0x64, 0x61, 0x74, 0x61, 0x06, 0x00, 0x00, 0x00,
      0x00, 0x00, 0x91, 0x3E, 0x8E, 0xA3], 8, [0, 16017, -23666]) := by decide
/-- V-WAV-4: the range is tested before the sink is asked. -/
theorem test_wavWr_faults :
    faulted (exec .wavWr { State.reset with sb := [40000], sinkAnswers := [false] }) .rangeError = true ∧
    faulted (exec .wavWr { State.reset with sb := [0], sinkAnswers := [false] }) .ioError = true := by decide
/-- R251. -/
theorem test_opClr : field (exec .opClr { small with infom := [1], npath := 2, fb := [3] })
    (fun s => (s.opm, s.infom, s.npath, s.fb)) = some ([], [], 0, [3]) := by decide
/-- R252. -/
theorem test_ldCs : field (exec (.ldCs 1 0x41) small) (fun s => s.opm) =
    some [(0, [0x41]), (1, [0x42, 0x41])] := by decide
theorem test_ldCs_full : refusedWith (exec (.ldCs 0 0x41)
    { tight with opm := [(0, [1, 2, 3, 4, 5, 6, 7, 8])] }) (.stringFull 0) = true := by decide
/-- R253. -/
theorem test_ldNp : field (exec (.ldNp 2) tight) (fun s => s.npath) = some 2 ∧
    refusedWith (exec (.ldNp 3) tight) (.pathTooLong 3) = true := by decide
/-- R254. -/
theorem test_ldInfo : shown (exec (.ldInfo 0x21) State.reset) = some (.done 1) := by decide
/-- R255: the operands stay. -/
theorem test_clr : field (exec .clr { small with crc := 1, nrz := 0, ph := 2, fb := [1], status := 3 })
    (fun s => (s.crc, s.nrz, s.ph.val, s.fb, s.status)) = some (0xFFFF, 1, 0, [], 0) ∧
    field (exec .clr small) (fun s => s.opm) = some small.opm := by decide
/-- V-SYS-1. -/
theorem test_rd : shown (exec (.rd 34) State.reset) = some (.done 320) ∧
    shown (exec (.rd 52) State.reset) = some (.done 1) := by decide
theorem test_rd_refused : refusedWith (exec (.rd 54) State.reset) (.reservedRegister 54) = true := by decide
/-- V-SYS-3: the destination's first character and its length. -/
theorem test_mrd : shown (exec (.mrd 5 0x100) small) = some (.done 0x42) ∧
    shown (exec (.mrd 5 0x1FF) small) = some (.done 1) := by decide
theorem test_mrd_refused : refusedWith (exec (.mrd 0 0) small) (.noSuchElement 0) = true := by decide
/-- V-FLT-1: the operand is kept, the cause is in ERR. -/
theorem test_encode_fault : faulted (exec .encode { State.reset with infom := [0x80], fb := [1] })
      .encodingError = true ∧
    field (exec .encode { State.reset with infom := [0x80], fb := [1] })
      (fun s => (s.status, s.fb, s.infom)) = some (1, [], [0x80]) := by decide

/-! ## Numbers -/

/-- V-HPF-1. -/
theorem test_amul : amul 44 = 43 ∧ amul 45 = 43 ∧ amul (-45) = -43 ∧ amul 16384 = 16017 ∧
    amul (-24209) = -23666 ∧ amul 317802 = 310685 := by decide

/-- Where the printed digits leave two integers, the search still gives the floor: the digits
themselves (spec/45_postprocess.md R217). -/
theorem test_amul_beyond_digits : amulLow (10 ^ 60) ≠ amulHigh (10 ^ 60) ∧
    amulNat (10 ^ 60) = 977605553158969140860597426297678859323570186493664269672287 := by
  refine ⟨by decide, ?_⟩
  obtain ⟨h1, h2⟩ := amulNat_floor (10 ^ 60)
  obtain ⟨d1, d2⟩ := alpha_digits
  have hs : ((10 ^ 60 : ℕ) : ℝ) = (alphaScale : ℝ) := rfl
  rw [hs] at h1 h2
  have a1 : (amulNat (10 ^ 60) : ℝ) < (alphaDigits : ℝ) + 1 := h1.trans_lt d2
  have a2 : (alphaDigits : ℝ) < (amulNat (10 ^ 60) : ℝ) + 1 := d1.trans h2
  have b1 : amulNat (10 ^ 60) < alphaDigits + 1 := by exact_mod_cast a1
  have b2 : alphaDigits < amulNat (10 ^ 60) + 1 := by exact_mod_cast a2
  exact le_antisymm (Nat.lt_succ_iff.1 b1) (Nat.lt_succ_iff.1 b2)
/-- V-TONE-4. -/
theorem test_sampleAt : sampleAt 200 = 8 ∧ sampleAt 48200 = -8 ∧ sampleAt 24000 = 655 ∧
    sampleAt 72000 = -655 := by decide +kernel

/-! ## Witnesses: states and operands that meet the statements' hypotheses

Each is named after its statement; where a statement has several clauses, each clause has its own
part, at a boundary of its range. -/

/-- The least size parameters of all, outside R14's bounds: FB_CAP is 51, BB_CAP 474, SB_CAP 151680,
OB_CAP 303404. -/
def least0 : SizeParams := ⟨some 0, some 0, some 0⟩

theorem witness_DecodeOfEncodeGivesTheCommand : (Instr.mrd 5#3 0x1FFFFF#21).wf = true := by decide

theorem witness_EncodeOfDecodeGivesTheWord : decode 0x51FFFFFF#32 = .ok (.toneRun 4095#12 4095#12) := by decide

theorem witness_DecodeAcceptsExactlyTheTableWords :
    decode 0x03BFFFFF#32 = .ok (.mrd 5#3 0x1FFFFF#21) ∧
    (∃ r ∈ opTable, (0x03BFFFFF#32) &&& r.mask = r.pattern ∧
      ¬(r.mnemonic = "MRD" ∧ 6 ≤ ((0x03BFFFFF#32).extractLsb' 21 3).toNat)) ∧
    (∃ r ∈ opTable, (0x70000000#32) &&& r.mask = r.pattern ∧ r.mnemonic ≠ "MRD") := by decide

theorem witness_ReservedWordsAreRefused :
    (∀ r ∈ opTable, (0x71000000#32) &&& r.mask ≠ r.pattern) ∧
    (opField 0x03C00000#32 = 0x03#8 ∧ 6 ≤ ((0x03C00000#32).extractLsb' 21 3).toNat) ∧
    State.inputs { State.reset with inputs := [.command 0x71000000] } = .command 0x71000000 :: [] := by decide

theorem witness_StepRunsTheDecodedCommand :
    State.inputs { State.reset with inputs := [.command 0x10000000] } = .command 0x10000000 :: [] ∧
    decode 0x10000000#32 = .ok .crcInit ∧ State.reset.inputs = [] := by decide

theorem witness_ResetAbandonsTheCommand :
    State.inputs { small with inputs := [.reset] } = .reset :: [] ∧
    State.inputs { small with inputs := [.resetDuring 0x04000000] } = .resetDuring 0x04000000 :: [] := by
  decide

theorem reset_inv : State.reset.Inv where
  opm_wf := rfl
  status_legal := ⟨by decide, by decide⟩
  output_whole := .inl ⟨by decide, rfl⟩
  filter_initial := fun _ => ⟨rfl, rfl⟩
  sizes_ok := ⟨rfl, nofun, rfl, rfl, rfl, rfl, rfl⟩
  sink_whole := nofun

/-- The least block after LD.CS and FB.PUT. -/
def working : State := { tight with opm := [(0, [0x41])], fb := [0x7E], yv := 1, xp := 5, yp := -5 }

theorem working_inv : working.Inv where
  opm_wf := by decide
  status_legal := ⟨by decide, by decide⟩
  output_whole := .inl ⟨by decide, rfl⟩
  filter_initial := fun h => absurd h (by decide)
  sizes_ok := ⟨by decide, by decide, by decide, by decide, by decide, by decide, by decide⟩
  sink_whole := nofun

theorem witness_StepKeepsTheInvariant :
    ∃ s t : State, s.Inv ∧ step s = .next t ∧ t.crc = 0x2F8D :=
  ⟨{ working with inputs := [.command 0x11000031] }, _,
    ⟨working_inv.1, working_inv.2, working_inv.3, working_inv.4, working_inv.5, working_inv.6⟩, rfl, by decide⟩

theorem witness_CompositeCommandsAreNotRefusedForSize :
    working.Inv ∧ 2 * working.sb.length ≤ 2 ^ 32 - 37 ∧
    640 * (474 + 56 * working.npath + 8 * working.infom.length) ≤ 2 ^ 32 - 37 :=
  ⟨working_inv, by decide, by decide⟩

theorem witness_CrcSequenceReturnsTheChecksum :
    State.inputs { State.reset with
      inputs := commandInputs (.crcInit :: ([0x31, 0x32].map .crcUpd ++ [.crcFin])) ++ [.reset] } =
    commandInputs (.crcInit :: ([0x31, 0x32].map .crcUpd ++ [.crcFin])) ++ [.reset] := rfl

theorem witness_AddrEncReturnsTheAddress :
    slotExists least 3 = true ∧
    (¬hasNonAscii (State.opm { tight with opm := [(3, [0x61, 0x7F])] } |>.get 3)) ∧ (15#8).toNat ≤ 15 := by
  refine ⟨by decide, ?_, by decide⟩
  rintro ⟨c, h, hc⟩
  simp [Memory.get] at h
  rcases h with rfl | rfl <;> simp at hc

theorem witness_AddressLayout : ¬hasNonAscii [0x61, 0x7F] ∧ 15 ≤ 15 := by
  refine ⟨?_, le_rfl⟩
  rintro ⟨c, h, hc⟩
  simp at h
  rcases h with rfl | rfl <;> simp at hc

theorem witness_AddrEncFaults :
    (slotExists least 0 = true ∧ hasNonAscii [0x41, 0x42, 0x43, 0x44, 0x45, 0x46, 0x80]) ∧
    (¬hasNonAscii [0x7F] ∧ 15 < (16#8).toNat) ∧
    (least.pathMax = some 2 ∧ 2 + 2 ≤ (4#8).toNat) := by
  refine ⟨⟨by decide, 0x80, by decide, by decide⟩, ⟨?_, by decide⟩, by decide⟩
  rintro ⟨c, h, hc⟩
  simp at h
  subst h
  simp at hc

theorem witness_PutCommandsAppend :
    fits (149 + 1) least.fbCap = true ∧ fits (150 + 1) least.fbCap = false ∧
    fits (1265 + 1) least.bbCap = true ∧ fits (1266 + 1) least.bbCap = false ∧
    fits (405119 + 1) least.sbCap = true ∧ fits (405120 + 1) least.sbCap = false ∧
    (∀ n, (List.replicate n (0 : Int)).length = n) ∧ (∀ n, (List.replicate n (0 : Byte)).length = n) := by
  refine ⟨by decide, by decide, by decide, by decide, by decide, by decide, ?_, ?_⟩ <;> simp

/-- The operands of V-FRM-1 are ASCII. -/
theorem small_ascii : operandsAscii small := by
  constructor
  · rintro k - ⟨c, h, hc⟩
    match k, h with
    | 0, h => simp [small, Memory.get] at h; subst h; simp at hc
    | 1, h => simp [small, Memory.get] at h; subst h; simp at hc
    | k + 2, h => simp [small, Memory.get] at h
  · rintro ⟨c, h, -⟩
    simp [small, State.reset] at h

/-- The same operands in a block that the shortest frame fills. -/
theorem witness_FrmBuildBuildsTheFrame :
    fits (51 + 7 * small.npath + small.infom.length) least0.fbCap = true ∧
    operandsAscii { small with params := least0 } ∧ 46 + 7 * small.npath < 51 :=
  ⟨by decide, small_ascii, by decide⟩

theorem witness_OnlyTheLastAddressByteIsMarked :
    ∃ t, operandsAscii small ∧ exec .frmBuild small = .next t ∧ 13 < 14 + 7 * small.npath :=
  ⟨_, small_ascii, rfl, by decide⟩

theorem witness_FrmBuildFaultsOnNonAscii :
    (fits (51 + 7 * 0 + 1) least.fbCap = true ∧ ¬operandsAscii { tight with infom := [0x80] }) ∧
    fits (51 + 7 * small.npath + 1) least0.fbCap = false :=
  ⟨⟨by decide, fun h => h.2 ⟨0x80, by simp, by decide⟩⟩, by decide⟩

theorem witness_BitEncBuildsTheBitSequence :
    fits (66 + 8 * 51) least0.bbCap = true ∧ fits (66 + 8 * 52) least0.bbCap = false := by decide

theorem witness_BitSequenceDeterminesTheBytes :
    7 < 8 * [(0x7E : Byte)].length ∧ bitSequence [0x7E] = bitSequence [0x7E] := ⟨by decide, rfl⟩

theorem witness_PhLdLoadsAPhase : (95999#24).toNat < 96000 ∧ 96000 ≤ (96000#24).toNat := by decide

theorem witness_ToneRunAppendsTheRun :
    fits (405120 - 4095 + (4095#12).toNat) least.sbCap = true ∧
    fits (405120 - 4095 + 1 + (4095#12).toNat) least.sbCap = false := by decide

theorem witness_ToneRunIsPhaseContinuous :
    (160#12).toNat + (160#12).toNat = (320#12).toNat ∧
    fits (State.reset.sb.length + (320#12).toNat) State.reset.params.sbCap = true := by decide

theorem witness_AfskModSamples :
    fits (320 * [(1 : Bit), 0].length) least.sbCap = true ∧ [(1 : Bit), 0][1]? = some 0 ∧ 319 < 320 := by decide

theorem witness_SampleSymmetriesAndBound : 48000 ≤ 48000 ∧ 47999 < 48000 ∧ 95999 < 96000 := by decide

theorem witness_SampleIsTheTruncatedSine : 95999 < 96000 := by decide

theorem witness_NormRescalesToFullScale :
    maxAbs [100, -50, 25] ≠ 0 ∧ maxAbs [0, 0] = 0 ∧ [100, -50, (25 : Int)][1]? = some (-50) := by decide

theorem witness_HpfFollowsTheRecurrence :
    ([5, 7] : List Int) ≠ [] ∧ [5, (7 : Int)][0]? = some 5 ∧ [5, (7 : Int)][0 + 1]? = some 7 := by decide

theorem witness_HpfEqualsItsSteps :
    ∃ (s t : State) (xs : List (BitVec 24)), s.sb = xs.map BitVec.toInt ∧ exec .hpf s = .next t ∧
      s.inputs = commandInputs (.hpfRst :: xs.map .hpfStep) ++ [] ∧ xs.length = 2 ∧
      t.sb[1]? = some 977 :=
  ⟨{ State.reset with
      sb := [-1000, 2000], inputs := commandInputs (.hpfRst :: [-1000#24, 2000#24].map .hpfStep) }, _,
    [-1000#24, 2000#24], by decide, rfl, by decide, rfl, by decide⟩

theorem witness_FilterOutputIsBounded : ∀ x ∈ [32768, (-32768 : Int)], x.natAbs ≤ 32768 := by decide

theorem witness_AmulStandInFractions : 317801 ≤ 317801 ∧ 3000000 ≤ 3000000 := by decide

theorem witness_WavWrWritesTheFile :
    ∃ s : State, 2 * s.sb.length ≤ 2 ^ 32 - 37 ∧ fits (44 + 2 * s.sb.length) s.params.obCap = true ∧
      (∀ x ∈ s.sb, -32768 ≤ x ∧ x ≤ 32767) ∧ s.sinkOk = true ∧ s.sb[1]? = some (-32768) :=
  ⟨{ tight with sb := [32767, -32768], sinkAnswers := [true] }, by decide, by decide, by decide, by decide,
    by decide⟩

theorem witness_WavWrFaults :
    (∃ n : Nat, 2 ^ 32 - 37 < 2 * (List.replicate n (0 : Int)).length) ∧
    (∃ x ∈ [(32768 : Int)], x < -32768 ∨ 32767 < x) ∧ (∃ x ∈ [(-32769 : Int)], x < -32768 ∨ 32767 < x) ∧
    (∃ s : State, 2 * s.sb.length ≤ 2 ^ 32 - 37 ∧ fits (44 + 2 * s.sb.length) s.params.obCap = true ∧
      (∀ x ∈ s.sb, -32768 ≤ x ∧ x ≤ 32767) ∧ s.sinkOk = false) := by
  refine ⟨⟨2 ^ 31, by rw [List.length_replicate]; omega⟩, by decide, by decide,
    { tight with sb := [0], sinkAnswers := [false] }, by decide, by decide, by decide, by decide⟩

theorem witness_OpClrLdNpLdInfo :
    fits (2#8).toNat least.pathMax = true ∧ (least.pathMax = some 2 ∧ 2 < (3#8).toNat) ∧
    fits (84 + 1) least.infoMax = true ∧ least.infoMax = some 85 ∧
    (List.replicate 85 (0 : Byte)).length = 85 := by decide

theorem witness_LdCsAppendsOneCharacter :
    Memory.wf [(3, [1, 2, 3, 4, 5, 6, 7])] = true ∧ slotExists least (3#8).toNat = true ∧
    fits ((Memory.get [(3, [1, 2, 3, 4, 5, 6, 7])] 3).length + 1) least.csInMax = true ∧
    (least.pathMax = some 2 ∧ 2 + 2 ≤ (4#8).toNat) ∧
    (least.csInMax = some 8 ∧ (Memory.get [(3, [1, 2, 3, 4, 5, 6, 7, 8])] 3).length = 8) := by decide

theorem witness_LdStrLoadsTheText :
    ∃ s : State, s.opm.wf = true ∧ slotExists s.params (0#8).toNat = true ∧
      fits ((s.opm.get (0#8).toNat).length + [(0x41 : Byte), 0x42].length) s.params.csInMax = true ∧
      s.inputs = commandInputs ([(0x41 : Byte), 0x42].map fun c => .ldCs 0#8 c) ++ [.reset] :=
  ⟨{ tight with
      opm := [(0, [1, 2, 3, 4, 5, 6])],
      inputs := commandInputs ([(0x41 : Byte), 0x42].map fun c => .ldCs 0#8 c) ++ [.reset] },
    by decide, by decide, by decide, rfl⟩

theorem witness_RdReturnsTheRegister :
    ([96000, 300, 320, 1800, 1600, 50, 32767, 32, 0x7E, 0x03, 0xF0, 0x8408, 0xFFFF, 0xFFFF,
        6, 0x20, 0x60, 0x01, 0, 1, 1, 350][(32#8).toNat - 32]? = some 96000 ∧ 32 ≤ (32#8).toNat) ∧
    ([96000, 300, 320, 1800, 1600, 50, 32767, 32, 0x7E, 0x03, 0xF0, 0x8408, 0xFFFF, 0xFFFF,
        6, 0x20, 0x60, 0x01, 0, 1, 1, 350][(53#8).toNat - 32]? = some 350) ∧
    (∀ r ∈ [6#8, 16#8, 31#8, 54#8, 255#8],
      r.toNat = 6 ∨ (16 ≤ r.toNat ∧ r.toNat ≤ 31) ∨ 54 ≤ r.toNat) := by decide

/-- One element in every space, the destination string one character long. -/
def full : State :=
  { tight with fb := [7], bb := [1], sb := [-9], ob := [3], infom := [4], opm := [(1, [0x42])] }

theorem witness_MrdReturnsTheElement :
    (full.fb[(0#21).toNat]? = some 7 ∧ full.bb[(0#21).toNat]? = some 1 ∧ full.sb[(0#21).toNat]? = some (-9) ∧
      full.ob[(0#21).toNat]? = some 3 ∧ full.infom[(0#21).toNat]? = some 4) ∧
    (slotExists full.params ((0x100#21).toNat / 256) = true ∧ (0x100#21).toNat % 256 ≠ 0xFF ∧
      (full.opm.get ((0x100#21).toNat / 256))[(0x100#21).toNat % 256]? = some 0x42) ∧
    (slotExists full.params ((0x3FF#21).toNat / 256) = true ∧ (0x3FF#21).toNat % 256 = 0xFF) ∧
    (full.fb.length ≤ (1#21).toNat ∧ full.bb.length ≤ (1#21).toNat ∧ full.sb.length ≤ (1#21).toNat ∧
      full.ob.length ≤ (1#21).toNat ∧ full.infom.length ≤ (1#21).toNat) ∧
    ((0x101#21).toNat % 256 ≠ 0xFF ∧
      (full.opm.get ((0x101#21).toNat / 256)).length ≤ (0x101#21).toNat % 256) ∧
    slotExists full.params ((0x400#21).toNat / 256) = false := by decide

theorem witness_ReadsChangeNothing :
    (∃ t, exec (.rd 53#8) full = .next t) ∧ (∃ t, exec (.mrd 5#3 0x100#21) full = .next t) :=
  ⟨⟨_, rfl⟩, ⟨_, rfl⟩⟩

/-- V-FRM-1's operands with a willing sink in a block that the shortest transmission fills. -/
def ready : State := { small with params := least0, sinkAnswers := [true] }

theorem witness_EncodeBuildsTheWholeTransmission :
    fits (51 + 7 * ready.npath + ready.infom.length) ready.params.fbCap = true ∧ operandsAscii ready ∧
    640 * (474 + 56 * ready.npath + 8 * ready.infom.length) ≤ 2 ^ 32 - 37 ∧ ready.sinkOk = true :=
  ⟨by decide, small_ascii, by decide, by decide⟩

/-- A payload whose file would be too long for its header. -/
def wordy : State := { State.reset with infom := List.replicate 838802 0x20 }

theorem wordy_length : wordy.infom.length = 838802 := List.length_replicate

theorem wordy_ascii : operandsAscii wordy := by
  refine ⟨fun k _ h => ?_, fun ⟨c, hc, h⟩ => ?_⟩
  · obtain ⟨c, hc, -⟩ := h
    exact absurd hc List.not_mem_nil
  · obtain rfl : c = 0x20 := List.eq_of_mem_replicate hc
    exact absurd h (by decide)

theorem witness_EncodeFaults :
    fits (51 + 7 * 0 + 1) least0.fbCap = false ∧
    (fits (51 + 7 * 0 + 1) least.fbCap = true ∧ ¬operandsAscii { tight with infom := [0x80] }) ∧
    (operandsAscii wordy ∧
      2 ^ 32 - 37 < 640 * (474 + 56 * wordy.npath + 8 * wordy.infom.length)) ∧
    (operandsAscii { ready with sinkAnswers := [false] } ∧
      State.sinkOk { ready with sinkAnswers := [false] } = false) :=
  ⟨by decide, ⟨by decide, fun h => h.2 ⟨0x80, by simp, by decide⟩⟩,
    ⟨wordy_ascii, by rw [wordy_length]; decide⟩, small_ascii, by decide⟩

/-- Operands that ENCODE faults on. -/
def accented : State := { small with infom := [0xE9], fb := [1], status := 3 }

theorem witness_EncodeNeverRaisesRangeError :
    ∃ t, exec .encode accented = .next t ∧ 0 < (filtered []).length := by
  refine ⟨_, rfl, ?_⟩
  rw [filtered_length]
  decide

theorem accented_not_ascii : ¬operandsAscii accented := fun h => h.2 ⟨0xE9, by simp [accented], by decide⟩

theorem witness_EncodeEqualsTheCommandSequence_fault :
    ∃ t1 t2, exec .clr accented = .next t1 ∧ exec .frmBuild t1 = .next t2 ∧ ¬operandsAscii accented :=
  ⟨_, _, rfl, rfl, accented_not_ascii⟩

/-- In an unbounded block the stages follow one another. -/
theorem frmBuild_goes {s : State} (h : s.params = .unbounded) :
    ∃ t, exec .frmBuild s = .next t ∧ t.params = .unbounded ∧
      t.fb.length ≤ 51 + 7 * s.npath + s.infom.length := by
  have hb : fits (51 + 7 * s.npath + s.infom.length) s.params.fbCap = true := by rw [h]; rfl
  rcases frmBuildStage_cases s with ⟨k, -⟩ | ⟨-, -, k⟩ | ⟨-, -, k⟩
  · exact absurd (hb.symm.trans k) (by decide)
  · exact ⟨_, congrArg Attempt.finish k, h, Nat.zero_le _⟩
  · refine ⟨_, congrArg Attempt.finish k, h, ?_⟩
    show (framed (packet s)).length ≤ _
    rw [framed_length, packet_length]
    omega

theorem bitEnc_goes {s : State} (h : s.params = .unbounded) :
    ∃ t, exec .bitEnc s = .next t ∧ t.params = .unbounded ∧ t.bb.length = 66 + 8 * s.fb.length := by
  have hb : fits (66 + 8 * s.fb.length) s.params.bbCap = true := by rw [h]; rfl
  rcases bitEncStage_cases s with ⟨k, -⟩ | ⟨-, k⟩
  · exact absurd (hb.symm.trans k) (by decide)
  · exact ⟨_, congrArg Attempt.finish k, h, bitSequence_length s.fb⟩

theorem afskMod_goes {s : State} (h : s.params = .unbounded) :
    ∃ t, exec .afskMod s = .next t ∧ t.params = .unbounded ∧ t.sb.length = 320 * s.bb.length := by
  have hb : fits (320 * s.bb.length) s.params.sbCap = true := by rw [h]; rfl
  rcases afskModStage_cases s with ⟨k, -⟩ | ⟨-, k⟩
  · exact absurd (hb.symm.trans k) (by decide)
  · exact ⟨_, congrArg Attempt.finish k, h, afskSamples_length 0 s.bb⟩

theorem wavWr_goes {s : State} (h : s.params = .unbounded) (hl : 2 * s.sb.length ≤ 2 ^ 32 - 37) :
    ∃ t, exec .wavWr s = .next t := by
  have hb : fits (44 + 2 * s.sb.length) s.params.obCap = true := by rw [h]; rfl
  rcases wavWrStage_cases s with ⟨k, -⟩ | ⟨-, k, -⟩ | ⟨-, -, -, k⟩ | ⟨-, -, -, -, k⟩ | ⟨-, -, -, -, k⟩
  · omega
  · exact absurd (hb.symm.trans k) (by decide)
  all_goals exact ⟨_, congrArg Attempt.finish k⟩

theorem witness_EncodeEqualsTheCommandSequence :
    operandsAscii small ∧ ∃ t1 t2 t3 t4 t5 t6 t7, exec .clr small = .next t1 ∧ exec .frmBuild t1 = .next t2 ∧
      exec .bitEnc t2 = .next t3 ∧ exec .afskMod t3 = .next t4 ∧ exec .norm t4 = .next t5 ∧
      exec .hpf t5 = .next t6 ∧ exec .wavWr t6 = .next t7 := by
  have h1 : exec .clr small = .next (small.cleared.present 0) := rfl
  obtain ⟨t2, h2, p2, l2⟩ := frmBuild_goes (s := small.cleared.present 0) rfl
  obtain ⟨t3, h3, p3, l3⟩ := bitEnc_goes p2
  obtain ⟨t4, h4, p4, l4⟩ := afskMod_goes p3
  have h5 : exec .norm t4 = .next (State.present { t4 with sb := normalise t4.sb } (maxAbs t4.sb)) := rfl
  generalize h5s : State.present { t4 with sb := normalise t4.sb } (maxAbs t4.sb) = t5 at h5
  have l5 : t5.sb.length = t4.sb.length := by rw [← h5s]; exact normalise_length t4.sb
  have p5 : t5.params = .unbounded := by rw [← h5s]; exact p4
  have h6 : exec .hpf t5 = .next (State.present
    { t5.setFilter (filterRegs .initial t5.sb) with sb := filterOut .initial t5.sb } t5.sb.length) := rfl
  generalize h6s : State.present
    { t5.setFilter (filterRegs .initial t5.sb) with sb := filterOut .initial t5.sb } t5.sb.length = t6 at h6
  have l6 : t6.sb.length = t5.sb.length := by rw [← h6s]; exact filterOut_length _ _
  have p6 : t6.params = .unbounded := by rw [← h6s]; exact p5
  have l2' : t2.fb.length ≤ 51 := l2
  obtain ⟨t7, h7⟩ := wavWr_goes p6 (by omega)
  exact ⟨small_ascii, _, t2, t3, t4, t5, t6, t7, h1, h2, h3, h4, h5, h6, h7⟩

theorem witness_EncodeDependsOnItsOperandsOnly :
    (sameOperands accented { accented with fb := [2], nrz := 0, status := 0, opm := accented.opm ++ [(9, [1])] } ∧
      ∃ a, exec .encode accented = .next a) ∧
    (∃ s r, exec .encode s = .refused r ∧ s.params = { small with npath := 1, params := least0 }.params) := by
  refine ⟨⟨⟨rfl, rfl, fun k hk => ?_⟩, _, rfl⟩, { small with npath := 1, params := least0 }, _, rfl, rfl⟩
  match k, hk with
  | 0, _ => rfl
  | 1, _ => rfl

theorem witness_FaultEntryState :
    ∃ t v, exec .frmBuild accented = .next t ∧ t.result = some (.fault .encodingError v) := ⟨_, _, rfl, rfl⟩

/-- Each of the four causes is raised. -/
theorem witness_OnlyFourCommandsFault :
    faulted (exec (.addrEnc 0 16) small) .valueError = true ∧
    faulted (exec .encode accented) .encodingError = true ∧
    faulted (exec .wavWr { small with sinkAnswers := [false] }) .ioError = true ∧
    faulted (exec .wavWr { small with sb := [32768] }) .rangeError = true := by decide

theorem witness_StatusBlocksNothing :
    Instr.crcInit ≠ .rd 7#8 ∧ (∃ t, exec .crcInit accented = .next t) ∧
    (∃ r, exec (.mrd 7 0) accented = .refused r) := ⟨by decide, ⟨_, rfl⟩, ⟨_, rfl⟩⟩

theorem witness_OutputIsAllOrNothing :
    (∃ t, exec .wavWr { small with sb := [1], sinkAnswers := [true] } = .next t ∧ t.sinkFiles.length = 1) ∧
    (∃ t, exec .wavWr { small with sb := [1], sinkAnswers := [false] } = .next t ∧ t.sinkFiles = []) :=
  ⟨⟨_, rfl, by decide⟩, ⟨_, rfl, rfl⟩⟩

theorem witness_OnlyTheirOwnersChangeOperandsAndOutput :
    (∃ t, exec .frmBuild small = .next t) ∧ Instr.frmBuild ≠ .opClr ∧
    (∀ slot c, Instr.frmBuild ≠ .ldCs slot c) ∧ (∀ n, Instr.frmBuild ≠ .ldNp n) ∧
    (∀ c, Instr.frmBuild ≠ .ldInfo c) :=
  ⟨⟨_, rfl⟩, nofun, nofun, nofun, nofun⟩

theorem witness_EveryCommandPresentsItsOutcome : ∃ t, exec .norm small = .next t := ⟨_, rfl⟩

end Sys2Proof.Machine.Tests
end

section
/-! PROOFS. The invariant of the block step by step (spec/20_memory.md R66, R67,
spec/60_exceptions.md R284): what an update of one buffer asks for, what survives a cleared data path,
and that every attempt of a command leaves it. -/

namespace Sys2Proof.Machine

theorem fits_zero (b : Option Nat) : fits 0 b = true := by
  cases b <;> simp [fits]

/-! ## One buffer changed -/

theorem State.Inv.withFb {s : State} (h : s.Inv) {l : List Byte}
    (hl : fits l.length s.params.fbCap = true) : State.Inv { s with fb := l } :=
  have ⟨hnp, hopm, hinfo, _, hbb, hsb, hob⟩ := h.sizes_ok
  { h with sizes_ok := ⟨hnp, hopm, hinfo, hl, hbb, hsb, hob⟩ }

theorem State.Inv.withBb {s : State} (h : s.Inv) {l : List Bit}
    (hl : fits l.length s.params.bbCap = true) : State.Inv { s with bb := l } :=
  have ⟨hnp, hopm, hinfo, hfb, _, hsb, hob⟩ := h.sizes_ok
  { h with sizes_ok := ⟨hnp, hopm, hinfo, hfb, hl, hsb, hob⟩ }

theorem State.Inv.withSb {s : State} (h : s.Inv) {l : List Int}
    (hl : fits l.length s.params.sbCap = true) : State.Inv { s with sb := l } :=
  have ⟨hnp, hopm, hinfo, hfb, hbb, _, hob⟩ := h.sizes_ok
  { h with sizes_ok := ⟨hnp, hopm, hinfo, hfb, hbb, hl, hob⟩ }

theorem State.Inv.withInfom {s : State} (h : s.Inv) {l : List Byte}
    (hl : fits l.length s.params.infoMax = true) : State.Inv { s with infom := l } :=
  have ⟨hnp, hopm, _, hbuffers⟩ := h.sizes_ok
  { h with sizes_ok := ⟨hnp, hopm, hl, hbuffers⟩ }

theorem State.Inv.withNpath {s : State} (h : s.Inv) {n : Nat}
    (hn : fits n s.params.pathMax = true) : State.Inv { s with npath := n } :=
  { h with sizes_ok := ⟨hn, h.sizes_ok.2⟩ }

/-- SB replaced by a sequence of the same length, as NORM and HPF do. -/
theorem State.Inv.withSb_same_length {s : State} (h : s.Inv) {l : List Int}
    (hl : l.length = s.sb.length) : State.Inv { s with sb := l } :=
  have ⟨_, _, _, _, _, hsb, _⟩ := h.sizes_ok
  h.withSb (hl ▸ hsb)

theorem State.Inv.setFilter {s : State} (h : s.Inv) {r : FilterRegs}
    (hr : r.yv = 0 → r.xp = 0 ∧ r.yp = 0) : (s.setFilter r).Inv :=
  { h with filter_initial := hr }

/-- One more character in a slot that exists and has room for it. -/
theorem State.Inv.withOpmAppend {s : State} (h : s.Inv) {k : Nat} (c : Byte)
    (hk : slotExists s.params k = true)
    (hc : fits ((s.opm.get k).length + 1) s.params.csInMax = true) :
    State.Inv { s with opm := s.opm.append k c } := by
  obtain ⟨hnp, hopm, hrest⟩ := h.sizes_ok
  refine { h with
    opm_wf := Memory.append_wf _ k c h.opm_wf
    sizes_ok := ⟨hnp, fun p hp => ?_, hrest⟩ }
  rcases Memory.mem_append hp with hold | ⟨hslot, hstr⟩ | ⟨str, hmem, rfl⟩
  · exact hopm p hold
  · rw [hslot, hstr]
    exact ⟨hk, fits_of_le (Nat.le_add_left _ _) hc⟩
  · have hget : s.opm.get k = str := (Memory.get_of_mem (Memory.wf_rising h.opm_wf) hmem).1
    rw [hget] at hc
    exact ⟨hk, by simpa using hc⟩

/-! ## The data path cleared -/

/-- The part of the invariant that is not about the data path: the operands, STATUS bits 7:4 and the
sink. Clearing the data path keeps it, and fault entry needs no more of the state a fault was raised
in (spec/60_exceptions.md R284). -/
structure State.OperandsInv (s : State) : Prop where
  opm_wf : s.opm.wf = true
  status_rest : statusRest s.status = 0
  npath_fits : fits s.npath s.params.pathMax = true
  opm_fits : ∀ p ∈ s.opm, slotExists s.params p.1 = true ∧ fits p.2.length s.params.csInMax = true
  infom_fits : fits s.infom.length s.params.infoMax = true
  sink_whole : ∀ f ∈ s.sinkFiles, IsWholeFile f

theorem State.Inv.operandsInv {s : State} (h : s.Inv) : s.OperandsInv :=
  have ⟨hnp, hopm, hinfo, _⟩ := h.sizes_ok
  ⟨h.opm_wf, h.status_legal.1, hnp, hopm, hinfo, h.sink_whole⟩

/-- A cleared data path with DONE 0 and a listed ERR has the invariant. -/
theorem State.OperandsInv.clearDataPath_inv {s : State} (h : s.OperandsInv)
    (herr : (statusErr s.status).toNat ≤ 4) (hdone : statusDone s.status = 0) :
    s.clearDataPath.Inv where
  opm_wf := h.opm_wf
  status_legal := ⟨h.status_rest, herr⟩
  output_whole := .inl ⟨hdone, rfl⟩
  filter_initial := fun _ => ⟨rfl, rfl⟩
  sizes_ok := ⟨h.npath_fits, h.opm_fits, h.infom_fits, fits_zero _, fits_zero _, fits_zero _,
    fits_zero _⟩
  sink_whole := h.sink_whole

/-- Fault entry leads to a state with the invariant (spec/60_exceptions.md R284). -/
theorem State.OperandsInv.faultEntry_inv {s : State} (h : s.OperandsInv) (c : Cause) :
    (s.faultEntry c).Inv :=
  have hrest : State.OperandsInv { s with status := setErr c.code (setDone 0 s.status) } :=
    { h with status_rest := by simp [h.status_rest] }
  { hrest.clearDataPath_inv (by simpa using code_le_four c) (by simp) with }

theorem State.OperandsInv.cleared_inv {s : State} (h : s.OperandsInv) : s.cleared.Inv :=
  have hrest : State.OperandsInv { s with status := 0 } := { h with status_rest := (rfl : statusRest 0 = 0) }
  hrest.clearDataPath_inv (Nat.zero_le 4) (rfl : statusDone 0 = 0)

theorem State.Inv.clearOperands {s : State} (h : s.Inv) :
    State.Inv { s with opm := [], infom := [], npath := 0 } :=
  have ⟨_, _, _, hbuffers⟩ := h.sizes_ok
  { h with opm_wf := rfl, sizes_ok := ⟨fits_zero _, nofun, fits_zero _, hbuffers⟩ }

theorem State.Inv.hardReset {s : State} (h : s.Inv) : s.hardReset.Inv :=
  { h.clearOperands.operandsInv.cleared_inv with }

/-! ## The attempt of a command -/

/-- The attempt, taken as the machine's step, leaves the invariant: done in a state that has it, or
a fault raised in a state that fault entry brings to it. -/
def Attempt.KeepsInv : Attempt → Prop
  | .done s _ => s.Inv
  | .raise _ s => s.OperandsInv
  | .refuse _ => True

theorem Attempt.KeepsInv.finish {a : Attempt} (h : a.KeepsInv) {t : State}
    (ht : a.finish = .next t) : t.Inv := by
  rcases finish_eq_next ht with ⟨s, v, rfl, rfl⟩ | ⟨c, s, rfl, rfl⟩
  · have hs : s.Inv := h
    exact { hs with }
  · exact State.OperandsInv.faultEntry_inv h c

theorem Attempt.KeepsInv.andThen {a : Attempt} (h : a.KeepsInv) {f : State → Attempt}
    (hf : ∀ s, s.Inv → (f s).KeepsInv) : (a.andThen f).KeepsInv := by
  cases a with
  | done s v => exact hf s h
  | raise c s => exact h
  | refuse r => trivial

/-- An attempt that is refused unless a condition holds has only its other branch to look at. -/
theorem Attempt.KeepsInv.guard {p : Prop} [Decidable p] {a : Attempt} {r : Refusal}
    (h : p → a.KeepsInv) : (if p then a else .refuse r).KeepsInv := by
  split
  · exact h ‹_›
  · trivial

/-! ## The stages of the composite commands -/

section
variable {s : State} (h : s.Inv)
include h

theorem frmBuildStage_keepsInv : (frmBuildStage s).KeepsInv := by
  unfold frmBuildStage
  refine .guard fun hfit => ?_
  split
  · exact h.operandsInv
  · exact { h.withFb hfit with }

theorem bitEncStage_keepsInv : (bitEncStage s).KeepsInv :=
  .guard fun hfit => { h.withBb hfit with }

theorem afskModStage_keepsInv : (afskModStage s).KeepsInv :=
  .guard fun hfit => { h.withSb hfit with }

theorem normStage_keepsInv : (normStage s).KeepsInv :=
  h.withSb_same_length (normalise_length _)

theorem hpfStage_keepsInv : (hpfStage s).KeepsInv :=
  (h.setFilter filterRegs_initial_zero).withSb_same_length (filterOut_length _ _)

/-- The file written is whole because the range of every sample was checked first
(spec/46_wave.md R241). -/
theorem wavWrStage_keepsInv : (wavWrStage s).KeepsInv := by
  cases ha : wavWrStage s with
  | done t v =>
    obtain ⟨rfl, -, hrange, hfit⟩ := wavWrStage_done ha
    obtain ⟨hnp, hopm, hinfo, hfb, hbb, hsb, -⟩ := h.sizes_ok
    have hfile : IsWholeFile (waveFile s.sb) := ⟨s.sb, hrange, rfl⟩
    exact { h with
      status_legal := by simpa [statusLegal] using h.status_legal
      output_whole := .inr ⟨by simp, hfile⟩
      sizes_ok := ⟨hnp, hopm, hinfo, hfb, hbb, hsb, by simpa using hfit⟩
      sink_whole := List.forall_mem_append.2 ⟨h.sink_whole, by simpa using hfile⟩ }
  | raise c t =>
    obtain ⟨-, hopm, hinfo, hnp, hsink, hparams, -, hrest⟩ := wavWrStage_raise ha
    have ho := h.operandsInv
    exact ⟨hopm ▸ ho.opm_wf, hrest.trans ho.status_rest, by rw [hnp, hparams]; exact ho.npath_fits,
      by rw [hopm, hparams]; exact ho.opm_fits, by rw [hinfo, hparams]; exact ho.infom_fits,
      hsink ▸ ho.sink_whole⟩
  | refuse r => trivial

theorem encodeStages_keepsInv : (encodeStages s).KeepsInv :=
  (((((frmBuildStage_keepsInv h.operandsInv.cleared_inv).andThen fun _ => bitEncStage_keepsInv).andThen
    fun _ => afskModStage_keepsInv).andThen fun _ => normStage_keepsInv).andThen
    fun _ => hpfStage_keepsInv).andThen fun _ => wavWrStage_keepsInv

/-! ## Every command and every step -/

/-- Every command is the finish of an attempt that leaves the invariant. -/
theorem exec_keepsInv (i : Instr) : ∃ a : Attempt, exec i s = a.finish ∧ a.KeepsInv := by
  cases i with
  | clr => exact ⟨.done _ _, rfl, h.operandsInv.cleared_inv⟩
  | rd r =>
    refine ⟨_, rfl, ?_⟩
    cases readRegister s (zext r) with
    | some v => exact h
    | none => trivial
  | mrd sp idx =>
    refine ⟨_, rfl, ?_⟩
    cases readSpace s sp (zext idx) with
    | ok v => exact h
    | error why => trivial
  | encode => exact ⟨_, rfl, encodeStages_keepsInv h⟩
  | opClr => exact ⟨.done _ _, rfl, h.clearOperands⟩
  | ldCs slot c => exact ⟨_, rfl, .guard fun hslot => .guard fun hfit => h.withOpmAppend c hslot hfit⟩
  | ldNp n => exact ⟨_, rfl, .guard fun hfit => h.withNpath hfit⟩
  | ldInfo c => exact ⟨_, rfl, .guard fun hfit => h.withInfom (by simpa using hfit)⟩
  | crcInit => exact ⟨.done _ _, rfl, { h with }⟩
  | crcUpd imm8 => exact ⟨.done _ _, rfl, { h with }⟩
  | crcFin => exact ⟨.done _ _, rfl, h⟩
  | addrEnc slot ssid =>
    refine ⟨_, rfl, .guard fun _ => ?_⟩
    cases addrFault (s.opm.get (zext slot)) (zext ssid) with
    | some c => exact h.operandsInv
    | none => exact h
  | fbPut imm8 => exact ⟨_, rfl, .guard fun hfit => h.withFb (by simpa using hfit)⟩
  | frmBuild => exact ⟨_, rfl, frmBuildStage_keepsInv h⟩
  | nrzRst => exact ⟨.done _ _, rfl, { h with }⟩
  | nrzBit bit => exact ⟨.done _ _, rfl, { h with }⟩
  | bbPut bit => exact ⟨_, rfl, .guard fun hfit => h.withBb (by simpa using hfit)⟩
  | bitEnc => exact ⟨_, rfl, bitEncStage_keepsInv h⟩
  | phLd imm24 => exact ⟨_, rfl, .guard fun _ => { h with }⟩
  | toneRun f n =>
    refine ⟨_, rfl, .guard fun hfit => ?_⟩
    have hsb := h.withSb (l := s.sb ++ toneRun s.ph (zext f) (zext n)) (by simpa using hfit)
    exact { hsb with }
  | afskMod => exact ⟨_, rfl, afskModStage_keepsInv h⟩
  | sbPut imm24 => exact ⟨_, rfl, .guard fun hfit => h.withSb (by simpa using hfit)⟩
  | norm => exact ⟨_, rfl, normStage_keepsInv h⟩
  | hpfRst => exact ⟨.done _ _, rfl, h.setFilter fun _ => ⟨rfl, rfl⟩⟩
  | hpfStep imm24 => exact ⟨.done _ _, rfl, h.setFilter fun (hyv : (1 : Bit) = 0) => absurd hyv (by decide)⟩
  | hpf => exact ⟨_, rfl, hpfStage_keepsInv h⟩
  | wavWr => exact ⟨_, rfl, wavWrStage_keepsInv h⟩

theorem exec_keeps_inv {i : Instr} {t : State} (ht : exec i s = .next t) : t.Inv := by
  obtain ⟨a, he, ha⟩ := exec_keepsInv h i
  exact ha.finish (he ▸ ht)

theorem step_keeps_inv {t : State} (ht : step s = .next t) : t.Inv := by
  have hrest (rest : List Input) : State.Inv { s with inputs := rest } := { h with }
  unfold step at ht
  split at ht
  · cases ht
    exact h
  · cases ht
    exact (hrest _).hardReset
  · cases ht
    exact (hrest _).hardReset
  · split at ht
    · exact exec_keeps_inv (hrest _) ht
    · cases ht

end

/-- Settles O10, by what every attempt of a command leaves. -/
theorem stepKeepsTheInvariant : Obligations.StepKeepsTheInvariant := by
  unfold Obligations.StepKeepsTheInvariant
  exact fun _ _ h ht => step_keeps_inv h ht

end Sys2Proof.Machine
end

section
/-! PROOFS. The reflected checksum register against the register of polynomial 0x1021 that takes its
bits most significant first (spec/00_scope.md R4, spec/40_crc.md R120). -/

namespace Sys2Proof.Machine

theorem reverse_xor {w : Nat} (a b : BitVec w) : (a ^^^ b).reverse = a.reverse ^^^ b.reverse := by
  ext i hi
  simp [BitVec.getElem_reverse]

theorem reverse_ushiftRight_one {w : Nat} (a : BitVec w) : (a >>> 1).reverse = a.reverse <<< 1 := by
  ext i hi
  simp +contextual [BitVec.getElem_reverse, hi]

/-- A byte in the low half of the register is its reversal in the high half. -/
theorem reverse_setWidth_byte (b : Byte) : (b.setWidth 16).reverse = b.reverse ++ 0#8 := by
  have h : b.setWidth 16 = 0#8 ++ b := BitVec.setWidth_eq_append (by decide)
  rw [h, BitVec.reverse_append]
  rfl

/-- The bit step of the register that shifts toward its most significant bit. -/
def msbFirstBit (q : BitVec 16) : BitVec 16 :=
  if q.msb then (q <<< 1) ^^^ 0x1021#16 else q <<< 1

/-- The byte step of that register: the reversed byte enters the high half. -/
def msbFirstByte (q : BitVec 16) (b : Byte) : BitVec 16 :=
  msbFirstBit^[8] (q ^^^ (b.reverse ++ 0#8))

theorem crcBit_reverse (r : BitVec 16) : (crcBit r).reverse = msbFirstBit r.reverse := by
  have hpoly : (0x8408#16).reverse = 0x1021#16 := by decide
  unfold crcBit msbFirstBit
  rw [BitVec.msb_reverse]
  split
  · rw [reverse_xor, reverse_ushiftRight_one, cfg_crcPoly, hpoly]
  · rw [reverse_ushiftRight_one]

theorem crcByte_reverse (r : BitVec 16) (b : Byte) :
    (crcByte r b).reverse = msbFirstByte r.reverse b := by
  have hbits : Function.Semiconj BitVec.reverse crcBit^[8] msbFirstBit^[8] :=
    Function.Semiconj.iterate_right crcBit_reverse 8
  rw [crcByte, hbits, reverse_xor, reverse_setWidth_byte, msbFirstByte]

theorem crcRun_reverse (bytes : List Byte) (r : BitVec 16) :
    (crcRun r bytes).reverse = bytes.foldl msbFirstByte r.reverse := by
  induction bytes generalizing r with
  | nil => rfl
  | cons b bs ih => rw [crcRun_cons, ih, crcByte_reverse, List.foldl_cons]

/-- Settles O15, by the reversal of one bit step. -/
theorem crcIsThePolynomial1021Reflected : Obligations.CrcIsThePolynomial1021Reflected := by
  unfold Obligations.CrcIsThePolynomial1021Reflected
  exact crcRun_reverse

end Sys2Proof.Machine
end

section
/-! PROOFS. The filter product against the real product by ALPHA (spec/45_postprocess.md R217). -/

namespace Sys2Proof.Machine

theorem isTrunc_of_floor {r : ℝ} {n : Int} (hr : 0 ≤ r) (hle : (n : ℝ) ≤ r) (hlt : r < n + 1) :
    isTrunc r n := by
  refine ⟨fun _ => ⟨hle, hlt⟩, fun hr' => ?_⟩
  obtain rfl : r = 0 := le_antisymm hr' hr
  have hn : 0 ≤ n := Int.le_of_lt_add_one (by exact_mod_cast hlt)
  exact ⟨by linarith, by exact_mod_cast hn⟩

theorem isTrunc.neg {r : ℝ} {n : Int} (h : isTrunc r n) : isTrunc (-r) (-n) := by
  obtain ⟨hpos, hneg⟩ := h
  push_cast [isTrunc]
  constructor
  · intro hr
    obtain ⟨hlt, hle⟩ := hneg (by linarith)
    constructor <;> linarith
  · intro hr
    obtain ⟨hle, hlt⟩ := hpos (by linarith)
    constructor <;> linarith

theorem amul_natCast_isTrunc (n : Nat) : isTrunc (alpha * n) (amul n) := by
  obtain ⟨hle, hlt⟩ := amulNat_floor n
  have hr : 0 ≤ alpha * n := mul_nonneg alpha_pos.le (Nat.cast_nonneg n)
  rw [amul_natCast]
  exact isTrunc_of_floor hr (by exact_mod_cast hle) (by exact_mod_cast hlt)

theorem amul_isTrunc (k : Int) : isTrunc (alpha * k) (amul k) := by
  obtain ⟨n, rfl | rfl⟩ := k.eq_nat_or_neg
  · exact amul_natCast_isTrunc n
  · rw [amul_neg, Int.cast_neg, mul_neg]
    exact (amul_natCast_isTrunc n).neg

/-- Settles O39, by the floor of `ALPHA*k` for naturals and the oddness of both sides. -/
theorem amulIsTheTruncatedProduct : Obligations.AmulIsTheTruncatedProduct := by
  unfold Obligations.AmulIsTheTruncatedProduct
  exact fun k => ⟨amul_isTrunc k, amul_neg k⟩

end Sys2Proof.Machine
end

section
/-! PROOFS. No command reads the result port, and every command that goes on writes it
(spec/10_state.md R39). -/

namespace Sys2Proof.Machine

/-! ## The stages of the composite commands -/

/-- The attempt with another value on the result port of the state it came to. -/
def Attempt.withResult (r : Option Result) : Attempt → Attempt
  | .done s v => .done { s with result := r } v
  | .raise c s => .raise c { s with result := r }
  | .refuse why => .refuse why

/-- The outcome of an attempt takes the place of whatever stood on the result port. -/
theorem finish_withResult (r : Option Result) (a : Attempt) : (a.withResult r).finish = a.finish := by
  cases a <;> rfl

/-- A stage carries the result port along and reads nothing of it. -/
def IgnoresResult (f : State → Attempt) : Prop :=
  ∀ (s : State) (r : Option Result), f { s with result := r } = (f s).withResult r

theorem IgnoresResult.finish {f : State → Attempt} (hf : IgnoresResult f) (s : State)
    (r : Option Result) : (f { s with result := r }).finish = (f s).finish := by
  rw [hf, finish_withResult]

theorem IgnoresResult.andThen {f g : State → Attempt} (hf : IgnoresResult f) (hg : IgnoresResult g) :
    IgnoresResult fun s => (f s).andThen g := by
  intro s r
  simp only [hf s r]
  cases f s with
  | done t v => exact hg t r
  | raise c t => rfl
  | refuse why => rfl

theorem frmBuildStage_ignoresResult : IgnoresResult frmBuildStage := by
  intro s r
  rw [frmBuildStage, frmBuildStage, apply_ite (Attempt.withResult r), apply_ite (Attempt.withResult r)]
  rfl

theorem bitEncStage_ignoresResult : IgnoresResult bitEncStage := by
  intro s r
  rw [bitEncStage, bitEncStage, apply_ite (Attempt.withResult r)]
  rfl

theorem afskModStage_ignoresResult : IgnoresResult afskModStage := by
  intro s r
  rw [afskModStage, afskModStage, apply_ite (Attempt.withResult r)]
  rfl

theorem wavWrStage_ignoresResult : IgnoresResult wavWrStage := by
  intro s r
  rw [wavWrStage, wavWrStage]
  simp only [apply_ite (Attempt.withResult r)]
  rfl

theorem encodeStages_ignoresResult : IgnoresResult encodeStages :=
  have hframe : IgnoresResult fun s => frmBuildStage s.cleared :=
    fun s => frmBuildStage_ignoresResult s.cleared
  ((((hframe.andThen bitEncStage_ignoresResult).andThen afskModStage_ignoresResult).andThen
    fun _ _ => rfl).andThen fun _ _ => rfl).andThen wavWrStage_ignoresResult

/-! ## Every command -/

/-- Two attempts under one test come to the same when they do where it holds. -/
theorem finish_guard_congr {p : Prop} [Decidable p] {a b : Attempt} {why : Refusal}
    (h : a.finish = b.finish) :
    (if p then a else .refuse why).finish = (if p then b else .refuse why).finish := by
  split
  · exact h
  · rfl

theorem exec_ignores_result (i : Instr) (s : State) (r : Option Result) :
    exec i { s with result := r } = exec i s := by
  cases i with
  | clr => rfl
  | rd n =>
    have hread : readRegister { s with result := r } (zext n) = readRegister s (zext n) := rfl
    simp only [exec, execRd, hread]
    cases readRegister s (zext n) <;> rfl
  | mrd sp idx =>
    have hread : readSpace { s with result := r } sp (zext idx) = readSpace s sp (zext idx) := rfl
    simp only [exec, execMrd, hread]
    cases readSpace s sp (zext idx) <;> rfl
  | encode => exact encodeStages_ignoresResult.finish s r
  | opClr => rfl
  | ldCs slot c => exact finish_guard_congr (finish_guard_congr rfl)
  | ldNp n => exact finish_guard_congr rfl
  | ldInfo c => exact finish_guard_congr rfl
  | crcInit => rfl
  | crcUpd imm8 => rfl
  | crcFin => rfl
  | addrEnc slot ssid =>
    refine finish_guard_congr ?_
    dsimp only
    cases addrFault (s.opm.get (zext slot)) (zext ssid) <;> rfl
  | fbPut imm8 => exact finish_guard_congr rfl
  | frmBuild => exact frmBuildStage_ignoresResult.finish s r
  | nrzRst => rfl
  | nrzBit bit => rfl
  | bbPut bit => exact finish_guard_congr rfl
  | bitEnc => exact bitEncStage_ignoresResult.finish s r
  | phLd imm24 => exact finish_guard_congr rfl
  | toneRun f n => exact finish_guard_congr rfl
  | afskMod => exact afskModStage_ignoresResult.finish s r
  | sbPut imm24 => exact finish_guard_congr rfl
  | norm => rfl
  | hpfRst => rfl
  | hpfStep imm24 => rfl
  | hpf => rfl
  | wavWr => exact wavWrStage_ignoresResult.finish s r

theorem exec_presents {i : Instr} {s t : State} (h : exec i s = .next t) : ∃ o, t.result = some o := by
  obtain ⟨a, ha⟩ := exec_finish i s
  rcases finish_eq_next (ha ▸ h) with ⟨s', v, -, rfl⟩ | ⟨c, s', -, rfl⟩
  · exact ⟨_, present_result s' v⟩
  · exact ⟨_, faultEntry_result s' c⟩

/-- Settles O60, by the stages that carry the result port along and the outcome that every command
ends in. -/
theorem everyCommandPresentsItsOutcome : Obligations.EveryCommandPresentsItsOutcome := by
  unfold Obligations.EveryCommandPresentsItsOutcome
  exact fun i s r => ⟨exec_ignores_result i s r, fun _ h => exec_presents h⟩

end Sys2Proof.Machine
end

section
/-! PROOFS. What a step is for the two simplest inputs, and the invariant at reset
(spec/30_encoding.md R90, spec/60_exceptions.md R297, spec/10_state.md R40). -/

namespace Sys2Proof.Machine

theorem step_of_command {s : State} {w : Word} {rest : List Input} {i : Instr}
    (hin : s.inputs = .command w :: rest) (hw : decode w = .ok i) :
    step s = exec i { s with inputs := rest } := by
  simp only [step, hin, hw]

theorem step_of_no_input {s : State} (hin : s.inputs = []) : step s = .next s := by
  simp only [step, hin]

/-- Settles O6, by the step on a word that decodes and on an empty command port. -/
theorem stepRunsTheDecodedCommand : Obligations.StepRunsTheDecodedCommand := by
  unfold Obligations.StepRunsTheDecodedCommand
  exact ⟨fun _ _ _ _ hin hw => step_of_command hin hw, fun _ hin => step_of_no_input hin⟩

/-- The operands, STATUS bits 7:4 and the sink's files at reset. -/
theorem reset_operandsInv : State.reset.OperandsInv where
  opm_wf := rfl
  status_rest := rfl
  npath_fits := rfl
  opm_fits := nofun
  infom_fits := rfl
  sink_whole := nofun

/-- Settles O9: the data path at reset is the cleared one (spec/10_state.md R40). -/
theorem invariantAtReset : Obligations.InvariantAtReset := by
  unfold Obligations.InvariantAtReset
  have hcleared : State.reset.cleared = State.reset := rfl
  exact hcleared ▸ reset_operandsInv.cleared_inv

end Sys2Proof.Machine
end

section
/-! PROOFS. Two runs of a command side by side: ENCODE from states with the same operands
(spec/47_system.md R263), and every command under another STATUS (spec/10_state.md R32). -/

namespace Sys2Proof.Machine

/-! ## Attempts side by side -/

/-- Two attempts that end alike: both done with one result in states related by `R`, both raising one
cause in states related by `Q`, or both refused for one reason. -/
inductive Attempt.Alike (R Q : State → State → Prop) : Attempt → Attempt → Prop
  | done {s t : State} {v : Int} (h : R s t) : Alike R Q (.done s v) (.done t v)
  | raise {c : Cause} {s t : State} (h : Q s t) : Alike R Q (.raise c s) (.raise c t)
  | refuse {why : Refusal} : Alike R Q (.refuse why) (.refuse why)

section
variable {R Q : State → State → Prop} {a b : Attempt}

/-- Attempts under one test are alike when both branches are. -/
theorem Attempt.Alike.ite {p : Prop} [Decidable p] {a' b' : Attempt} (h : Alike R Q a b)
    (h' : Alike R Q a' b') : Alike R Q (if p then a else a') (if p then b else b') := by
  split
  · exact h
  · exact h'

theorem Attempt.Alike.refl (hR : ∀ s, R s s) (hQ : ∀ s, Q s s) (a : Attempt) : Alike R Q a a := by
  cases a with
  | done s v => exact .done (hR s)
  | raise c s => exact .raise (hQ s)
  | refuse why => exact .refuse

/-- A command that goes on goes on alike in the other run. -/
theorem Attempt.Alike.finish_next (h : Alike R Q a b) {x : State} (hx : a.finish = .next x) :
    (∃ s t v, R s t ∧ x = s.present v ∧ b.finish = .next (t.present v)) ∨
    (∃ c s t, Q s t ∧ x = s.faultEntry c ∧ b.finish = .next (t.faultEntry c)) := by
  cases h with
  | done h =>
    cases hx
    exact .inl ⟨_, _, _, h, rfl, rfl⟩
  | raise h =>
    cases hx
    exact .inr ⟨_, _, _, h, rfl, rfl⟩
  | refuse => cases hx

theorem Attempt.Alike.finish_refused (h : Alike R Q a b) {why : Refusal}
    (ha : a.finish = .refused why) : b.finish = .refused why := by
  cases h with
  | done => cases ha
  | raise => cases ha
  | refuse => exact ha

end

/-! ## ENCODE from states with the same operands -/

/-- Both runs, begun with the files of `s` and `t` at the sink, have given it the same files. -/
def sentAlike (s t a b : State) : Prop :=
  ∃ d, a.sinkFiles = s.sinkFiles ++ d ∧ b.sinkFiles = t.sinkFiles ++ d

theorem sentAlike_of_unchanged {s t a b : State} (hs : a.sinkFiles = s.sinkFiles)
    (ht : b.sinkFiles = t.sinkFiles) : sentAlike s t a b := ⟨[], by simpa, by simpa⟩

/-- One more file, the same in both runs. -/
theorem sentAlike.file {s t a b a' b' : State} (h : sentAlike s t a b) {f : List Byte}
    (ha : a'.sinkFiles = a.sinkFiles ++ [f]) (hb : b'.sinkFiles = b.sinkFiles ++ [f]) :
    sentAlike s t a' b' := by
  obtain ⟨d, hs, ht⟩ := h
  exact ⟨d ++ [f], by rw [ha, hs, List.append_assoc], by rw [hb, ht, List.append_assoc]⟩

/-- Fault entry leaves one data path for one cause and one STATUS (spec/60_exceptions.md R284). -/
theorem faultEntry_sameDataPath {s t : State} (h : s.status = t.status) (c : Cause) :
    sameDataPath (s.faultEntry c) (t.faultEntry c) :=
  ⟨rfl, rfl, rfl, rfl, rfl, rfl, by rw [faultEntry_status, faultEntry_status, h], rfl, rfl, rfl, rfl⟩

/-- WAV.WR's stage reads the data path, the size parameters and the sink's answer only; it may begin in
states `m` and `n` that earlier stages came to. -/
theorem wavWrStage_alike {s t m n : State} (hpath : sameDataPath m n) (hparams : m.params = n.params)
    (hsink : m.sinkOk = n.sinkOk) (hsent : sentAlike s t m n) :
    Attempt.Alike (fun a b => sameDataPath a b ∧ sentAlike s t a b)
      (fun a b => a.status = b.status ∧ sentAlike s t a b) (wavWrStage m) (wavWrStage n) := by
  obtain ⟨hcrc, hnrz, hph, hxp, hyp, hyv, hstatus, hfb, hbb, hsb, -⟩ := hpath
  have hset (d : Bit) : setDone d m.status = setDone d n.status := by rw [hstatus]
  unfold wavWrStage
  rw [← hsb, ← hparams, ← hsink]
  refine .ite .refuse (.ite (.ite (.ite (.done ⟨?_, ?_⟩) (.raise ?_)) (.raise ?_)) .refuse)
  · exact ⟨hcrc, hnrz, hph, hxp, hyp, hyv, hset 1, hfb, hbb, hsb, rfl⟩
  · exact hsent.file rfl rfl
  · exact ⟨hset 0, hsent⟩
  · exact ⟨hset 0, hsent⟩

/-- ENCODE in one equation: its capacity test, its ASCII test, then WAV.WR on the modulated frame. -/
theorem encodeStages_eq (s : State) :
    encodeStages s =
      if fits (51 + 7 * s.npath + s.infom.length) s.params.fbCap then
        if frameHasNonAscii s then .raise .encodingError s.cleared else wavWrStage (modulated s)
      else .refuse .bufferFull := by
  rcases encodeStages_cases s with ⟨hfit, h⟩ | ⟨hfit, hascii, h⟩ | ⟨hfit, hascii, -, h⟩
  · simp [h, hfit]
  · simp [h, hfit, hascii]
  · simp [h, hfit, hascii]

/-- What the stages before WAV.WR leave in the data path comes from the operands in use. -/
theorem modulated_sameDataPath {s t : State} (h : sameOperands s t) :
    sameDataPath (modulated s) (modulated t) := by
  obtain ⟨hnpath, hinfom, hopm⟩ := h
  obtain ⟨hpacket, hchecked, -⟩ := packet_congr hnpath hinfom hopm
  unfold modulated
  rw [hpacket, hchecked]
  exact ⟨rfl, rfl, rfl, rfl, rfl, rfl, rfl, rfl, rfl, rfl, rfl⟩

theorem encodeStages_alike {s t : State} (hops : sameOperands s t) (hparams : s.params = t.params)
    (hsink : s.sinkOk = t.sinkOk) :
    Attempt.Alike (fun a b => sameDataPath a b ∧ sentAlike s t a b)
      (fun a b => a.status = b.status ∧ sentAlike s t a b) (encodeStages s) (encodeStages t) := by
  have hpath := modulated_sameDataPath hops
  obtain ⟨-, -, -, -, -, -, -, hsinkS, -, hfilesS, -, hparamsS⟩ := modulated_fields s
  obtain ⟨-, -, -, -, -, -, -, hsinkT, -, hfilesT, -, hparamsT⟩ := modulated_fields t
  obtain ⟨hnpath, hinfom, hopm⟩ := hops
  obtain ⟨-, -, hascii⟩ := packet_congr hnpath hinfom hopm
  rw [encodeStages_eq, encodeStages_eq, ← hnpath, ← hinfom, ← hparams, ← hascii]
  refine .ite (.ite (.raise ⟨rfl, sentAlike_of_unchanged rfl rfl⟩) ?_) .refuse
  exact wavWrStage_alike hpath (by rw [hparamsS, hparams, hparamsT]) (by rw [hsinkS, hsink, hsinkT])
    (sentAlike_of_unchanged hfilesS hfilesT)

/-- Settles O54, by the two runs of ENCODE side by side. -/
theorem encodeDependsOnItsOperandsOnly : Obligations.EncodeDependsOnItsOperandsOnly := by
  unfold Obligations.EncodeDependsOnItsOperandsOnly
  intro s t hops hparams hsink
  have halike := encodeStages_alike hops hparams hsink
  refine ⟨fun a ha => ?_, fun r hr => halike.finish_refused hr⟩
  rcases halike.finish_next ha with
    ⟨a', b', v, ⟨hpath, d, hs, ht⟩, rfl, hb⟩ | ⟨c, a', b', ⟨hstatus, d, hs, ht⟩, rfl, hb⟩
  · exact ⟨b'.present v, d, hb, hpath, .inl ⟨v, rfl, rfl⟩, hs, ht⟩
  · exact ⟨b'.faultEntry c, d, hb, faultEntry_sameDataPath hstatus c, .inr ⟨c, _, _, rfl, rfl⟩, hs, ht⟩

/-! ## Every command under another STATUS -/

/-- The states differ in STATUS at most. -/
def sameButStatus (s t : State) : Prop := ∃ st, t = { s with status := st }

theorem sameButStatus_refl (s : State) : sameButStatus s s := ⟨s.status, rfl⟩

/-- RD reads STATUS as register 7 only (spec/10_state.md R31). -/
theorem readRegister_status {n : Nat} (hn : n ≠ 7) (s : State) (st : BitVec 8) :
    readRegister { s with status := st } n = readRegister s n := by
  unfold readRegister
  split
  case h_7 => exact absurd rfl hn
  all_goals rfl

section
variable (s : State) (st : BitVec 8)

theorem frmBuildStage_status : Attempt.Alike sameButStatus sameButStatus
    (frmBuildStage s) (frmBuildStage { s with status := st }) :=
  .ite (.ite (.raise ⟨_, rfl⟩) (.done ⟨_, rfl⟩)) .refuse

theorem wavWrStage_status : Attempt.Alike sameButStatus sameButStatus
    (wavWrStage s) (wavWrStage { s with status := st }) :=
  .ite .refuse (.ite (.ite (.ite (.done ⟨_, rfl⟩) (.raise ⟨_, rfl⟩)) (.raise ⟨_, rfl⟩)) .refuse)

/-- Every command is the finish of an attempt that ends alike under another STATUS. -/
theorem exec_status {i : Instr} (hi : i ≠ .rd 7#8) :
    ∃ a b : Attempt, exec i s = a.finish ∧ exec i { s with status := st } = b.finish ∧
      a.Alike sameButStatus sameButStatus b := by
  cases i with
  | crcInit | crcUpd _ | crcFin | nrzRst | nrzBit _ | norm | hpfRst | hpfStep _ | hpf | clr | opClr =>
    exact ⟨.done _ _, .done _ _, rfl, rfl, .done ⟨_, rfl⟩⟩
  | fbPut _ | bbPut _ | bitEnc | phLd _ | toneRun _ _ | afskMod | sbPut _ | ldNp _ | ldInfo _ =>
    exact ⟨_, _, rfl, rfl, .ite (.done ⟨_, rfl⟩) .refuse⟩
  | ldCs slot c => exact ⟨_, _, rfl, rfl, .ite (.ite (.done ⟨_, rfl⟩) .refuse) .refuse⟩
  | rd r =>
    have hr : zext r ≠ 7 := fun h => hi (congrArg Instr.rd (BitVec.eq_of_toNat_eq h))
    refine ⟨_, _, rfl, rfl, ?_⟩
    rw [readRegister_status hr s st]
    cases readRegister s (zext r) with
    | some v => exact .done ⟨_, rfl⟩
    | none => exact .refuse
  | mrd sp idx =>
    have hread : readSpace { s with status := st } sp (zext idx) = readSpace s sp (zext idx) := rfl
    refine ⟨_, _, rfl, rfl, ?_⟩
    rw [hread]
    cases readSpace s sp (zext idx) with
    | ok v => exact .done ⟨_, rfl⟩
    | error why => exact .refuse
  | addrEnc slot ssid =>
    refine ⟨_, _, rfl, rfl, .ite ?_ .refuse⟩
    dsimp only
    cases addrFault (s.opm.get (zext slot)) (zext ssid) with
    | some c => exact .raise ⟨_, rfl⟩
    | none => exact .done ⟨_, rfl⟩
  | frmBuild => exact ⟨_, _, rfl, rfl, frmBuildStage_status s st⟩
  | wavWr => exact ⟨_, _, rfl, rfl, wavWrStage_status s st⟩
  | encode =>
    have hcleared : State.cleared { s with status := st } = s.cleared := rfl
    have hencode : encodeStages { s with status := st } = encodeStages s := by
      rw [encodeStages, encodeStages, hcleared]
    exact ⟨_, _, rfl, congrArg Attempt.finish hencode, .refl sameButStatus_refl sameButStatus_refl _⟩

end

/-- Settles O57, by the two runs of every command side by side. -/
theorem statusBlocksNothing : Obligations.StatusBlocksNothing := by
  unfold Obligations.StatusBlocksNothing
  intro i s st hi
  obtain ⟨a, b, ha, hb, halike⟩ := exec_status s st hi
  rw [ha, hb]
  refine ⟨fun t ht => ?_, fun r hr => halike.finish_refused hr⟩
  rcases halike.finish_next ht with ⟨u, _, v, ⟨st', rfl⟩, rfl, hu⟩ | ⟨c, u, _, ⟨st', rfl⟩, rfl, hu⟩
  · exact ⟨st', hu⟩
  · exact ⟨setErr c.code (setDone 0 st'), hu⟩

end Sys2Proof.Machine
end

section
/-! PROOFS. Which commands own the operands and which own OB (spec/10_state.md R38,
spec/20_memory.md R80, spec/47_system.md R269). -/

namespace Sys2Proof.Machine

/-! ## The owners -/

/-- OP.CLR, LD.CS, LD.NP and LD.INFO (spec/47_system.md R251 to R254). -/
def loadsOperands : Instr → Bool
  | .opClr | .ldCs _ _ | .ldNp _ | .ldInfo _ => true
  | _ => false

/-- WAV.WR, ENCODE and CLR. -/
def writesOutput : Instr → Bool
  | .wavWr | .encode | .clr => true
  | _ => false

theorem loadsOperands_eq_false {i : Instr} (hclr : i ≠ .opClr) (hcs : ∀ slot c, i ≠ .ldCs slot c)
    (hnp : ∀ n, i ≠ .ldNp n) (hinfo : ∀ c, i ≠ .ldInfo c) : loadsOperands i = false := by
  cases i with
  | opClr => exact absurd rfl hclr
  | ldCs slot c => exact absurd rfl (hcs slot c)
  | ldNp n => exact absurd rfl (hnp n)
  | ldInfo c => exact absurd rfl (hinfo c)
  | _ => rfl

theorem writesOutput_eq_true {i : Instr} (h : writesOutput i = true) :
    i = .wavWr ∨ i = .encode ∨ i = .clr := by
  cases i with
  | wavWr => exact .inl rfl
  | encode => exact .inr (.inl rfl)
  | clr => exact .inr (.inr rfl)
  | _ => cases h

/-! ## What the attempt of a command leaves -/

/-- From `s` to `t` only what is the command's to change has changed: not the size parameters, not the
queued events, and the operands only by a command that loads them. -/
structure LeavesFrame (i : Instr) (s t : State) : Prop where
  operands : loadsOperands i = false → t.opm = s.opm ∧ t.infom = s.infom ∧ t.npath = s.npath
  params : t.params = s.params
  inputs : t.inputs = s.inputs

theorem LeavesFrame.refl (i : Instr) (s : State) : LeavesFrame i s s :=
  ⟨fun _ => ⟨rfl, rfl, rfl⟩, rfl, rfl⟩

theorem LeavesFrame.trans {i : Instr} {s m t : State} (h : LeavesFrame i s m)
    (h' : LeavesFrame i m t) : LeavesFrame i s t where
  operands hi :=
    have ⟨hopm, hinfom, hnpath⟩ := h.operands hi
    have ⟨hopm', hinfom', hnpath'⟩ := h'.operands hi
    ⟨hopm'.trans hopm, hinfom'.trans hinfom, hnpath'.trans hnpath⟩
  params := h'.params.trans h.params
  inputs := h'.inputs.trans h.inputs

/-- The attempt of the command `i` at `s` leaves the frame, and when it is done OB too unless OB is the
command's to write; a fault's effect on OB is fault entry's. -/
inductive Attempt.Leaves (i : Instr) (s : State) : Attempt → Prop
  | done {t : State} {v : Int} (h : LeavesFrame i s t) (hob : writesOutput i = false → t.ob = s.ob) :
    Leaves i s (.done t v)
  | raise {c : Cause} {t : State} (h : LeavesFrame i s t) : Leaves i s (.raise c t)
  | refuse {why : Refusal} : Leaves i s (.refuse why)

theorem Attempt.Leaves.guard {i : Instr} {s : State} {p : Prop} [Decidable p] {a : Attempt}
    {why : Refusal} (h : a.Leaves i s) : (if p then a else .refuse why).Leaves i s := by
  split
  · exact h
  · exact .refuse

theorem Attempt.Leaves.finish {i : Instr} {s t : State} {a : Attempt} (h : a.Leaves i s)
    (ht : a.finish = .next t) :
    LeavesFrame i s t ∧
      (t.ob = s.ob ∨ writesOutput i = true ∨ ∃ c v, t.result = some (.fault c v)) := by
  cases h with
  | done hframe hob =>
    cases ht
    refine ⟨{ hframe with }, ?_⟩
    cases hw : writesOutput i with
    | false => exact .inl (hob hw)
    | true => exact .inr (.inl rfl)
  | raise hframe =>
    cases ht
    exact ⟨{ hframe with }, .inr (.inr ⟨_, _, rfl⟩)⟩
  | refuse => cases ht

/-! ## Every command -/

theorem frmBuildStage_leaves (s : State) : (frmBuildStage s).Leaves .frmBuild s := by
  refine .guard ?_
  split
  · exact .raise (.refl _ s)
  · exact .done ⟨fun _ => ⟨rfl, rfl, rfl⟩, rfl, rfl⟩ fun _ => rfl

/-- WAV.WR's stage for a command that owns OB, begun in a state `m` which that command came to. -/
theorem wavWrStage_leaves {i : Instr} {s m : State} (hm : LeavesFrame i s m)
    (hi : writesOutput i = true) : (wavWrStage m).Leaves i s := by
  cases ha : wavWrStage m with
  | done t v =>
    obtain ⟨rfl, -⟩ := wavWrStage_done ha
    exact .done { hm with } fun h => absurd (hi.symm.trans h) (by decide)
  | raise c t =>
    obtain ⟨-, hopm, hinfom, hnpath, -, hparams, hinputs, -⟩ := wavWrStage_raise ha
    exact .raise (hm.trans ⟨fun _ => ⟨hopm, hinfom, hnpath⟩, hparams, hinputs⟩)
  | refuse why => exact .refuse

theorem encodeStages_leaves (s : State) : (encodeStages s).Leaves .encode s := by
  obtain ⟨-, -, -, hnpath, hopm, hinfom, hinputs, -, -, -, -, hparams⟩ := modulated_fields s
  rw [encodeStages_eq]
  refine .guard ?_
  split
  · exact .raise ⟨fun _ => ⟨rfl, rfl, rfl⟩, rfl, rfl⟩
  · exact wavWrStage_leaves ⟨fun _ => ⟨hopm, hinfom, hnpath⟩, hparams, hinputs⟩ rfl

/-- Every command is the finish of an attempt that leaves what the command does not own. -/
theorem exec_leaves (i : Instr) (s : State) : ∃ a : Attempt, exec i s = a.finish ∧ a.Leaves i s := by
  cases i with
  | crcInit | crcUpd _ | crcFin | nrzRst | nrzBit _ | norm | hpfRst | hpfStep _ | hpf =>
    exact ⟨.done _ _, rfl, .done ⟨fun _ => ⟨rfl, rfl, rfl⟩, rfl, rfl⟩ fun _ => rfl⟩
  | fbPut _ | bbPut _ | bitEnc | phLd _ | toneRun _ _ | afskMod | sbPut _ =>
    exact ⟨_, rfl, .guard (.done ⟨fun _ => ⟨rfl, rfl, rfl⟩, rfl, rfl⟩ fun _ => rfl)⟩
  | opClr => exact ⟨_, rfl, .done ⟨nofun, rfl, rfl⟩ fun _ => rfl⟩
  | ldNp _ | ldInfo _ => exact ⟨_, rfl, .guard (.done ⟨nofun, rfl, rfl⟩ fun _ => rfl)⟩
  | ldCs slot c => exact ⟨_, rfl, .guard (.guard (.done ⟨nofun, rfl, rfl⟩ fun _ => rfl))⟩
  | rd r =>
    refine ⟨_, rfl, ?_⟩
    cases readRegister s (zext r) with
    | some v => exact .done (.refl _ s) fun _ => rfl
    | none => exact .refuse
  | mrd sp idx =>
    refine ⟨_, rfl, ?_⟩
    cases readSpace s sp (zext idx) with
    | ok v => exact .done (.refl _ s) fun _ => rfl
    | error why => exact .refuse
  | addrEnc slot ssid =>
    refine ⟨_, rfl, .guard ?_⟩
    cases addrFault (s.opm.get (zext slot)) (zext ssid) with
    | some c => exact .raise (.refl _ s)
    | none => exact .done (.refl _ s) fun _ => rfl
  | clr => exact ⟨.done _ _, rfl, .done ⟨fun _ => ⟨rfl, rfl, rfl⟩, rfl, rfl⟩ nofun⟩
  | frmBuild => exact ⟨_, rfl, frmBuildStage_leaves s⟩
  | wavWr => exact ⟨_, rfl, wavWrStage_leaves (.refl _ s) rfl⟩
  | encode => exact ⟨_, rfl, encodeStages_leaves s⟩

/-- Settles O59, by what the attempt of every command leaves. -/
theorem onlyTheirOwnersChangeOperandsAndOutput : Obligations.OnlyTheirOwnersChangeOperandsAndOutput := by
  unfold Obligations.OnlyTheirOwnersChangeOperandsAndOutput
  intro i s t ht
  obtain ⟨a, ha, hleaves⟩ := exec_leaves i s
  obtain ⟨hframe, hob⟩ := hleaves.finish (ha ▸ ht)
  have howner := writesOutput_eq_true (i := i)
  refine ⟨?_, by tauto, hframe.params, hframe.inputs⟩
  rintro ⟨hclr, hcs, hnp, hinfo⟩
  exact hframe.operands (loadsOperands_eq_false hclr hcs hnp hinfo)

end Sys2Proof.Machine
end

section
/-! PROOFS. No composite command is refused for a buffer's capacity in a state with the invariant
(spec/20_memory.md R66): each capacity holds what its stage makes of a buffer within the one before. -/

namespace Sys2Proof.Machine

/-! ## The stages whose result fits -/

section
variable {s : State}

theorem frmBuildStage_goes_on (h : fits (51 + 7 * s.npath + s.infom.length) s.params.fbCap = true) :
    ∃ t, (frmBuildStage s).finish = .next t := by
  rcases frmBuildStage_cases s with ⟨hfull, -⟩ | ⟨-, -, hraise⟩ | ⟨-, -, hdone⟩
  · cases h.symm.trans hfull
  · exact ⟨_, congrArg Attempt.finish hraise⟩
  · exact ⟨_, congrArg Attempt.finish hdone⟩

theorem bitEncStage_goes_on (h : fits (66 + 8 * s.fb.length) s.params.bbCap = true) :
    ∃ t, (bitEncStage s).finish = .next t := by
  rcases bitEncStage_cases s with ⟨hfull, -⟩ | ⟨-, hdone⟩
  · cases h.symm.trans hfull
  · exact ⟨_, congrArg Attempt.finish hdone⟩

theorem afskModStage_goes_on (h : fits (320 * s.bb.length) s.params.sbCap = true) :
    ∃ t, (afskModStage s).finish = .next t := by
  rcases afskModStage_cases s with ⟨hfull, -⟩ | ⟨-, hdone⟩
  · cases h.symm.trans hfull
  · exact ⟨_, congrArg Attempt.finish hdone⟩

theorem wavWrStage_goes_on (hlen : 2 * s.sb.length ≤ 2 ^ 32 - 37)
    (h : fits (44 + 2 * s.sb.length) s.params.obCap = true) :
    ∃ t, (wavWrStage s).finish = .next t := by
  rcases wavWrStage_cases s with
    ⟨hlong, -⟩ | ⟨-, hfull, -⟩ | ⟨-, -, -, hrange⟩ | ⟨-, -, -, -, hio⟩ | ⟨-, -, -, -, hdone⟩
  · exact absurd hlong (Nat.not_lt_of_le hlen)
  · cases h.symm.trans hfull
  · exact ⟨_, congrArg Attempt.finish hrange⟩
  · exact ⟨_, congrArg Attempt.finish hio⟩
  · exact ⟨_, congrArg Attempt.finish hdone⟩

/-- The frame's own fitting is enough for every later stage, and the data bytes of ENCODE's file are
two for each of its samples. -/
theorem encodeStages_goes_on (h : fits (51 + 7 * s.npath + s.infom.length) s.params.fbCap = true)
    (hlen : 640 * (474 + 56 * s.npath + 8 * s.infom.length) ≤ 2 ^ 32 - 37) :
    ∃ t, (encodeStages s).finish = .next t := by
  rcases encodeStages_cases s with ⟨hfull, -⟩ | ⟨-, -, hraise⟩ | ⟨-, -, hfile, hwave⟩
  · cases h.symm.trans hfull
  · exact ⟨_, congrArg Attempt.finish hraise⟩
  · rw [hwave]
    have hsamples := modulated_length s
    exact wavWrStage_goes_on (by omega) hfile

end

/-- Settles O11, by the chain of capacities: each buffer of a state with the invariant is within its
own, so what the next stage makes of it is within the next (spec/20_memory.md R66). -/
theorem compositeCommandsAreNotRefusedForSize : Obligations.CompositeCommandsAreNotRefusedForSize := by
  unfold Obligations.CompositeCommandsAreNotRefusedForSize
  intro s h
  obtain ⟨hnpath, -, hinfom, hfb, hbb, hsb, -⟩ := h.sizes_ok
  have hframe := frame_fits hnpath hinfom
  exact ⟨frmBuildStage_goes_on hframe, bitEncStage_goes_on (bits_fit hfb),
    afskModStage_goes_on (samples_fit hbb), ⟨_, rfl⟩, ⟨_, rfl⟩,
    fun hlen => wavWrStage_goes_on hlen (file_fits hsb), encodeStages_goes_on hframe⟩

end Sys2Proof.Machine
end

section
/-! PROOFS. The normaliser on its own output (spec/45_postprocess.md R211 to R213). -/

namespace Sys2Proof.Machine

theorem maxAbs_le_iff {l : List Int} {m : Nat} : maxAbs l ≤ m ↔ ∀ x ∈ l, x.natAbs ≤ m := by
  induction l with
  | nil => simp [maxAbs]
  | cons x l ih => simp [maxAbs, ih]

theorem maxAbs_eq_zero_iff {l : List Int} : maxAbs l = 0 ↔ ∀ x ∈ l, x = 0 := by
  rw [← Nat.le_zero, maxAbs_le_iff]
  simp

theorem rescale_natAbs (m : Nat) (x : Int) : (rescale m x).natAbs = x.natAbs * 32767 / m := by
  rw [rescale, Int.natAbs_tdiv, Int.natAbs_mul]
  rfl

/-- A sample at full scale stands for itself. -/
theorem rescale_fullScale (x : Int) : rescale 32767 x = x :=
  Int.mul_tdiv_cancel x (by decide)

theorem normalise_of_zero {l : List Int} (h : maxAbs l = 0) : normalise l = l := if_pos h

theorem normalise_of_ne_zero {l : List Int} (h : maxAbs l ≠ 0) :
    normalise l = l.map (rescale (maxAbs l)) := if_neg h

theorem normalise_of_fullScale {l : List Int} (h : maxAbs l = 32767) : normalise l = l := by
  rw [normalise_of_ne_zero (by omega), h, List.map_congr_left fun x _ => rescale_fullScale x, List.map_id']

/-- The largest sample goes to full scale and none above it (spec/45_postprocess.md R213). -/
theorem maxAbs_normalise {l : List Int} (h : maxAbs l ≠ 0) : maxAbs (normalise l) = 32767 := by
  have hpos : 0 < maxAbs l := Nat.pos_of_ne_zero h
  rw [normalise_of_ne_zero h]
  apply le_antisymm
  · refine maxAbs_le_iff.2 (List.forall_mem_map.2 fun x hx => ?_)
    rw [rescale_natAbs]
    exact Nat.div_le_of_le_mul (Nat.mul_le_mul_right 32767 (natAbs_le_maxAbs hx))
  · obtain ⟨x, hx, hmax⟩ := maxAbs_attained l h
    calc 32767 = (rescale (maxAbs l) x).natAbs := by rw [rescale_natAbs, hmax, Nat.mul_div_cancel_left _ hpos]
      _ ≤ _ := natAbs_le_maxAbs (List.mem_map_of_mem hx)

theorem normalise_normalise (l : List Int) : normalise (normalise l) = normalise l := by
  by_cases h : maxAbs l = 0
  · rw [normalise_of_zero h, normalise_of_zero h]
  · exact normalise_of_fullScale (maxAbs_normalise h)

theorem execNorm_eq (s : State) :
    exec .norm s = .next (State.present { s with sb := normalise s.sb } (maxAbs s.sb)) := rfl

/-- Settles O34, by the normaliser's fixed points: an all-zero buffer, and one whose largest absolute
sample is full scale. -/
theorem normIsIdempotent : Obligations.NormIsIdempotent := by
  unfold Obligations.NormIsIdempotent
  intro s
  refine ⟨_, maxAbs (normalise s.sb), execNorm_eq s, ?_, ?_⟩
  · simp only [execNorm_eq, present_sb, normalise_normalise]
    rfl
  · by_cases h : maxAbs s.sb = 0
    · exact .inr ⟨by rw [normalise_of_zero h, h]; rfl, maxAbs_eq_zero_iff.1 h⟩
    · refine .inl ⟨by rw [maxAbs_normalise h]; rfl, ?_⟩
      simpa [maxAbs_eq_zero_iff] using h

end Sys2Proof.Machine
end

section
/-! PROOFS. What the reads leave (spec/47_system.md R256, R257). -/

namespace Sys2Proof.Machine

theorem execRd_next {r : BitVec 8} {s t : State} (h : exec (.rd r) s = .next t) :
    ∃ v, t = s.present v := by
  simp only [exec, execRd] at h
  cases hread : readRegister s (zext r) with
  | some v => rw [hread] at h; cases h; exact ⟨v, rfl⟩
  | none => rw [hread] at h; cases h

theorem execMrd_next {sp : BitVec 3} {idx : BitVec 21} {s t : State}
    (h : exec (.mrd sp idx) s = .next t) : ∃ v, t = s.present v := by
  simp only [exec, execMrd] at h
  cases hread : readSpace s sp (zext idx) with
  | ok v => rw [hread] at h; cases h; exact ⟨v, rfl⟩
  | error why => rw [hread] at h; cases h

/-- A command that only presented a result does the same again: no command reads the result port. -/
theorem exec_again_of_present {i : Instr} {s : State} {v : Int} (h : exec i s = .next (s.present v)) :
    exec i (s.present v) = .next (s.present v) :=
  (exec_ignores_result i s (some (.done v))).trans h

/-- Settles O49, by the two reads and the result port that no command reads. -/
theorem readsChangeNothing : Obligations.ReadsChangeNothing := by
  unfold Obligations.ReadsChangeNothing
  intro i s t hi ht
  have hpresent : ∃ v, t = s.present v := by
    rcases hi with ⟨r, rfl⟩ | ⟨sp, idx, rfl⟩
    · exact execRd_next ht
    · exact execMrd_next ht
  obtain ⟨v, rfl⟩ := hpresent
  exact ⟨⟨v, rfl⟩, exec_again_of_present ht⟩

end Sys2Proof.Machine
end

section
/-! PROOFS. When ENCODE faults and when it is refused (spec/47_system.md R262,
spec/60_exceptions.md R287). -/

namespace Sys2Proof.Machine

section
variable {s : State}

theorem encodeStages_of_full (hfull : fits (51 + 7 * s.npath + s.infom.length) s.params.fbCap = false) :
    encodeStages s = .refuse .bufferFull := by
  simp [encodeStages_eq, hfull]

variable (hfit : fits (51 + 7 * s.npath + s.infom.length) s.params.fbCap = true)
include hfit

theorem encodeStages_of_not_ascii (h : ¬operandsAscii s) :
    encodeStages s = .raise .encodingError s.cleared := by
  have hascii : frameHasNonAscii s = true := by simpa [← frameHasNonAscii_eq_false_iff] using h
  simp [encodeStages_eq, hfit, hascii]

/-- On ASCII operands ENCODE comes to WAV.WR, whose file is within OB_CAP. -/
theorem encodeStages_of_ascii (h : operandsAscii s) :
    fits (44 + 2 * (modulated s).sb.length) s.params.obCap = true ∧
      encodeStages s = wavWrStage (modulated s) := by
  have hascii := (frameHasNonAscii_eq_false_iff s).2 h
  rcases encodeStages_cases s with ⟨hfull, -⟩ | ⟨-, hnon, -⟩ | ⟨-, -, hfile, hwave⟩
  · cases hfit.symm.trans hfull
  · cases hascii.symm.trans hnon
  · exact ⟨hfile, hwave⟩

/-- On ASCII operands nothing but the file's length refuses ENCODE. -/
theorem encodeStages_of_too_long (h : operandsAscii s)
    (hlong : 2 ^ 32 - 37 < 640 * (474 + 56 * s.npath + 8 * s.infom.length)) :
    encodeStages s = .refuse .fileTooLong := by
  have hsamples := modulated_length s
  rw [(encodeStages_of_ascii hfit h).2, wavWrStage, if_pos (by omega)]

/-- The samples of a modulated frame are in range, so a sink that refuses is the one fault left. -/
theorem encodeStages_of_sink_refusing (h : operandsAscii s)
    (hlen : 640 * (474 + 56 * s.npath + 8 * s.infom.length) ≤ 2 ^ 32 - 37) (hsink : s.sinkOk = false) :
    encodeStages s = .raise .ioError
      { (modulated s).asked with status := setDone 0 (modulated s).status, ob := [] } := by
  obtain ⟨hsb, -, -, -, -, -, -, hsinkOk, -, -, -, hparams⟩ := modulated_fields s
  obtain ⟨hfile, hwave⟩ := encodeStages_of_ascii hfit h
  have hsamples := modulated_length s
  rw [hwave]
  rcases wavWrStage_cases (modulated s) with
    ⟨hlong, -⟩ | ⟨-, hfull, -⟩ | ⟨-, -, hrange, -⟩ | ⟨-, -, -, -, hio⟩ | ⟨-, -, -, hok, -⟩
  · omega
  · rw [hparams] at hfull
    cases hfile.symm.trans hfull
  · rw [hsb, filtered_inRange] at hrange
    cases hrange
  · exact hio
  · rw [hsinkOk, hsink] at hok
    cases hok

end

/-- Settles O51, by what ENCODE's stages come to in each of the four cases. -/
theorem encodeFaults : Obligations.EncodeFaults := by
  unfold Obligations.EncodeFaults
  refine fun s => ⟨fun hfull => congrArg Attempt.finish (encodeStages_of_full hfull), fun hfit =>
    ⟨fun hascii => ?_, fun hascii hlong => ?_, fun hascii hlen hsink => ?_⟩⟩
  · exact congrArg Attempt.finish (encodeStages_of_not_ascii hfit hascii)
  · exact congrArg Attempt.finish (encodeStages_of_too_long hfit hascii hlong)
  · refine (congrArg Attempt.finish (encodeStages_of_sink_refusing hfit hascii hlen hsink)).trans ?_
    exact congrArg _ (staged_faultEntry s _ _ _ _ _ _ _ .ioError).2

end Sys2Proof.Machine
end

section
/-! PROOFS. What reaches the sink (spec/46_wave.md R240, spec/20_memory.md R67). -/

namespace Sys2Proof.Machine

/-- The attempt has left the files at the sink as they are in `s`. -/
def Attempt.KeepsSink (s : State) : Attempt → Prop
  | .done t _ => t.sinkFiles = s.sinkFiles
  | .raise _ t => t.sinkFiles = s.sinkFiles
  | .refuse _ => True

theorem Attempt.KeepsSink.guard {s : State} {p : Prop} [Decidable p] {a : Attempt} {why : Refusal}
    (h : a.KeepsSink s) : (if p then a else .refuse why).KeepsSink s := by
  split
  · exact h
  · trivial

theorem Attempt.KeepsSink.finish {s t : State} {a : Attempt} (h : a.KeepsSink s)
    (ht : a.finish = .next t) : t.sinkFiles = s.sinkFiles := by
  rcases finish_eq_next ht with ⟨m, v, rfl, rfl⟩ | ⟨c, m, rfl, rfl⟩
  · exact h
  · exact h

/-- Every command but WAV.WR and ENCODE is the finish of an attempt that leaves the sink alone. -/
theorem exec_keepsSink {i : Instr} (hwave : i ≠ .wavWr) (hencode : i ≠ .encode) (s : State) :
    ∃ a : Attempt, exec i s = a.finish ∧ a.KeepsSink s := by
  cases i with
  | clr | opClr | crcInit | crcUpd _ | crcFin | nrzRst | nrzBit _ | norm | hpfRst | hpfStep _ | hpf =>
    exact ⟨.done _ _, rfl, rfl⟩
  | ldNp _ | ldInfo _ | fbPut _ | bbPut _ | bitEnc | phLd _ | toneRun _ _ | afskMod | sbPut _ =>
    exact ⟨_, rfl, .guard rfl⟩
  | ldCs slot c => exact ⟨_, rfl, .guard (.guard rfl)⟩
  | rd r =>
    refine ⟨_, rfl, ?_⟩
    cases readRegister s (zext r) with
    | some v => exact rfl
    | none => trivial
  | mrd sp idx =>
    refine ⟨_, rfl, ?_⟩
    cases readSpace s sp (zext idx) with
    | ok v => exact rfl
    | error why => trivial
  | addrEnc slot ssid =>
    refine ⟨_, rfl, .guard ?_⟩
    cases addrFault (s.opm.get (zext slot)) (zext ssid) with
    | some c => exact rfl
    | none => exact rfl
  | frmBuild =>
    refine ⟨_, rfl, .guard ?_⟩
    split
    · exact rfl
    · exact rfl
  | wavWr => exact absurd rfl hwave
  | encode => exact absurd rfl hencode

/-- One file more than at `s` is at the sink: OB, whole, with DONE set and its length returned. -/
structure DeliveredWhole (s t : State) : Prop where
  sent : t.sinkFiles = s.sinkFiles ++ [t.ob]
  whole : IsWholeFile t.ob
  done : statusDone t.status = 1#1
  returned : t.result = some (.done t.ob.length)

/-- WAV.WR's stage, begun in a state `m` that has the sink's files of `s`, delivers one whole file or
nothing. -/
theorem wavWrStage_delivers {s m t : State} (hm : m.sinkFiles = s.sinkFiles)
    (ht : (wavWrStage m).finish = .next t) : t.sinkFiles = s.sinkFiles ∨ DeliveredWhole s t := by
  rcases finish_eq_next ht with ⟨d, v, hdone, rfl⟩ | ⟨c, f, hraise, rfl⟩
  · obtain ⟨rfl, rfl, hrange, -⟩ := wavWrStage_done hdone
    exact .inr ⟨congrArg (· ++ [waveFile m.sb]) hm, ⟨m.sb, hrange, rfl⟩, by simp, by simp⟩
  · obtain ⟨-, -, -, -, hsink, -⟩ := wavWrStage_raise hraise
    exact .inl (hsink.trans hm)

theorem encodeStages_delivers {s t : State} (ht : (encodeStages s).finish = .next t) :
    t.sinkFiles = s.sinkFiles ∨ DeliveredWhole s t := by
  obtain ⟨-, -, -, -, -, -, -, -, -, hfiles, -⟩ := modulated_fields s
  rcases encodeStages_cases s with ⟨-, hstages⟩ | ⟨-, -, hstages⟩ | ⟨-, -, -, hstages⟩ <;> rw [hstages] at ht
  · cases ht
  · cases ht
    exact .inl rfl
  · exact wavWrStage_delivers hfiles ht

/-- Settles O58, by WAV.WR's stage, which alone gives the sink a file. -/
theorem outputIsAllOrNothing : Obligations.OutputIsAllOrNothing := by
  unfold Obligations.OutputIsAllOrNothing
  intro i s t ht
  by_cases hi : i = .wavWr ∨ i = .encode
  · have hdelivers : t.sinkFiles = s.sinkFiles ∨ DeliveredWhole s t := by
      rcases hi with rfl | rfl
      · exact wavWrStage_delivers rfl ht
      · exact encodeStages_delivers ht
    exact hdelivers.imp_right fun h => ⟨h.sent, h.whole, h.done, hi, h.returned⟩
  · obtain ⟨hwave, hencode⟩ := not_or.1 hi
    obtain ⟨a, ha, hkeeps⟩ := exec_keepsSink hwave hencode s
    exact .inl (hkeeps.finish (ha ▸ ht))

end Sys2Proof.Machine
end

section
/-! PROOFS. Decoding and encoding invert each other, and the words that decode are those of the
operation table (spec/30_encoding.md R91 to R96). -/

namespace Sys2Proof

/-! ## Decoding the word of a command -/

theorem decode_encode {i : Instr} (h : i.wf = true) : decode (encode i) = .ok i := by
  cases i with
  | clr | encode | opClr | crcInit | crcFin | frmBuild | nrzRst | bitEnc | afskMod | norm | hpfRst | hpf
  | wavWr => rfl
  | rd a | ldNp a | ldInfo a | crcUpd a | fbPut a =>
    rw [encode, decode, opField_byte]
    exact formatB_join _ a _
  | nrzBit a | bbPut a =>
    rw [encode, decode, opField_bit]
    exact formatBit_join _ a _
  | ldCs a b | addrEnc a b =>
    rw [encode, decode, opField_slot]
    exact formatS_join _ a b _
  | phLd a | sbPut a | hpfStep a =>
    rw [encode, decode, opField_wide]
    exact formatW_join _ a _
  | toneRun f n =>
    rw [encode, decode, opField_tone]
    exact formatT_join _ f n _
  | mrd sp idx =>
    rw [encode, decode, opField_space]
    exact formatM_join _ sp idx _ h

/-- Settles O1, format by format: the fields joined into the word are read back. -/
theorem decodeOfEncodeGivesTheCommand : Obligations.DecodeOfEncodeGivesTheCommand := by
  unfold Obligations.DecodeOfEncodeGivesTheCommand
  exact fun _ h => decode_encode h

/-! ## The word of the command that a word decodes to -/

section
variable {w : Word} {op : BitVec 8} {i : Instr} (hop : opField w = op)
include hop

theorem formatZ_sound {j : Instr} (henc : encode j = op ++ 0#24) (hwf : j.wf = true)
    (h : formatZ w j = .ok i) : encode i = w ∧ i.wf = true := by
  unfold formatZ at h
  split at h
  · rename_i hzero
    cases h
    exact ⟨by rw [henc, ← hop, ← hzero, ← word_wide], hwf⟩
  · cases h

theorem formatB_sound {f : BitVec 8 → Instr} (henc : ∀ a, encode (f a) = op ++ 0#16 ++ a)
    (hwf : ∀ a, (f a).wf = true) (h : formatB w f = .ok i) : encode i = w ∧ i.wf = true := by
  unfold formatB at h
  split at h
  · rename_i hzero
    cases h
    exact ⟨by rw [henc, ← hop, ← hzero, ← word_byte], hwf _⟩
  · cases h

theorem formatBit_sound {f : BitVec 1 → Instr} (henc : ∀ a, encode (f a) = op ++ 0#23 ++ a)
    (hwf : ∀ a, (f a).wf = true) (h : formatBit w f = .ok i) : encode i = w ∧ i.wf = true := by
  unfold formatBit at h
  split at h
  · rename_i hzero
    cases h
    exact ⟨by rw [henc, ← hop, ← hzero, ← word_bit], hwf _⟩
  · cases h

theorem formatS_sound {f : BitVec 8 → BitVec 8 → Instr}
    (henc : ∀ a b, encode (f a b) = op ++ 0#8 ++ a ++ b) (hwf : ∀ a b, (f a b).wf = true)
    (h : formatS w f = .ok i) : encode i = w ∧ i.wf = true := by
  unfold formatS at h
  split at h
  · rename_i hzero
    cases h
    exact ⟨by rw [henc, ← hop, ← hzero, ← word_slot], hwf _ _⟩
  · cases h

theorem formatW_sound {f : BitVec 24 → Instr} (henc : ∀ a, encode (f a) = op ++ a)
    (hwf : ∀ a, (f a).wf = true) (h : formatW w f = .ok i) : encode i = w ∧ i.wf = true := by
  cases h
  exact ⟨by rw [henc, ← hop, ← word_wide], hwf _⟩

theorem formatT_sound {f : BitVec 12 → BitVec 12 → Instr} (henc : ∀ a b, encode (f a b) = op ++ a ++ b)
    (hwf : ∀ a b, (f a b).wf = true) (h : formatT w f = .ok i) : encode i = w ∧ i.wf = true := by
  cases h
  exact ⟨by rw [henc, ← hop, ← word_tone], hwf _ _⟩

theorem formatM_sound {f : BitVec 3 → BitVec 21 → Instr} (henc : ∀ a b, encode (f a b) = op ++ a ++ b)
    (hwf : ∀ a b, selectorOk a = true → (f a b).wf = true) (h : formatM w f = .ok i) :
    encode i = w ∧ i.wf = true := by
  unfold formatM at h
  split at h
  · rename_i hsel
    cases h
    exact ⟨by rw [henc, ← hop, ← word_space], hwf _ _ hsel⟩
  · cases h

end

theorem encode_of_decode {w : Word} {i : Instr} (h : decode w = .ok i) : encode i = w ∧ i.wf = true := by
  unfold decode at h
  split at h
  case h_1 hop | h_4 hop | h_5 hop | h_9 hop | h_11 hop | h_14 hop | h_15 hop | h_18 hop | h_21 hop
      | h_23 hop | h_24 hop | h_26 hop | h_27 hop =>
    exact formatZ_sound (opField_of_toNat hop) rfl rfl h
  case h_2 hop | h_7 hop | h_8 hop | h_10 hop | h_13 hop =>
    exact formatB_sound (opField_of_toNat hop) (fun _ => rfl) (fun _ => rfl) h
  case h_3 hop => exact formatM_sound (f := .mrd) (opField_of_toNat hop) (fun _ _ => rfl) (fun _ _ => id) h
  case h_6 hop | h_12 hop =>
    exact formatS_sound (opField_of_toNat hop) (fun _ _ => rfl) (fun _ _ => rfl) h
  case h_16 hop | h_17 hop =>
    exact formatBit_sound (opField_of_toNat hop) (fun _ => rfl) (fun _ => rfl) h
  case h_19 hop | h_22 hop | h_25 hop =>
    exact formatW_sound (opField_of_toNat hop) (fun _ => rfl) (fun _ => rfl) h
  case h_20 hop => exact formatT_sound (opField_of_toNat hop) (fun _ _ => rfl) (fun _ _ => rfl) h
  case h_28 => cases h

/-- Settles O2, format by format: a word is the join of the fields that the decoder reads. -/
theorem encodeOfDecodeGivesTheWord : Obligations.EncodeOfDecodeGivesTheWord := by
  unfold Obligations.EncodeOfDecodeGivesTheWord
  exact fun _ _ h => encode_of_decode h

/-! ## The words of the operation table -/

/-- Every command's word is one of its own row's. -/
theorem encode_covered (i : Instr) : Laws.RowWord.Statement i := by
  cases i with
  | clr => exact Laws.RowWord.clr
  | rd r => exact Laws.RowWord.rd r
  | mrd sp idx => exact Laws.RowWord.mrd sp idx
  | encode => exact Laws.RowWord.encode
  | opClr => exact Laws.RowWord.opClr
  | ldCs slot c => exact Laws.RowWord.ldCs slot c
  | ldNp n => exact Laws.RowWord.ldNp n
  | ldInfo c => exact Laws.RowWord.ldInfo c
  | crcInit => exact Laws.RowWord.crcInit
  | crcUpd imm8 => exact Laws.RowWord.crcUpd imm8
  | crcFin => exact Laws.RowWord.crcFin
  | addrEnc slot ssid => exact Laws.RowWord.addrEnc slot ssid
  | fbPut imm8 => exact Laws.RowWord.fbPut imm8
  | frmBuild => exact Laws.RowWord.frmBuild
  | nrzRst => exact Laws.RowWord.nrzRst
  | nrzBit bit => exact Laws.RowWord.nrzBit bit
  | bbPut bit => exact Laws.RowWord.bbPut bit
  | bitEnc => exact Laws.RowWord.bitEnc
  | phLd imm24 => exact Laws.RowWord.phLd imm24
  | toneRun f n => exact Laws.RowWord.toneRun f n
  | afskMod => exact Laws.RowWord.afskMod
  | sbPut imm24 => exact Laws.RowWord.sbPut imm24
  | norm => exact Laws.RowWord.norm
  | hpfRst => exact Laws.RowWord.hpfRst
  | hpfStep imm24 => exact Laws.RowWord.hpfStep imm24
  | hpf => exact Laws.RowWord.hpf
  | wavWr => exact Laws.RowWord.wavWr

/-- A bit vector is its high bits joined with its low bits. -/
theorem fields_whole {n m : Nat} (a : BitVec (n + m)) : a.extractLsb' m n ++ a.extractLsb' 0 m = a := by
  have hjoin := fields_join a 0 n m
  rw [Nat.zero_add] at hjoin
  exact hjoin.trans BitVec.extractLsb'_eq_self

/-- A word whose high bits are masked to `p` is `p` joined with its low bits. -/
theorem eq_append_of_masked {n m : Nat} {w : BitVec (n + m)} {p : BitVec n}
    (h : w &&& (BitVec.allOnes n ++ 0#m) = p ++ 0#m) : w = p ++ w.extractLsb' 0 m := by
  have hhigh : w.extractLsb' m n = p := by
    rw [← fields_whole w, Laws.RowWord.masked, BitVec.and_allOnes, BitVec.and_zero] at h
    simpa [BitVec.extractLsb'_append_eq_left] using congrArg (BitVec.extractLsb' m n) h
  rw [← hhigh, fields_whole]

/-- Every word that the row covers is the word of a command of the row. -/
def OpRow.AllEncoded (r : OpRow) : Prop :=
  ∀ w : Word, w &&& r.mask = r.pattern → ∃ i, encode i = w ∧ i.mnemonic = r.mnemonic

section
variable (op : BitVec 8) {name : String}

theorem allEncoded_formatZ (i : Instr) (henc : encode i = op ++ 0#24) (hname : i.mnemonic = name) :
    OpRow.AllEncoded ⟨name, op ++ 0#24, BitVec.allOnes 32⟩ := by
  intro w hw
  rw [BitVec.and_allOnes] at hw
  exact ⟨i, henc.trans hw.symm, hname⟩

theorem allEncoded_formatB (f : BitVec 8 → Instr) (henc : ∀ a, encode (f a) = op ++ 0#16 ++ a)
    (hname : ∀ a, (f a).mnemonic = name) :
    OpRow.AllEncoded ⟨name, op ++ 0#16 ++ 0#8, BitVec.allOnes 24 ++ 0#8⟩ :=
  fun _ hw => ⟨_, (henc _).trans (eq_append_of_masked hw).symm, hname _⟩

theorem allEncoded_formatBit (f : BitVec 1 → Instr) (henc : ∀ a, encode (f a) = op ++ 0#23 ++ a)
    (hname : ∀ a, (f a).mnemonic = name) :
    OpRow.AllEncoded ⟨name, op ++ 0#23 ++ 0#1, BitVec.allOnes 31 ++ 0#1⟩ :=
  fun _ hw => ⟨_, (henc _).trans (eq_append_of_masked hw).symm, hname _⟩

theorem allEncoded_formatS (f : BitVec 8 → BitVec 8 → Instr)
    (henc : ∀ a b, encode (f a b) = op ++ 0#8 ++ a ++ b) (hname : ∀ a b, (f a b).mnemonic = name) :
    OpRow.AllEncoded ⟨name, op ++ 0#8 ++ 0#16, BitVec.allOnes 16 ++ 0#16⟩ := by
  intro w hw
  refine ⟨f (w.extractLsb' 8 8) (w.extractLsb' 0 8), ?_, hname _ _⟩
  rw [henc, BitVec.append_assoc]
  exact (congrArg _ (fields_join w 0 8 8)).trans (eq_append_of_masked hw).symm

theorem allEncoded_formatW (f : BitVec 24 → Instr) (henc : ∀ a, encode (f a) = op ++ a)
    (hname : ∀ a, (f a).mnemonic = name) :
    OpRow.AllEncoded ⟨name, op ++ 0#24, BitVec.allOnes 8 ++ 0#24⟩ :=
  fun _ hw => ⟨_, (henc _).trans (eq_append_of_masked hw).symm, hname _⟩

theorem allEncoded_formatT (f : BitVec 12 → BitVec 12 → Instr)
    (henc : ∀ a b, encode (f a b) = op ++ a ++ b) (hname : ∀ a b, (f a b).mnemonic = name) :
    OpRow.AllEncoded ⟨name, op ++ 0#24, BitVec.allOnes 8 ++ 0#24⟩ :=
  allEncoded_formatW op (fun a => f (a.extractLsb' 12 12) (a.extractLsb' 0 12))
    (fun a => by
      rw [henc, BitVec.append_assoc]
      exact congrArg (op ++ ·) (fields_whole (n := 12) (m := 12) a)) fun _ => hname _ _

theorem allEncoded_formatM (f : BitVec 3 → BitVec 21 → Instr)
    (henc : ∀ a b, encode (f a b) = op ++ a ++ b) (hname : ∀ a b, (f a b).mnemonic = name) :
    OpRow.AllEncoded ⟨name, op ++ 0#24, BitVec.allOnes 8 ++ 0#24⟩ :=
  allEncoded_formatW op (fun a => f (a.extractLsb' 21 3) (a.extractLsb' 0 21))
    (fun a => by
      rw [henc, BitVec.append_assoc]
      exact congrArg (op ++ ·) (fields_whole (n := 3) (m := 21) a)) fun _ => hname _ _

end

theorem allEncoded_opTableLow : ∀ r ∈ opTableLow, r.AllEncoded := by
  simp only [opTableLow, List.forall_mem_cons]
  exact ⟨allEncoded_formatZ 0x01#8 .clr rfl rfl,
    allEncoded_formatB 0x02#8 .rd (fun _ => rfl) fun _ => rfl,
    allEncoded_formatM 0x03#8 .mrd (fun _ _ => rfl) fun _ _ => rfl,
    allEncoded_formatZ 0x04#8 .encode rfl rfl,
    allEncoded_formatZ 0x08#8 .opClr rfl rfl,
    allEncoded_formatS 0x09#8 .ldCs (fun _ _ => rfl) fun _ _ => rfl,
    allEncoded_formatB 0x0A#8 .ldNp (fun _ => rfl) fun _ => rfl,
    allEncoded_formatB 0x0B#8 .ldInfo (fun _ => rfl) fun _ => rfl,
    allEncoded_formatZ 0x10#8 .crcInit rfl rfl,
    allEncoded_formatB 0x11#8 .crcUpd (fun _ => rfl) fun _ => rfl,
    allEncoded_formatZ 0x12#8 .crcFin rfl rfl,
    allEncoded_formatS 0x20#8 .addrEnc (fun _ _ => rfl) fun _ _ => rfl,
    allEncoded_formatB 0x30#8 .fbPut (fun _ => rfl) fun _ => rfl,
    allEncoded_formatZ 0x31#8 .frmBuild rfl rfl, nofun⟩

theorem allEncoded_opTableHigh : ∀ r ∈ opTableHigh, r.AllEncoded := by
  simp only [opTableHigh, List.forall_mem_cons]
  exact ⟨allEncoded_formatZ 0x40#8 .nrzRst rfl rfl,
    allEncoded_formatBit 0x41#8 .nrzBit (fun _ => rfl) fun _ => rfl,
    allEncoded_formatBit 0x42#8 .bbPut (fun _ => rfl) fun _ => rfl,
    allEncoded_formatZ 0x43#8 .bitEnc rfl rfl,
    allEncoded_formatW 0x50#8 .phLd (fun _ => rfl) fun _ => rfl,
    allEncoded_formatT 0x51#8 .toneRun (fun _ _ => rfl) fun _ _ => rfl,
    allEncoded_formatZ 0x52#8 .afskMod rfl rfl,
    allEncoded_formatW 0x60#8 .sbPut (fun _ => rfl) fun _ => rfl,
    allEncoded_formatZ 0x61#8 .norm rfl rfl,
    allEncoded_formatZ 0x62#8 .hpfRst rfl rfl,
    allEncoded_formatW 0x63#8 .hpfStep (fun _ => rfl) fun _ => rfl,
    allEncoded_formatZ 0x64#8 .hpf rfl rfl,
    allEncoded_formatZ 0x70#8 .wavWr rfl rfl, nofun⟩

/-- The one check that the operand widths leave open is MRD's selector. -/
theorem wf_of_selector {i : Instr} {w : Word} (hw : encode i = w)
    (hsel : ¬(i.mnemonic = "MRD" ∧ 6 ≤ (w.extractLsb' 21 3).toNat)) : i.wf = true := by
  cases i with
  | mrd sp idx =>
    rw [← hw, encode, field_mid] at hsel
    exact decide_eq_true (Nat.lt_of_not_le fun hle => hsel ⟨rfl, hle⟩)
  | _ => rfl

theorem decode_of_covered {r : OpRow} {w : Word} (hr : r ∈ opTable) (hw : w &&& r.mask = r.pattern)
    (hsel : ¬(r.mnemonic = "MRD" ∧ 6 ≤ (w.extractLsb' 21 3).toNat)) :
    ∃ i, decode w = .ok i ∧ i.mnemonic = r.mnemonic := by
  have henc : r.AllEncoded :=
    (List.mem_append.1 hr).elim (allEncoded_opTableLow r) (allEncoded_opTableHigh r)
  obtain ⟨i, hi, hname⟩ := henc w hw
  have hwf : i.wf = true := wf_of_selector hi (hname ▸ hsel)
  exact ⟨i, hi ▸ decode_encode hwf, hname⟩

theorem covered_of_decode {w : Word} {i : Instr} (h : decode w = .ok i) :
    ∃ r ∈ opTable, r.mnemonic = i.mnemonic ∧ w &&& r.mask = r.pattern :=
  (encode_of_decode h).1 ▸ encode_covered i

/-- Settles O3: a word that decodes is its command's word, which is of the command's row, and a word of
a row is the word of a command of the row. -/
theorem decodeAcceptsExactlyTheTableWords : Obligations.DecodeAcceptsExactlyTheTableWords := by
  unfold Obligations.DecodeAcceptsExactlyTheTableWords
  exact fun _ => ⟨fun _ => covered_of_decode, fun _ => decode_of_covered⟩

/-- Settles O5: each word is written out, so the decoder runs. -/
theorem specExampleWordsDecode : Obligations.SpecExampleWordsDecode := by
  unfold Obligations.SpecExampleWordsDecode
  decide

/-! ## Reserved words -/

theorem decode_of_not_covered {w : Word} (h : ∀ r ∈ opTable, w &&& r.mask ≠ r.pattern) :
    ∃ why, decode w = .error why := by
  cases hd : decode w with
  | error why => exact ⟨why, rfl⟩
  | ok i =>
    obtain ⟨r, hr, -, hw⟩ := covered_of_decode hd
    exact absurd hw (h r hr)

theorem decode_of_reserved_selector {w : Word} (hop : opField w = 0x03#8)
    (hsel : 6 ≤ (w.extractLsb' 21 3).toNat) :
    decode w = .error (.reservedSelector (w.extractLsb' 21 3)) := by
  have hno : ¬selectorOk (w.extractLsb' 21 3) = true := fun h => absurd (of_decide_eq_true h) (by omega)
  rw [decode, hop]
  exact if_neg hno

namespace Machine

theorem step_of_reserved_word {s : State} {w : Word} {rest : List Input} {why : DecodeError}
    (hin : s.inputs = .command w :: rest) (hw : decode w = .error why) :
    step s = .refused (.reservedWord why) := by
  simp only [step, hin, hw]

/-- Settles O4: what no row covers does not decode, and neither does a reserved selector. -/
theorem reservedWordsAreRefused : Obligations.ReservedWordsAreRefused := by
  unfold Obligations.ReservedWordsAreRefused
  refine ⟨fun s w rest hin hres => ?_, by decide⟩
  obtain ⟨why, hwhy⟩ : ∃ why, decode w = .error why := by
    rcases hres with hrow | ⟨hop, hsel⟩
    · exact decode_of_not_covered hrow
    · exact ⟨_, decode_of_reserved_selector hop hsel⟩
  exact ⟨why, step_of_reserved_word hin hwhy⟩

end Machine

end Sys2Proof
end

section
/-! PROOFS. Runs of the words of commands: the checksum sequence and LD.STR (spec/30_encoding.md R97,
spec/40_crc.md R123, spec/47_system.md R252). -/

namespace Sys2Proof.Machine

/-- A run whose next event is the word of a command takes the command and goes on. -/
theorem run_command {s t : State} {i : Instr} {rest : List Input} (k : Nat) (hwf : i.wf = true)
    (hin : s.inputs = .command (encode i) :: rest) (ht : exec i { s with inputs := rest } = .next t) :
    Host.Core.run core (k + 1) s = Host.Core.run core k t := by
  have hstep : core.step s = .next t := (step_of_command hin (decode_encode hwf)).trans ht
  simp only [Host.Core.run, hstep]

/-! ## The checksum sequence -/

/-- From any CRC, one CRC.UPD a byte and CRC.FIN return the final XOR of the register they leave. -/
theorem run_crcUpds (bytes : List Byte) (s : State) (rest : List Input)
    (hin : s.inputs = commandInputs (bytes.map .crcUpd ++ [.crcFin]) ++ rest) :
    Host.Core.run core (bytes.length + 1) s =
      .next (State.present { s with inputs := rest, crc := crcRun s.crc bytes }
        (crcFinal (crcRun s.crc bytes)).toNat) := by
  induction bytes generalizing s with
  | nil => exact run_command 0 rfl hin rfl
  | cons b bytes ih =>
    rw [List.length_cons, run_command _ rfl hin rfl]
    exact ih _ rfl

/-- Settles O14, by induction on the bytes from any CRC. -/
theorem crcSequenceReturnsTheChecksum : Obligations.CrcSequenceReturnsTheChecksum := by
  unfold Obligations.CrcSequenceReturnsTheChecksum
  intro bytes s rest hin
  rw [run_command (bytes.length + 1) rfl hin rfl]
  exact run_crcUpds bytes _ rest rfl

/-! ## LD.STR -/

theorem exec_ldCs {s : State} {slot : BitVec 8} (c : Byte) (hslot : slotExists s.params slot.toNat = true)
    (hfit : fits ((s.opm.get slot.toNat).length + 1) s.params.csInMax = true) :
    exec (.ldCs slot c) s = .next (State.present { s with opm := s.opm.append slot.toNat c }
      ((s.opm.get slot.toNat).length + 1)) := by
  rw [exec, execLdCs, zext, if_pos hslot, if_pos hfit]
  rfl

/-- OPM with the characters of a text appended to a slot, one after another. -/
def Memory.appendText (m : Memory) (k : Nat) : List Byte → Memory
  | [] => m
  | c :: text => (m.append k c).appendText k text

theorem Memory.get_appendText_same {m : Memory} (k : Nat) (text : List Byte) (h : m.wf = true) :
    (m.appendText k text).get k = m.get k ++ text := by
  induction text generalizing m with
  | nil => exact (List.append_nil _).symm
  | cons c text ih =>
    rw [appendText, ih (append_wf m k c h), get_append_same m k c (wf_rising h), List.append_assoc,
      List.singleton_append]

theorem Memory.get_appendText_other {m : Memory} {k k' : Nat} (text : List Byte) (hk : k' ≠ k) :
    (m.appendText k text).get k' = m.get k' := by
  induction text generalizing m with
  | nil => rfl
  | cons c text ih => rw [appendText, ih, get_append_other m c hk]

/-- One LD.CS a character appends the text while it fits. -/
theorem run_ldStr {s : State} {slot : BitVec 8} {text : List Byte} {rest : List Input}
    (hwf : s.opm.wf = true) (hslot : slotExists s.params slot.toNat = true)
    (hfit : fits ((s.opm.get slot.toNat).length + text.length) s.params.csInMax = true)
    (hin : s.inputs = commandInputs (text.map fun c => .ldCs slot c) ++ rest) :
    ∃ r, Host.Core.run core text.length s =
      .next { s with opm := s.opm.appendText slot.toNat text, inputs := rest, result := r } := by
  induction text generalizing s with
  | nil =>
    have hrest : s.inputs = rest := hin
    exact ⟨s.result, hrest ▸ rfl⟩
  | cons c text ih =>
    rw [List.length_cons] at hfit
    have hlen : ((s.opm.append slot.toNat c).get slot.toNat).length = (s.opm.get slot.toNat).length + 1 := by
      rw [Memory.get_append_same s.opm slot.toNat c (Memory.wf_rising hwf), List.length_append,
        List.length_singleton]
    have hone : fits ((s.opm.get slot.toNat).length + 1) s.params.csInMax = true :=
      fits_of_le (by omega) hfit
    rw [List.length_cons, run_command text.length rfl hin (exec_ldCs c hslot hone)]
    refine ih (Memory.append_wf s.opm slot.toNat c hwf) hslot ?_ rfl
    exact fits_of_le (by rw [present_opm, hlen]; omega) hfit

/-- Settles O45, by what the appends of the text's characters leave in each slot. -/
theorem ldStrLoadsTheText : Obligations.LdStrLoadsTheText := by
  unfold Obligations.LdStrLoadsTheText
  intro s slot text rest hwf hslot hfit hin
  obtain ⟨r, hrun⟩ := run_ldStr hwf hslot hfit hin
  exact ⟨_, hrun, Memory.get_appendText_same _ text hwf, fun _ => Memory.get_appendText_other text, rfl⟩

end Sys2Proof.Machine
end

section
/-! PROOFS. ENCODE against its stages run as commands (spec/47_system.md R262). -/

namespace Sys2Proof.Machine

/-- The attempt ends done, and `t` is the state with its result presented. -/
def Attempt.EndsDoneIn (a : Attempt) (t : State) : Prop := ∃ m v, a = .done m v ∧ t = m.present v

/-- The stage ends in no fault. -/
def RaisesNothing (f : State → Attempt) : Prop := ∀ s c u, f s ≠ .raise c u

/-- An attempt that goes on with no fault has ended done. -/
theorem endsDoneIn_of_finish {a : Attempt} {t : State} (hraise : ∀ c u, a ≠ .raise c u)
    (ht : a.finish = .next t) : a.EndsDoneIn t := by
  rcases finish_eq_next ht with ⟨m, v, ha, hm⟩ | ⟨c, m, ha, -⟩
  · exact ⟨m, v, ha, hm⟩
  · exact absurd ha (hraise c m)

section
variable {a : Attempt} {t : State} {i : Instr} {f : State → Attempt}
  (hi : ∀ s, exec i s = (f s).finish) (ha : a.EndsDoneIn t)
include hi ha

/-- A stage after one that ended done comes to what its command does there: no command reads the result
port. -/
theorem finish_andThen : (a.andThen f).finish = exec i t := by
  obtain ⟨m, v, rfl, rfl⟩ := ha
  exact (hi m).symm.trans (exec_ignores_result i m _).symm

theorem endsDoneIn_andThen (hf : RaisesNothing f) {u : State} (hu : exec i t = .next u) :
    (a.andThen f).EndsDoneIn u := by
  refine endsDoneIn_of_finish (fun c x h => ?_) ((finish_andThen hi ha).trans hu)
  obtain ⟨m, v, rfl, -⟩ := ha
  exact hf m c x h

end

theorem bitEncStage_raisesNothing : RaisesNothing bitEncStage := by
  intro s c u h
  rcases bitEncStage_cases s with ⟨-, k⟩ | ⟨-, k⟩ <;> cases k.symm.trans h

theorem afskModStage_raisesNothing : RaisesNothing afskModStage := by
  intro s c u h
  rcases afskModStage_cases s with ⟨-, k⟩ | ⟨-, k⟩ <;> cases k.symm.trans h

theorem normStage_raisesNothing : RaisesNothing normStage := by
  intro s c u h
  rw [normStage] at h
  cases h

theorem hpfStage_raisesNothing : RaisesNothing hpfStage := by
  intro s c u h
  rw [hpfStage] at h
  cases h

/-- FRM.BUILD raises EncodingError on operands that are not ASCII, and nothing else. -/
theorem frmBuildStage_raise_iff {s : State} (hfit : frmBuildStage s ≠ .refuse .bufferFull) :
    (∃ c u, frmBuildStage s = .raise c u) ↔ ¬operandsAscii s := by
  rw [← frameHasNonAscii_eq_false_iff]
  rcases frmBuildStage_cases s with ⟨-, k⟩ | ⟨-, hn, k⟩ | ⟨-, hn, k⟩
  · exact absurd k hfit
  · simp [k, hn]
  · simp [k, hn]

/-- Settles O53: each stage of ENCODE comes to what its command does, until one does not end done. -/
theorem encodeEqualsTheCommandSequence : Obligations.EncodeEqualsTheCommandSequence := by
  unfold Obligations.EncodeEqualsTheCommandSequence
  intro s t1 t2 h1 h2
  have hframe : (frmBuildStage s.cleared).finish = .next t2 := by
    cases h1
    exact (exec_ignores_result .frmBuild s.cleared _).symm.trans h2
  have hfit : frmBuildStage s.cleared ≠ .refuse .bufferFull := fun h => by simp [h] at hframe
  have hraise := frmBuildStage_raise_iff hfit
  refine ⟨fun hascii t3 t4 t5 t6 t7 h3 h4 h5 h6 h7 => ?_, fun hascii => ?_⟩
  · have d2 := endsDoneIn_of_finish (fun c u h => hraise.1 ⟨c, u, h⟩ hascii) hframe
    have d3 := endsDoneIn_andThen (i := .bitEnc) (fun _ => rfl) d2 bitEncStage_raisesNothing h3
    have d4 := endsDoneIn_andThen (i := .afskMod) (fun _ => rfl) d3 afskModStage_raisesNothing h4
    have d5 := endsDoneIn_andThen (i := .norm) (fun _ => rfl) d4 normStage_raisesNothing h5
    have d6 := endsDoneIn_andThen (i := .hpf) (fun _ => rfl) d5 hpfStage_raisesNothing h6
    exact (finish_andThen (i := .wavWr) (fun _ => rfl) d6).trans h7
  · obtain ⟨c, u, hc⟩ := hraise.2 hascii
    rw [← hframe, exec, execEncode, encodeStages, hc]
    rfl

end Sys2Proof.Machine
end

section
/-! PROOFS. The checksum commands: CRC.INIT, CRC.UPD and CRC.FIN written out, and the residue of a byte
sequence followed by its own checksum (spec/40_crc.md R121 to R127, R130). -/

namespace Sys2Proof.Machine

/-! ## The byte step is linear over XOR -/

theorem xor_xor_xor_comm {w : Nat} (a b c d : BitVec w) :
    (a ^^^ b) ^^^ (c ^^^ d) = (a ^^^ c) ^^^ (b ^^^ d) := by ac_rfl

theorem crcBit_xor (r q : BitVec 16) : crcBit (r ^^^ q) = crcBit r ^^^ crcBit q := by
  unfold crcBit
  rw [BitVec.getLsbD_xor, BitVec.ushiftRight_xor_distrib]
  generalize r >>> 1 = x, q >>> 1 = y, cfg.crcPoly = p
  cases r.getLsbD 0 <;> cases q.getLsbD 0
  · rfl
  · exact BitVec.xor_assoc x y p
  · change (x ^^^ y) ^^^ p = (x ^^^ p) ^^^ y
    ac_rfl
  · change x ^^^ y = (x ^^^ p) ^^^ (y ^^^ p)
    rw [xor_xor_xor_comm, BitVec.xor_self, BitVec.xor_zero]

theorem crcByte_xor (r q : BitVec 16) (b c : Byte) :
    crcByte (r ^^^ q) (b ^^^ c) = crcByte r b ^^^ crcByte q c := by
  have hbits : Function.Semiconj₂ crcBit^[8] (· ^^^ ·) (· ^^^ ·) :=
    Function.Semiconj₂.iterate crcBit_xor 8
  rw [crcByte, BitVec.setWidth_xor, xor_xor_xor_comm]
  exact hbits _ _

/-! ## Bits that are zero are shifted out -/

theorem crcBit_of_even {r : BitVec 16} (h : r.getLsbD 0 = false) : crcBit r = r >>> 1 := by
  rw [crcBit, h]
  rfl

theorem crcBit_iterate_of_low_zero {r : BitVec 16} (n : Nat) (h : ∀ i < n, r.getLsbD i = false) :
    crcBit^[n] r = r >>> n := by
  induction n generalizing r with
  | zero => rfl
  | succ n ih =>
    have hrest : ∀ i < n, (r >>> 1).getLsbD i = false := fun i hi => by
      rw [BitVec.getLsbD_ushiftRight]
      exact h _ (by omega)
    rw [Function.iterate_succ_apply, crcBit_of_even (h 0 n.succ_pos), ih hrest, Nat.add_comm,
      BitVec.shiftRight_add]

/-- The register's own low byte cancels it, and the high byte moves down. -/
theorem crcByte_low_byte (r : BitVec 16) : crcByte r (r.extractLsb' 0 8) = r >>> 8 := by
  have hlow : ∀ i < 8, (r ^^^ (r.extractLsb' 0 8).setWidth 16).getLsbD i = false := fun i hi => by
    have hi' : i < 16 := by omega
    simp [hi, hi']
  rw [crcByte, crcBit_iterate_of_low_zero 8 hlow]
  ext i hi
  simp

theorem crcRun_own_bytes (r : BitVec 16) :
    crcRun r [r.extractLsb' 0 8, r.extractLsb' 8 8] = 0#16 := by
  have hhigh : r.extractLsb' 8 8 = (r >>> 8).extractLsb' 0 8 := by
    ext i hi
    simp
  rw [crcRun_cons, crcByte_low_byte, hhigh, crcRun_cons, crcByte_low_byte, crcRun_nil,
    ← BitVec.shiftRight_add]
  exact BitVec.ushiftRight_eq_zero (by decide)

/-! ## The residue -/

theorem crcRun_zero_two_ones_bytes : crcRun 0#16 [0xFF#8, 0xFF#8] = 0xF0B8#16 := by
  have hfirst : crcByte 0#16 0xFF#8 = 0x0F78#16 := by decide
  rw [crcRun_cons, hfirst]
  decide

/-- Whatever the register, it is left at 0xF0B8 by the two bytes of its final XOR: they are its own
bytes, which clear it, each XORed with 0xFF. -/
theorem crcRun_crcFinal_bytes (r : BitVec 16) :
    crcRun r [(crcFinal r).extractLsb' 0 8, (crcFinal r).extractLsb' 8 8] = 0xF0B8#16 := by
  calc crcRun r [(crcFinal r).extractLsb' 0 8, (crcFinal r).extractLsb' 8 8]
    _ = crcRun (r ^^^ 0#16) [r.extractLsb' 0 8 ^^^ 0xFF#8, r.extractLsb' 8 8 ^^^ 0xFF#8] := by
      simp only [crcFinal, BitVec.extractLsb'_xor, cfg_crcXorout, BitVec.xor_zero]
      rfl
    _ = crcRun r [r.extractLsb' 0 8, r.extractLsb' 8 8] ^^^ crcRun 0#16 [0xFF#8, 0xFF#8] := by
      simp only [crcRun_cons, crcRun_nil, crcByte_xor]
    _ = 0xF0B8#16 := by
      rw [crcRun_own_bytes, crcRun_zero_two_ones_bytes, BitVec.zero_xor]

/-- Settles O16: the sequence leaves some register, whose final XOR is the checksum. -/
theorem checksumResidueIsF0B8 : Obligations.ChecksumResidueIsF0B8 := by
  unfold Obligations.ChecksumResidueIsF0B8
  refine ⟨fun bytes => ?_, by decide⟩
  rw [crcRun_append]
  exact crcRun_crcFinal_bytes _

/-! ## The commands -/

/-- Settles O12: both commands end done, whatever the state. -/
theorem crcInitAndFin : Obligations.CrcInitAndFin := by
  unfold Obligations.CrcInitAndFin
  exact fun s => ⟨rfl, rfl, by decide, by decide⟩

theorem and_one_eq_one_iff (r : BitVec 16) : r &&& 1#16 = 1#16 ↔ r.getLsbD 0 = true := by
  rw [BitVec.and_one_eq_setWidth_ofBool_getLsbD]
  cases r.getLsbD 0 <;> decide

theorem encode_crcUpd (b : Byte) : encode (.crcUpd b) = 0x11000000#32 ||| b.setWidth 32 := by
  have hb : b.setWidth 32 = 0#24 ++ b := BitVec.setWidth_eq_append (by decide)
  have hop : 0x11000000#32 = (0x11#8 ++ 0#16) ++ 0#8 := by decide
  rw [encode, hb, hop, BitVec.or_append (v := 8), BitVec.or_zero, BitVec.zero_or]

/-- Settles O13: the bit step's test is of the low bit, and eight of them are one byte step. -/
theorem crcUpdTakesEightBitSteps : Obligations.CrcUpdTakesEightBitSteps := by
  unfold Obligations.CrcUpdTakesEightBitSteps
  intro s b
  have hb : (0#8 ++ b : BitVec 16) = b.setWidth 16 := (BitVec.setWidth_eq_append (by decide)).symm
  simp only [and_one_eq_one_iff, hb]
  exact ⟨rfl, encode_crcUpd b⟩

end Sys2Proof.Machine
end

section
/-! PROOFS. The bytes of an address, and ADDR.ENC (spec/41_address.md R136 to R144). -/

namespace Sys2Proof.Machine

/-! ## The six codes of the padded callsign -/

theorem upperCase_toNat (c : Byte) :
    (upperCase c).toNat = if 0x61 ≤ c.toNat ∧ c.toNat ≤ 0x7A then c.toNat - 0x20 else c.toNat := by
  unfold upperCase
  split <;> bv_omega

/-- Code `k` of the padded callsign is that of the string upper-cased, or a space beyond its end. -/
theorem paddedCall_getElem? (cs : List Byte) {k : Nat} (hk : k < 6) :
    (paddedCall cs)[k]? = some ((cs[k]?.map upperCase).getD 0x20#8) := by
  rw [paddedCall, cfg_callLen, cfg_padChar, List.getElem?_take_of_lt hk]
  by_cases hlen : k < cs.length
  · rw [List.getElem?_append_left (by simpa using hlen)]
    simp [hlen]
  · have hrest : k - cs.length < 6 := by omega
    rw [List.getElem?_append_right (by simpa using hlen)]
    rw [List.length_map, List.getElem?_replicate_of_lt hrest, List.getElem?_eq_none (by omega)]
    rfl

theorem paddedCall_ascii {cs : List Byte} (h : ¬hasNonAscii cs) {p : Byte} (hp : p ∈ paddedCall cs) :
    p.toNat < 0x80 := by
  rcases List.mem_append.1 (List.mem_of_mem_take hp) with hcall | hpad
  · obtain ⟨c, hc, rfl⟩ := List.mem_map.1 hcall
    have hascii : ¬0x80 ≤ c.toNat := fun hn => h ⟨c, hc, hn⟩
    rw [upperCase_toNat]
    split <;> omega
  · rw [List.eq_of_mem_replicate hpad]
    decide

theorem paddedCall_take_six (cs : List Byte) : paddedCall (cs.take 6) = paddedCall cs := by
  have hpad : 6 - min 6 cs.length = 6 - cs.length := by omega
  simp [paddedCall, List.take_append, List.map_take, hpad]

/-! ## The seven bytes -/

theorem shiftLeft_one_toNat {c : Byte} (h : c.toNat < 0x80) : (c <<< 1).toNat = c.toNat * 2 := by
  bv_omega

theorem ssidByte_toNat {ssid : Nat} (h : ssid ≤ 15) : (ssidByte ssid).toNat = 0x60 + 2 * ssid := by
  interval_cases ssid <;> rfl

theorem addrBytes_getElem?_call (cs : List Byte) (ssid : Nat) {k : Nat} (hk : k < 6) :
    (addrBytes cs ssid)[k]? = (paddedCall cs)[k]?.map fun c : Byte => c <<< 1 := by
  rw [addrBytes, List.getElem?_append_left (by simpa using hk), List.getElem?_map]

theorem addrBytes_getElem?_ssid (cs : List Byte) (ssid : Nat) :
    (addrBytes cs ssid)[6]? = some (ssidByte ssid) := by
  rw [addrBytes, List.getElem?_append_right (by simp)]
  simp

theorem addrBytes_low_bit {cs : List Byte} {ssid : Nat} {b : Byte} (hb : b ∈ addrBytes cs ssid) :
    b.getLsbD 0 = false := by
  rcases List.mem_append.1 hb with hcall | hssid
  · obtain ⟨c, -, rfl⟩ := List.mem_map.1 hcall
    simp
  · rw [List.mem_singleton.1 hssid]
    simp [ssidByte]

/-- Settles O18, byte by byte; an ASCII code shifted left loses nothing. -/
theorem addressLayout : Obligations.AddressLayout := by
  unfold Obligations.AddressLayout
  intro cs ssid hascii hssid
  refine ⟨addrBytes_length cs ssid, fun _ => addrBytes_low_bit, fun k hk => ?_, ?_, ?_⟩
  · have hcode := paddedCall_getElem? cs hk
    have hlt := paddedCall_ascii hascii (List.mem_of_getElem? hcode)
    rw [List.getD_eq_getElem?_getD, addrBytes_getElem?_call cs ssid hk, hcode, Option.map_some,
      Option.getD_some, shiftLeft_one_toNat hlt, Nat.mul_div_cancel _ two_pos]
    cases cs[k]? with
    | some c => exact upperCase_toNat c
    | none => rfl
  · rw [List.getD_eq_getElem?_getD, addrBytes_getElem?_ssid, Option.getD_some, ssidByte_toNat hssid]
  · rw [addrBytes, addrBytes, paddedCall_take_six]

/-! ## The bytes packed -/

theorem packBytes_append (l : List Byte) (b : Byte) :
    packBytes (l ++ [b]) = packBytes l + b.toNat * 256 ^ l.length := by
  induction l with
  | nil => simp [packBytes]
  | cons a l ih =>
    rw [List.cons_append, packBytes, packBytes, ih, List.length_cons]
    ring

theorem packBytes_shiftLeft {l : List Byte} (h : ∀ c ∈ l, c.toNat < 0x80) :
    packBytes (l.map fun c : Byte => c <<< 1) = packBytes l * 2 := by
  induction l with
  | nil => rfl
  | cons c l ih =>
    obtain ⟨hc, hl⟩ := List.forall_mem_cons.1 h
    rw [List.map_cons, packBytes, packBytes, shiftLeft_one_toNat hc, ih hl]
    ring

/-- The packed value is a sum over the places, the first byte least significant. -/
theorem packBytes_eq_sum (l : List Byte) :
    packBytes l = ∑ i ∈ Finset.range l.length, (l.getD i 0).toNat * 256 ^ i := by
  induction l with
  | nil => rfl
  | cons b l ih =>
    rw [packBytes, ih, List.length_cons, Finset.sum_range_succ', Finset.mul_sum, Nat.add_comm]
    simp [pow_succ', mul_left_comm]

/-- On ASCII the shift doubles each code, so it doubles the packed value. -/
theorem packBytes_addrBytes {cs : List Byte} {ssid : Nat} (hascii : ¬hasNonAscii cs) (hssid : ssid ≤ 15) :
    packBytes (addrBytes cs ssid) = packBytes (paddedCall cs) * 2 + (0x60 + 2 * ssid) * 256 ^ 6 := by
  rw [addrBytes, packBytes_append, packBytes_shiftLeft fun _ => paddedCall_ascii hascii,
    ssidByte_toNat hssid, List.length_map, paddedCall_length]

/-! ## The command -/

theorem addrFault_of_nonAscii {cs : List Byte} (ssid : Int) (h : hasNonAscii cs) :
    addrFault cs ssid = some .encodingError :=
  if_pos (any_nonAscii.2 h)

theorem addrFault_of_ascii {cs : List Byte} (ssid : Int) (h : ¬hasNonAscii cs) :
    addrFault cs ssid = if ssid < 0 ∨ 15 < ssid then some .valueError else none :=
  if_neg fun hany => h (any_nonAscii.1 hany)

section
variable {s : State} {slot ssid : BitVec 8}

theorem exec_addrEnc_fault {c : Cause} (hslot : slotExists s.params slot.toNat = true)
    (hc : addrFault (s.opm.get slot.toNat) ssid.toNat = some c) :
    exec (.addrEnc slot ssid) s = .next (s.faultEntry c) := by
  rw [exec, execAddrEnc, zext, zext, if_pos hslot, hc]
  rfl

theorem exec_addrEnc_done (hslot : slotExists s.params slot.toNat = true)
    (hc : addrFault (s.opm.get slot.toNat) ssid.toNat = none) :
    exec (.addrEnc slot ssid) s =
      .next (s.present (packBytes (addrBytes (s.opm.get slot.toNat) ssid.toNat))) := by
  rw [exec, execAddrEnc, zext, zext, if_pos hslot, hc]
  rfl

theorem exec_addrEnc_refused (hslot : slotExists s.params slot.toNat = false) :
    exec (.addrEnc slot ssid) s = .refused (.noSuchSlot slot.toNat) := by
  rw [exec, execAddrEnc, zext, zext, if_neg (by simp [hslot])]
  rfl

end

theorem slotExists_eq_false {p : SizeParams} {m slot : Nat} (hm : p.pathMax = some m)
    (hslot : 2 + m ≤ slot) : slotExists p slot = false := by
  rw [slotExists, hm]
  exact decide_eq_false (Nat.not_lt.2 hslot)

/-- Settles O17, by the six places of the packed callsign and the SSID byte above them. -/
theorem addrEncReturnsTheAddress : Obligations.AddrEncReturnsTheAddress := by
  unfold Obligations.AddrEncReturnsTheAddress
  intro s slot ssid hslot hascii hssid u p
  have hp : p = paddedCall (s.opm.get slot.toNat) := rfl
  have hnone : addrFault (s.opm.get slot.toNat) ssid.toNat = none := by
    rw [addrFault_of_ascii _ hascii, if_neg (by omega)]
  rw [exec_addrEnc_done hslot hnone, packBytes_addrBytes hascii hssid, packBytes_eq_sum,
    paddedCall_length, ← hp]
  congr 3
  simp only [Finset.sum_range_succ, Finset.sum_range_zero]
  ring

/-- Settles O19, by the cause that the address encoder names. -/
theorem addrEncFaults : Obligations.AddrEncFaults := by
  unfold Obligations.AddrEncFaults
  refine fun s slot ssid => ⟨fun hslot hbad => ?_, fun hslot hascii hssid => ?_, fun m hm hslot => ?_⟩
  · exact exec_addrEnc_fault hslot (addrFault_of_nonAscii _ hbad)
  · refine exec_addrEnc_fault hslot ?_
    rw [addrFault_of_ascii _ hascii, if_pos (by omega)]
  · exact exec_addrEnc_refused (slotExists_eq_false hm hslot)

end Sys2Proof.Machine
end

section
/-! PROOFS. The frame of FRM.BUILD offset by offset, when FRM.BUILD ends done, faults or is refused
(spec/42_frame.md R151 to R165), and the three commands that append one element (R163,
spec/43_bitstream.md R177, spec/45_postprocess.md R214). -/

namespace Sys2Proof.Machine

/-! ## Offsets in joined sequences -/

section
variable {α β : Type}

theorem getElem?_append_add (l m : List α) {i k : Nat} (h : i = l.length + k) :
    (l ++ m)[i]? = m[k]? := by
  rw [h, List.getElem?_append_right (Nat.le_add_right _ _), Nat.add_sub_cancel_left]

/-- In a joined sequence of parts of length `n`, place `n*a + k` is place `k` of part `a`. -/
theorem getElem?_flatMap_of_length {f : α → List β} {n : Nat} (hf : ∀ x, (f x).length = n)
    {l : List α} {a k : Nat} {x : α} (ha : l[a]? = some x) (hk : k < n) :
    (l.flatMap f)[n * a + k]? = (f x)[k]? := by
  induction l generalizing a with
  | nil => cases ha
  | cons y l ih =>
    rw [List.flatMap_cons]
    cases a with
    | zero =>
      cases ha
      rw [Nat.mul_zero, Nat.zero_add, List.getElem?_append_left (by rw [hf]; exact hk)]
    | succ a =>
      rw [getElem?_append_add _ _ (k := n * a + k) (by rw [hf, Nat.mul_succ]; omega)]
      exact ih ha

end

/-! ## The address field -/

theorem markLast_getElem? (l : List Byte) (i : Nat) :
    (markLast l)[i]? = l[i]?.map fun b => b ||| if i + 1 = l.length then 0x01#8 else 0x00#8 := by
  rcases List.eq_nil_or_concat' l with rfl | ⟨l, b, rfl⟩
  · rfl
  · rw [markLast_append, List.length_append, List.length_singleton]
    rcases Nat.lt_trichotomy i l.length with hlt | rfl | hgt
    · rw [List.getElem?_append_left hlt, List.getElem?_append_left hlt]
      simp [hlt.ne]
    · simp
    · rw [List.getElem?_eq_none (by simp; omega), List.getElem?_eq_none (by simp; omega)]
      rfl

/-- The addresses of the frame before the end marker is set. -/
def unmarkedAddresses (s : State) : List Byte :=
  (callStrings s).flatMap fun cs => addrBytes cs 0

theorem addressField_eq (s : State) : addressField s = markLast (unmarkedAddresses s) := rfl

@[simp] theorem unmarkedAddresses_length (s : State) :
    (unmarkedAddresses s).length = 14 + 7 * s.npath := by
  rw [← addressField_length, addressField_eq, markLast_length]

theorem callStrings_getElem? (s : State) {a : Nat} (ha : a < 2 + s.npath) :
    (callStrings s)[a]? = some (s.opm.get (if a = 0 then 1 else if a = 1 then 0 else a)) := by
  match a with
  | 0 | 1 => rfl
  | a + 2 =>
    have hpath : a < s.npath := by omega
    simp [callStrings, pathStrings, hpath, Nat.add_comm]

theorem unmarkedAddresses_low_bit {s : State} {b : Byte} (hb : b ∈ unmarkedAddresses s) :
    b.getLsbD 0 = false := by
  obtain ⟨_, _, hb⟩ := List.mem_flatMap.1 hb
  exact addrBytes_low_bit hb

theorem addressField_getElem? (s : State) {a k : Nat} (ha : a < 2 + s.npath) (hk : k < 7) :
    (addressField s)[7 * a + k]? =
      some (((addrBytes (s.opm.get (if a = 0 then 1 else if a = 1 then 0 else a)) 0).getD k 0) |||
        (if a = 1 + s.npath ∧ k = 6 then 0x01#8 else 0x00#8)) := by
  have hlast : 7 * a + k + 1 = 14 + 7 * s.npath ↔ a = 1 + s.npath ∧ k = 6 := by omega
  have hk' : k < (addrBytes (s.opm.get (if a = 0 then 1 else if a = 1 then 0 else a)) 0).length := by
    simpa using hk
  rw [addressField_eq, markLast_getElem?, unmarkedAddresses_length, unmarkedAddresses,
    getElem?_flatMap_of_length (fun cs => addrBytes_length cs 0) (callStrings_getElem? s ha) hk,
    List.getD_eq_getElem?_getD, List.getElem?_eq_getElem hk']
  simp only [hlast, Option.map_some, Option.getD_some]

theorem addressField_low_bit (s : State) {i : Nat} (hi : i < 14 + 7 * s.npath) :
    ∃ b, (addressField s)[i]? = some b ∧ (b.getLsbD 0 = true ↔ i = 13 + 7 * s.npath) := by
  have hlen : i < (unmarkedAddresses s).length := by rwa [unmarkedAddresses_length]
  have hlast : i + 1 = 14 + 7 * s.npath ↔ i = 13 + 7 * s.npath := by omega
  rw [addressField_eq, markLast_getElem?, unmarkedAddresses_length,
    List.getElem?_eq_getElem hlen, Option.map_some]
  refine ⟨_, rfl, ?_⟩
  rw [BitVec.getLsbD_or, unmarkedAddresses_low_bit (List.getElem_mem hlen), Bool.false_or]
  simp only [hlast]
  split <;> simp [*]

/-! ## The frame -/

theorem framed_getElem?_flag (pkt : List Byte) {k : Nat} (hk : k < 32) :
    (framed pkt)[k]? = some 0x7E#8 := by
  rw [framed, List.append_assoc, List.getElem?_append_left (by simpa using hk)]
  exact List.getElem?_replicate_of_lt hk

section
variable (s : State)

/-- The frame after its flags: what the checksum covers, the checksum, the last flag. -/
theorem framed_packet_drop :
    (framed (packet s)).drop 32 = checkedBytes s ++ (fcsBytes (checksum (checkedBytes s)) ++ [0x7E#8]) := by
  rw [framed, packet, List.append_assoc, List.drop_left' (by simp), List.append_assoc]
  rfl

theorem framed_packet_getElem? (k : Nat) : (framed (packet s))[32 + k]? =
    (checkedBytes s ++ (fcsBytes (checksum (checkedBytes s)) ++ [0x7E#8]))[k]? := by
  rw [← framed_packet_drop, List.getElem?_drop]

theorem framed_packet_take_drop :
    ((framed (packet s)).drop 32).take (16 + 7 * s.npath + s.infom.length) = checkedBytes s := by
  rw [framed_packet_drop, List.take_left' (checkedBytes_length s)]

theorem framed_packet_checked {k : Nat} (hk : k < 16 + 7 * s.npath + s.infom.length) :
    (framed (packet s))[32 + k]? = (checkedBytes s)[k]? := by
  rw [framed_packet_getElem?, List.getElem?_append_left (by simpa using hk)]

theorem framed_packet_address {k : Nat} (hk : k < 14 + 7 * s.npath) :
    (framed (packet s))[32 + k]? = (addressField s)[k]? := by
  rw [framed_packet_checked s (by omega), checkedBytes, List.append_assoc,
    List.getElem?_append_left (by simpa using hk)]

theorem framed_packet_control {i k : Nat} (hi : i = 46 + 7 * s.npath + k) (hk : k < 2) :
    (framed (packet s))[i]? = [0x03#8, 0xF0#8][k]? := by
  have hoff : i = 32 + (14 + 7 * s.npath + k) := by omega
  rw [hoff, framed_packet_checked s (by omega), checkedBytes, List.append_assoc,
    getElem?_append_add (addressField s) _ (by rw [addressField_length]),
    List.getElem?_append_left hk]
  rfl

theorem framed_packet_payload {k : Nat} (hk : k < s.infom.length) :
    (framed (packet s))[48 + 7 * s.npath + k]? = s.infom[k]? := by
  have hoff : 48 + 7 * s.npath + k = 32 + (16 + 7 * s.npath + k) := by omega
  rw [hoff, framed_packet_checked s (by omega), checkedBytes]
  exact getElem?_append_add _ _ (by simp; omega)

theorem framed_packet_trailer {i k : Nat} (hi : i = 48 + 7 * s.npath + s.infom.length + k) :
    (framed (packet s))[i]? = (fcsBytes (checksum (checkedBytes s)) ++ [0x7E#8])[k]? := by
  have hoff : i = 32 + (16 + 7 * s.npath + s.infom.length + k) := by omega
  rw [hoff, framed_packet_getElem?]
  exact getElem?_append_add _ _ (by rw [checkedBytes_length])

theorem framed_packet_length :
    (framed (packet s)).length = 51 + 7 * s.npath + s.infom.length := by
  rw [framed_length, packet_length]
  omega

end

/-! ## FRM.BUILD -/

section
variable {s : State}

theorem exec_frmBuild_refused (hfull : fits (51 + 7 * s.npath + s.infom.length) s.params.fbCap = false) :
    exec .frmBuild s = .refused .bufferFull := by
  rcases frmBuildStage_cases s with ⟨-, hstage⟩ | ⟨hfit, -, -⟩ | ⟨hfit, -, -⟩
  · exact congrArg Attempt.finish hstage
  · cases hfull.symm.trans hfit
  · cases hfull.symm.trans hfit

theorem exec_frmBuild_fault (hfit : fits (51 + 7 * s.npath + s.infom.length) s.params.fbCap = true)
    (h : ¬operandsAscii s) : exec .frmBuild s = .next (s.faultEntry .encodingError) := by
  rcases frmBuildStage_cases s with ⟨hfull, -⟩ | ⟨-, -, hstage⟩ | ⟨-, hascii, -⟩
  · cases hfull.symm.trans hfit
  · exact congrArg Attempt.finish hstage
  · exact absurd ((frameHasNonAscii_eq_false_iff s).1 hascii) h

theorem exec_frmBuild_done (hfit : fits (51 + 7 * s.npath + s.infom.length) s.params.fbCap = true)
    (h : operandsAscii s) : exec .frmBuild s = .next (State.present
      { s with crc := crcRun 0xFFFF#16 (checkedBytes s), fb := framed (packet s) }
      (framed (packet s)).length) := by
  have hascii := (frameHasNonAscii_eq_false_iff s).2 h
  rcases frmBuildStage_cases s with ⟨hfull, -⟩ | ⟨-, hnon, -⟩ | ⟨-, -, hstage⟩
  · cases hfull.symm.trans hfit
  · cases hascii.symm.trans hnon
  · rw [framed_packet_length]
    exact congrArg Attempt.finish hstage

end

/-- Settles O21, with the frame and the register of the model as the witnesses, part by part. -/
theorem frmBuildBuildsTheFrame : Obligations.FrmBuildBuildsTheFrame := by
  unfold Obligations.FrmBuildBuildsTheFrame
  intro s hfit hascii
  refine ⟨framed (packet s), crcRun 0xFFFF#16 (checkedBytes s), exec_frmBuild_done hfit hascii,
    framed_packet_length s, fun k => framed_getElem?_flag _, fun a k ha hk => ?_,
    framed_packet_control s (k := 0) (by omega) two_pos,
    framed_packet_control s (k := 1) (by omega) one_lt_two, fun k => framed_packet_payload s,
    framed_packet_trailer s (k := 0) (by omega), framed_packet_trailer s (k := 1) (by omega),
    framed_packet_trailer s (k := 2) (by omega), ?_⟩
  · rw [Nat.add_assoc, framed_packet_address s (by omega), addressField_getElem? s ha hk]
  · rw [framed_packet_take_drop, crcRun]

/-- Settles O22: no byte of an address has its low bit set before the last is marked. -/
theorem onlyTheLastAddressByteIsMarked : Obligations.OnlyTheLastAddressByteIsMarked := by
  unfold Obligations.OnlyTheLastAddressByteIsMarked
  intro s t hascii ht k hk
  cases hfit : fits (51 + 7 * s.npath + s.infom.length) s.params.fbCap with
  | false => cases (exec_frmBuild_refused hfit).symm.trans ht
  | true =>
    cases (exec_frmBuild_done hfit hascii).symm.trans ht
    rw [present_fb, framed_packet_address s hk]
    exact addressField_low_bit s hk

/-- Settles O23, by what the stage comes to for a frame that fits and for one that does not. -/
theorem frmBuildFaultsOnNonAscii : Obligations.FrmBuildFaultsOnNonAscii := by
  unfold Obligations.FrmBuildFaultsOnNonAscii
  exact fun s => ⟨exec_frmBuild_fault, exec_frmBuild_refused⟩

/-! ## The commands that append one element -/

section
variable {n : Nat} {cap : Option Nat} (a : Attempt)

theorem finish_of_fits (h : fits n cap = true) :
    (if fits n cap then a else .refuse .bufferFull).finish = a.finish := by
  rw [if_pos h]

theorem finish_of_full (h : fits n cap = false) :
    (if fits n cap then a else .refuse .bufferFull).finish = .refused .bufferFull := by
  rw [if_neg (by simp [h]), finish_refuse]

end

/-- SB.PUT's operand is read as two's complement. -/
theorem sext24_eq (x : BitVec 24) :
    sext24 x = if x.toNat < 2 ^ 23 then (x.toNat : Int) else x.toNat - 2 ^ 24 := by
  have hhalf : 2 * x.toNat < 2 ^ 24 ↔ x.toNat < 2 ^ 23 := by omega
  simp only [sext24, BitVec.toInt_eq_toNat_cond, hhalf]
  rfl

/-- A word's low field is ORed into the word that has zeros there. -/
theorem append_eq_or_setWidth {k n : Nat} {w : BitVec (k + n)} (op : BitVec k) (a : BitVec n)
    (hw : op ++ 0#n = w) : op ++ a = w ||| a.setWidth (k + n) := by
  have ha : a.setWidth (k + n) = 0#k ++ a :=
    BitVec.eq_of_toNat_eq (by simp [BitVec.toNat_setWidth_of_le (Nat.le_add_left n k)])
  rw [← hw, ha, BitVec.or_append, BitVec.or_zero, BitVec.zero_or]

/-- Settles O20, command by command: done while one more fits, refused when not, and the word. -/
theorem putCommandsAppend : Obligations.PutCommandsAppend := by
  unfold Obligations.PutCommandsAppend
  intro s b d x
  rw [← sext24_eq]
  refine ⟨fun h => finish_of_fits _ h, fun h => finish_of_full _ h, fun h => finish_of_fits _ h,
    fun h => finish_of_full _ h, fun h => finish_of_fits _ h, fun h => finish_of_full _ h, ?_, ?_, ?_⟩
  · exact append_eq_or_setWidth (0x30#8 ++ 0#16) b (by decide)
  · exact append_eq_or_setWidth (0x42#8 ++ 0#23) d (by decide)
  · exact append_eq_or_setWidth 0x60#8 x (by decide)

end Sys2Proof.Machine
end

section
/-! PROOFS. The bit encoder: NRZ.RST, NRZ.BIT and BIT.ENC written out, the running state after any number
of bits, and the bytes that a BitSequence gives back (spec/43_bitstream.md R171 to R178). -/

namespace Sys2Proof.Machine

/-! ## The one-bit step -/

theorem nrzi_eq_xor (state b : Bit) : nrzi state b = state ^^^ (1#1 - b) := by
  revert state b
  decide

theorem nrzi_ofBool (state : Bit) (d : Bool) :
    nrzi state (BitVec.ofBool d) = if d then state else ~~~state := by
  cases d <;> rfl

/-- The state is kept by a 1 and by nothing else. -/
theorem nrzi_ofBool_eq_self_iff (state : Bit) (d : Bool) :
    nrzi state (BitVec.ofBool d) = state ↔ d = true := by
  revert state d
  decide

/-- Settles O24: the flip is the XOR of spec/43_bitstream.md R171, and the operand is the word's bit 0. -/
theorem nrzRstAndNrzBit : Obligations.NrzRstAndNrzBit := by
  unfold Obligations.NrzRstAndNrzBit
  intro s b
  rw [← nrzi_eq_xor]
  exact ⟨rfl, rfl, rfl, append_eq_or_setWidth (0x41#8 ++ 0#23) b (by decide)⟩

/-- The bit emitted at a place is the state after the bits up to that place. -/
theorem nrziRun_getElem? (state : Bit) (bits : List Bit) {m : Nat} (hm : m < bits.length) :
    (nrziRun state bits).1[m]? = some (nrziRun state (bits.take (m + 1))).2 := by
  induction bits generalizing state m with
  | nil => cases hm
  | cons b bits ih =>
    cases m with
    | zero => rfl
    | succ m => exact ih (nrzi state b) (Nat.lt_of_succ_lt_succ hm)

/-! ## The data bits of a byte sequence, and the running state after some of them -/

/-- Bit `m` of a byte sequence, least significant first (spec/20_memory.md R69). -/
def dataBit (f : List Byte) (m : Nat) : Bool := (f.getD (m / 8) 0).getLsbD (m % 8)

/-- How many of the first `n` bits of a byte sequence are 0. -/
def zeroCount (f : List Byte) (n : Nat) : Nat :=
  ((List.range n).filter fun m => !dataBit f m).length

/-- The running state after the first `n` bits of a byte sequence (spec/43_bitstream.md R172). -/
def runState (f : List Byte) (n : Nat) : Bit := (nrziRun 1#1 ((f.flatMap byteBits).take n)).2

theorem byteBits_getElem? (b : Byte) {j : Nat} (hj : j < 8) :
    (byteBits b)[j]? = some (BitVec.ofBool (b.getLsbD j)) := by
  have hbit : b.extractLsb' j 1 = BitVec.ofBool (b.getLsbD j) := by
    refine BitVec.eq_of_getLsbD_eq fun i hi => ?_
    cases Nat.lt_one_iff.1 hi
    simp
  rw [byteBits, List.getElem?_map, List.getElem?_range hj, Option.map_some, hbit]

theorem dataBits_getElem? (f : List Byte) {m : Nat} (hm : m < 8 * f.length) :
    (f.flatMap byteBits)[m]? = some (BitVec.ofBool (dataBit f m)) := by
  have hbyte : f[m / 8]? = some (f.getD (m / 8) 0) := by
    rw [List.getElem?_eq_getElem (by omega), List.getD_eq_getElem]
  have hbit : m % 8 < 8 := Nat.mod_lt m (by decide)
  calc (f.flatMap byteBits)[m]?
      = (f.flatMap byteBits)[8 * (m / 8) + m % 8]? := by rw [Nat.div_add_mod]
    _ = (byteBits (f.getD (m / 8) 0))[m % 8]? := getElem?_flatMap_of_length byteBits_length hbyte hbit
    _ = some (BitVec.ofBool (dataBit f m)) := byteBits_getElem? _ hbit

theorem dataBit_mul_add (f : List Byte) (i : Nat) {j : Nat} (hj : j < 8) :
    dataBit f (8 * i + j) = (f.getD i 0).getLsbD j := by
  have hdiv : (8 * i + j) / 8 = i := by omega
  have hmod : (8 * i + j) % 8 = j := by omega
  rw [dataBit, hdiv, hmod]

/-- Byte sequences of one length are equal when their data bits are. -/
theorem eq_of_dataBit_eq {f g : List Byte} (hlen : f.length = g.length)
    (hbits : ∀ m, m < 8 * f.length → dataBit f m = dataBit g m) : f = g := by
  refine List.ext_getElem hlen fun i hf hg => BitVec.eq_of_getLsbD_eq fun j hj => ?_
  have hbit := hbits (8 * i + j) (by omega)
  rwa [dataBit_mul_add f i hj, dataBit_mul_add g i hj, List.getD_eq_getElem, List.getD_eq_getElem] at hbit

theorem zeroCount_succ (f : List Byte) (n : Nat) :
    zeroCount f (n + 1) = zeroCount f n + if dataBit f n then 0 else 1 := by
  rw [zeroCount, List.range_succ, List.filter_append, List.length_append, ← zeroCount]
  cases h : dataBit f n <;> simp [h]

theorem runState_succ (f : List Byte) {n : Nat} (hn : n < 8 * f.length) :
    runState f (n + 1) = nrzi (runState f n) (BitVec.ofBool (dataBit f n)) := by
  rw [runState, List.take_add_one, dataBits_getElem? f hn, nrziRun_append]
  rfl

/-- The running state is 1 exactly while the number of 0 bits so far is even. -/
theorem runState_eq_parity (f : List Byte) {n : Nat} (hn : n ≤ 8 * f.length) :
    runState f n = if zeroCount f n % 2 = 0 then 1#1 else 0#1 := by
  induction n with
  | zero => rfl
  | succ n ih =>
    rw [runState_succ f hn, ih (Nat.le_of_succ_le hn), nrzi_ofBool, zeroCount_succ]
    cases dataBit f n with
    | true => rfl
    | false =>
      rcases Nat.mod_two_eq_zero_or_one (zeroCount f n) with heven | hodd
      · simp [heven, Nat.add_mod]
      · simp [hodd, Nat.add_mod]

/-! ## The three parts of the BitSequence -/

/-- Part 1 of the BitSequence (spec/43_bitstream.md R172). -/
def preambleBits : List Bit := (List.replicate 32 [0#1, 1#1]).flatten

theorem preambleBits_length : preambleBits.length = 64 := rfl

theorem bitSequence_eq (f : List Byte) :
    bitSequence f = preambleBits ++ ((encodedBits f).1 ++ [0#1, 1#1]) :=
  List.append_assoc ..

theorem encodedBits_length (f : List Byte) : (encodedBits f).1.length = 8 * f.length := by
  rw [encodedBits, nrziRun_length, dataBits_length]

theorem encodedBits_state (f : List Byte) : (encodedBits f).2 = runState f (8 * f.length) := by
  rw [runState, List.take_of_length_le (dataBits_length f).le]
  rfl

theorem bitSequence_getElem?_preamble (f : List Byte) {k : Nat} (hk : k < 64) :
    (bitSequence f)[k]? = preambleBits[k]? := by
  rw [bitSequence_eq, List.getElem?_append_left hk]

theorem bitSequence_getElem?_encoded (f : List Byte) {m : Nat} (hm : m < 8 * f.length) :
    (bitSequence f)[64 + m]? = some (runState f (m + 1)) := by
  rw [bitSequence_eq, getElem?_append_add _ _ (by rw [preambleBits_length]),
    List.getElem?_append_left (by rwa [encodedBits_length])]
  exact nrziRun_getElem? _ _ (by rwa [dataBits_length])

theorem bitSequence_getElem?_closing (f : List Byte) {i k : Nat} (hi : i = 64 + 8 * f.length + k) :
    (bitSequence f)[i]? = [0#1, 1#1][k]? := by
  rw [bitSequence_eq, getElem?_append_add _ _ (k := 8 * f.length + k) (by rw [preambleBits_length]; omega),
    getElem?_append_add _ _ (by rw [encodedBits_length])]

/-- The bit before encoded bit `m` is the state that `m` meets: for the first it is the last literal bit,
which is the 1 that the running state starts at. -/
theorem bitSequence_getElem?_before (f : List Byte) {m : Nat} (hm : m < 8 * f.length) :
    (bitSequence f)[63 + m]? = some (runState f m) := by
  cases m with
  | zero => exact bitSequence_getElem?_preamble f (by decide)
  | succ m =>
    have hoff : 63 + (m + 1) = 64 + m := by omega
    rw [hoff, bitSequence_getElem?_encoded f (Nat.lt_of_succ_lt hm)]

/-- A data bit is 1 exactly when its encoded bit repeats the bit before it. -/
theorem dataBit_iff_repeats (f : List Byte) {m : Nat} (hm : m < 8 * f.length) :
    dataBit f m = true ↔ (bitSequence f)[64 + m]? = (bitSequence f)[63 + m]? := by
  rw [bitSequence_getElem?_encoded f hm, bitSequence_getElem?_before f hm, Option.some_inj,
    runState_succ f hm, nrzi_ofBool_eq_self_iff]

theorem bitSequence_injective : Function.Injective bitSequence := by
  intro f g h
  have hlen : f.length = g.length := by
    have hbits := congrArg List.length h
    rw [bitSequence_length, bitSequence_length] at hbits
    omega
  refine eq_of_dataBit_eq hlen fun m hm => Bool.eq_iff_iff.2 ?_
  rw [dataBit_iff_repeats f hm, dataBit_iff_repeats g (hlen ▸ hm), h]

/-- Settles O26: encoded bits that repeat are the 1 bits, and the data bits are the bytes. -/
theorem bitSequenceDeterminesTheBytes : Obligations.BitSequenceDeterminesTheBytes := by
  unfold Obligations.BitSequenceDeterminesTheBytes
  exact ⟨fun f _ hm => dataBit_iff_repeats f hm, bitSequence_injective⟩

/-! ## BIT.ENC -/

theorem exec_bitEnc_done {s : State} (hfit : fits (66 + 8 * s.fb.length) s.params.bbCap = true) :
    exec .bitEnc s = .next (State.present
      { s with bb := bitSequence s.fb, nrz := runState s.fb (8 * s.fb.length) }
      (bitSequence s.fb).length) := by
  rw [bitSequence_length, ← encodedBits_state]
  rcases bitEncStage_cases s with ⟨hfull, -⟩ | ⟨-, hstage⟩
  · cases hfull.symm.trans hfit
  · exact congrArg Attempt.finish hstage

/-- Settles O25, with the BitSequence and the last running state as the witnesses, part by part. -/
theorem bitEncBuildsTheBitSequence : Obligations.BitEncBuildsTheBitSequence := by
  unfold Obligations.BitEncBuildsTheBitSequence
  intro s hfit zeros
  refine ⟨bitSequence s.fb, runState s.fb (8 * s.fb.length), exec_bitEnc_done hfit,
    bitSequence_length s.fb, fun k hk => ?_, fun m hm => ?_,
    bitSequence_getElem?_closing s.fb (k := 0) rfl,
    bitSequence_getElem?_closing s.fb (k := 1) (by omega), runState_eq_parity s.fb le_rfl⟩
  · rw [bitSequence_getElem?_preamble s.fb (by omega), bitSequence_getElem?_preamble s.fb (by omega)]
    revert k
    decide
  · rw [bitSequence_getElem?_encoded s.fb hm, runState_eq_parity s.fb hm]
    rfl

end Sys2Proof.Machine
end

section
/-! PROOFS. The tone engine: PH.LD, TONE.RUN and AFSK.MOD written out, and the phases and samples of a bit
sequence bit by bit (spec/44_tone.md R189 to R199). -/

namespace Sys2Proof.Machine

/-! ## PH.LD -/

/-- Settles O27: below 96000 the accumulator's reduction changes nothing. -/
theorem phLdLoadsAPhase : Obligations.PhLdLoadsAPhase := by
  unfold Obligations.PhLdLoadsAPhase
  refine fun s v => ⟨fun h => ?_, fun h => ?_, append_eq_or_setWidth 0x50#8 v (by decide)⟩
  · have hph : Fin.ofNat 96000 v.toNat = ⟨v.toNat, h⟩ := Fin.ext (Nat.mod_eq_of_lt h)
    rw [← hph]
    exact congrArg Attempt.finish (if_pos h)
  · exact congrArg Attempt.finish (if_neg (Nat.not_lt.2 h))

/-! ## TONE.RUN -/

/-- A field shifted up stands between zeros. -/
theorem setWidth_shiftLeft_eq_append {k n : Nat} (j : Nat) (a : BitVec k) :
    a.setWidth (j + k + n) <<< n = (0#j ++ a) ++ 0#n := by
  have hlt : a.toNat <<< n < 2 ^ (j + k + n) :=
    calc a.toNat <<< n = a.toNat * 2 ^ n := Nat.shiftLeft_eq ..
      _ < 2 ^ k * 2 ^ n := Nat.mul_lt_mul_of_pos_right a.isLt (Nat.two_pow_pos n)
      _ = 2 ^ (k + n) := (pow_add ..).symm
      _ ≤ 2 ^ (j + k + n) := Nat.pow_le_pow_right two_pos (by omega)
  refine BitVec.eq_of_toNat_eq ?_
  rw [BitVec.toNat_shiftLeft, BitVec.toNat_setWidth_of_le (by omega), Nat.mod_eq_of_lt hlt]
  simp

theorem encode_toneRun (f n : BitVec 12) :
    encode (.toneRun f n) = 0x51000000#32 ||| (f.setWidth 32 <<< 12) ||| n.setWidth 32 := by
  have hop : 0x51000000#32 = (0x51#8 ++ 0#12) ++ 0#12 := by decide
  have hf : f.setWidth 32 <<< 12 = (0#8 ++ f) ++ 0#12 := setWidth_shiftLeft_eq_append (n := 12) 8 f
  refine append_eq_or_setWidth (0x51#8 ++ f) n ?_
  rw [hop, hf, BitVec.or_append, BitVec.or_append, BitVec.or_zero, BitVec.zero_or, BitVec.or_zero]

theorem exec_toneRun_done {s : State} (f : BitVec 12) {n : BitVec 12}
    (hfit : fits (s.sb.length + n.toNat) s.params.sbCap = true) :
    exec (.toneRun f n) s = .next (State.present
      { s with sb := s.sb ++ toneRun s.ph f.toNat n.toNat, ph := advance s.ph f.toNat n.toNat }
      (advance s.ph f.toNat n.toNat).val) :=
  finish_of_fits _ hfit

/-- Settles O28, by TONE.RUN's capacity test and the fields of its word. -/
theorem toneRunAppendsTheRun : Obligations.ToneRunAppendsTheRun := by
  unfold Obligations.ToneRunAppendsTheRun
  exact fun s f n => ⟨exec_toneRun_done f, finish_of_full _, encode_toneRun f n⟩

/-- Settles O29: samples and accumulator of a run in two parts are those of the whole run. -/
theorem toneRunIsPhaseContinuous : Obligations.ToneRunIsPhaseContinuous := by
  unfold Obligations.ToneRunIsPhaseContinuous
  intro s f n m k hk hfit
  have hsamples : toneRun s.ph f.toNat k.toNat =
      toneRun s.ph f.toNat n.toNat ++ toneRun (advance s.ph f.toNat n.toNat) f.toNat m.toNat := by
    rw [← hk, toneRun_add]
  have hphase : advance s.ph f.toNat k.toNat = advance (advance s.ph f.toNat n.toNat) f.toNat m.toNat := by
    rw [← hk, advance_add]
  have hwhole := exec_toneRun_done f hfit
  rw [hsamples, hphase, ← List.append_assoc] at hwhole
  refine ⟨_, _, _, exec_toneRun_done f (fits_of_le (by omega) hfit), exec_toneRun_done f ?_, hwhole,
    rfl, rfl, rfl⟩
  simpa [Nat.add_assoc, hk] using hfit

/-! ## AFSK.MOD -/

/-- How many bits of a sequence are 0, each a third of a turn (spec/44_tone.md R198). -/
def spaceCount (bits : List Bit) : Nat := (bits.filter fun b => b = 0#1).length

/-- A mark bit is a whole number of turns, a space bit a third of a turn more (spec/44_tone.md R198). -/
theorem advance_bitTone (p : Phase) (b : Bit) :
    (advance p (bitTone b) cfg.spb).val = (p.val + 32000 * spaceCount [b]) % 96000 := by
  obtain rfl | rfl : b = 0#1 ∨ b = 1#1 := by revert b; decide
  · have htone : bitTone 0#1 * cfg.spb = 32000 * spaceCount [0#1] + 5 * 96000 := by decide
    rw [advance_val, htone]
    omega
  · have htone : bitTone 1#1 * cfg.spb = 32000 * spaceCount [1#1] + 6 * 96000 := by decide
    rw [advance_val, htone]
    omega

/-- Every bit boundary lies as many thirds of a turn on as there were 0 bits (spec/44_tone.md R198). -/
theorem afskPhase_val (p : Phase) (bits : List Bit) :
    (afskPhase p bits).val = (p.val + 32000 * spaceCount bits) % 96000 := by
  induction bits generalizing p with
  | nil => exact (Nat.mod_eq_of_lt p.isLt).symm
  | cons b bits ih =>
    have hcount : spaceCount (b :: bits) = spaceCount [b] + spaceCount bits := by
      simp only [spaceCount, ← List.length_append, ← List.filter_append, List.singleton_append]
    rw [afskPhase, ih, advance_bitTone, hcount]
    omega

/-- Sample `t` of a bit is that of the bit's tone from the phase in which the bits before it end. -/
theorem afskSamples_getElem? (p : Phase) {bits : List Bit} {i t : Nat} {b : Bit} (hb : bits[i]? = some b)
    (ht : t < 320) :
    (afskSamples p bits)[320 * i + t]? =
      some (sampleAt (advance (afskPhase p (bits.take i)) (bitTone b) t).val) := by
  induction bits generalizing p i with
  | nil => cases hb
  | cons c bits ih =>
    rw [afskSamples]
    cases i with
    | zero =>
      cases hb
      rw [Nat.mul_zero, Nat.zero_add, List.getElem?_append_left (by simpa using ht), toneRun,
        List.getElem?_map, List.getElem?_range (by simpa using ht)]
      rfl
    | succ i =>
      rw [getElem?_append_add _ _ (k := 320 * i + t) (by rw [toneRun_length, cfg_spb]; omega)]
      exact ih _ hb

theorem exec_afskMod_done {s : State} (hfit : fits (320 * s.bb.length) s.params.sbCap = true) :
    exec .afskMod s = .next (State.present
      { s with sb := afskSamples 0 s.bb, ph := afskPhase 0 s.bb } (afskSamples 0 s.bb).length) := by
  rw [afskSamples_length]
  rcases afskModStage_cases s with ⟨hfull, -⟩ | ⟨-, hstage⟩
  · cases hfull.symm.trans hfit
  · exact congrArg Attempt.finish hstage

/-- Settles O30, with the samples and the phase of the model as the witnesses, bit by bit. -/
theorem afskModSamples : Obligations.AfskModSamples := by
  unfold Obligations.AfskModSamples
  intro s hfit zeros
  have hzeros (i : Nat) : zeros i = spaceCount (s.bb.take i) := rfl
  refine ⟨afskSamples 0 s.bb, afskPhase 0 s.bb, exec_afskMod_done hfit, afskSamples_length 0 s.bb,
    fun i b t hb ht => ?_, ?_⟩
  · rw [afskSamples_getElem? 0 hb ht, advance_val, afskPhase_val, ← hzeros, Fin.val_zero, Nat.zero_add,
      Nat.mod_add_mod]
    rfl
  · rw [afskPhase_val, hzeros, List.take_length, Fin.val_zero, Nat.zero_add]
    omega

end Sys2Proof.Machine
end

section
/-! PROOFS. The sample function's symmetries and bounds, and its equality with the truncated real sine
(spec/44_tone.md R185, R188). -/

namespace Sys2Proof.Machine

/-! ## The four quarters -/

theorem quarterSample_zero : quarterSample 0 = 0 := by decide

theorem sampleAt_first {k : Nat} (h : k ≤ 24000) : sampleAt k = quarterSample k := if_pos h

theorem sampleAt_second {k : Nat} (hlow : 24000 ≤ k) (hhigh : k ≤ 48000) :
    sampleAt k = quarterSample (48000 - k) := by
  obtain rfl | hlow := Nat.eq_or_lt_of_le hlow
  · rfl
  · rw [sampleAt, if_neg (Nat.not_le.2 hlow), if_pos hhigh]

/-- The sine is symmetric about the quarter turn. -/
theorem sampleAt_half_sub {k : Nat} (h : k ≤ 48000) : sampleAt (48000 - k) = sampleAt k := by
  rcases Nat.le_total k 24000 with hk | hk
  · rw [sampleAt_first hk, sampleAt_second (by omega) (Nat.sub_le _ _), Nat.sub_sub_self h]
  · rw [sampleAt_second hk h, sampleAt_first (by omega)]

/-- The sine changes its sign in half a turn. -/
theorem sampleAt_half_add {k : Nat} (h : k < 48000) : sampleAt (48000 + k) = -sampleAt k := by
  obtain rfl | hpos := Nat.eq_zero_or_pos k
  · rw [sampleAt_second (by decide) (by decide), sampleAt_first (by decide), quarterSample_zero]
    rfl
  rw [sampleAt, if_neg (by omega), if_neg (by omega)]
  rcases Nat.lt_or_ge 24000 k with hk | hk
  · rw [if_neg (by omega), sampleAt_second hk.le h.le, Nat.sub_add_eq]
  · rw [if_pos (by omega), Nat.add_sub_cancel_left, sampleAt_first hk]

/-- Settles O31: the symmetries quarter by quarter, the bound from the real sine, and the four values. -/
theorem sampleSymmetriesAndBound : Obligations.SampleSymmetriesAndBound := by
  unfold Obligations.SampleSymmetriesAndBound
  refine ⟨fun k => sampleAt_half_sub, fun k => sampleAt_half_add, fun k hk => ?_, by decide, by decide,
    by decide, by decide⟩
  have := sampleAt_natAbs_le hk
  omega

/-! ## The real sine truncated -/

/-- The real number that `S(k)` truncates (spec/44_tone.md R185, R192). -/
noncomputable def realSample (k : Nat) : ℝ := (1 / 50 : ℝ) * 32767 * Real.sin (2 * Real.pi * k / 96000)

theorem realSample_half_sub {k : Nat} (h : k ≤ 48000) : realSample (48000 - k) = realSample k := by
  have harg : 2 * Real.pi * ((48000 - k : Nat) : ℝ) / 96000 = Real.pi - 2 * Real.pi * k / 96000 := by
    rw [Nat.cast_sub h]
    push_cast
    ring
  rw [realSample, harg, Real.sin_pi_sub, realSample]

theorem realSample_half_add (k : Nat) : realSample (48000 + k) = -realSample k := by
  have harg : 2 * Real.pi * ((48000 + k : Nat) : ℝ) / 96000 = 2 * Real.pi * k / 96000 + Real.pi := by
    push_cast
    ring
  rw [realSample, harg, Real.sin_add_pi, mul_neg, realSample]

theorem sampleAt_isTrunc_first {k : Nat} (h : k ≤ 24000) : isTrunc (realSample k) (sampleAt k) := by
  have hamp : realSample k = 32767 / 50 * Real.sin (2 * Real.pi * k / 96000) := by
    rw [realSample]
    ring
  have hangle : 2 * Real.pi * k / 96000 ≤ Real.pi := by
    have hk : (k : ℝ) ≤ 24000 := by exact_mod_cast h
    nlinarith [Real.pi_pos]
  have hsin : 0 ≤ Real.sin (2 * Real.pi * k / 96000) :=
    Real.sin_nonneg_of_nonneg_of_le_pi (by positivity) hangle
  obtain ⟨hlow, hhigh⟩ := quarterSample_sine h
  rw [sampleAt_first h, hamp]
  exact isTrunc_of_floor (by positivity) hlow hhigh

theorem sampleAt_isTrunc_half {k : Nat} (h : k ≤ 48000) : isTrunc (realSample k) (sampleAt k) := by
  rcases Nat.le_total k 24000 with hk | hk
  · exact sampleAt_isTrunc_first hk
  · rw [← sampleAt_half_sub h, ← realSample_half_sub h]
    exact sampleAt_isTrunc_first (by omega)

/-- Settles O32: the first quarter turn, carried to the others by the symmetries of both sides. -/
theorem sampleIsTheTruncatedSine : Obligations.SampleIsTheTruncatedSine := by
  unfold Obligations.SampleIsTheTruncatedSine
  intro k hk
  rcases Nat.lt_or_ge k 48000 with hhalf | hhalf
  · exact sampleAt_isTrunc_half hhalf.le
  · obtain ⟨j, rfl⟩ := Nat.exists_eq_add_of_le hhalf
    have hj : j < 48000 := by omega
    rw [sampleAt_half_add hj, ← realSample, realSample_half_add]
    exact (sampleAt_isTrunc_half hj.le).neg

end Sys2Proof.Machine
end

section
/-! PROOFS. ENCODE with a willing sink (spec/47_system.md R262). -/

namespace Sys2Proof.Machine

/-- The state before WAV.WR field by field: the filter's carried values are its last input and output. -/
theorem modulated_eq (s : State) :
    let frame := framed (packet s)
    let normal := normalise (afskSamples 0 (bitSequence frame))
    modulated s =
      { s with
        crc := crcRun 0xFFFF (checkedBytes s), nrz := (encodedBits frame).2,
        ph := afskPhase 0 (bitSequence frame),
        xp := normal.getLastD 0, yp := (filtered frame).getLastD 0, yv := 1, status := 0,
        fb := frame, bb := bitSequence frame, sb := filtered frame, ob := [] } := by
  intro frame normal
  have hnonempty : normal ≠ [] := List.ne_nil_of_length_pos (by simp [normal])
  rw [modulated, filterRegs_last .initial hnonempty]
  simp only [staged, State.setFilter, State.cleared, State.clearDataPath]
  rfl

/-- On ASCII operands whose file is not too long, a willing sink is given the file. -/
theorem encodeStages_of_sink_willing {s : State}
    (hfit : fits (51 + 7 * s.npath + s.infom.length) s.params.fbCap = true) (h : operandsAscii s)
    (hlen : 640 * (474 + 56 * s.npath + 8 * s.infom.length) ≤ 2 ^ 32 - 37) (hsink : s.sinkOk = true) :
    encodeStages s = .done
      { (modulated s).asked with
        status := setDone 1 (modulated s).status, ob := waveFile (modulated s).sb,
        sinkFiles := (modulated s).sinkFiles ++ [waveFile (modulated s).sb] }
      (waveFile (modulated s).sb).length := by
  obtain ⟨hsb, -, -, -, -, -, -, hsinkOk, -, -, -, hparams⟩ := modulated_fields s
  obtain ⟨hfile, hwave⟩ := encodeStages_of_ascii hfit h
  have hsamples := modulated_length s
  rw [← hparams] at hfile
  have hrange : (modulated s).sb.all inRange16 = true := hsb ▸ filtered_inRange _
  rw [hwave, wavWrStage, if_neg (by omega), if_pos hfile, if_pos hrange, if_pos (hsinkOk.trans hsink)]

/-- Settles O50: what the stages before WAV.WR left, with the file that WAV.WR made of the samples. -/
theorem encodeBuildsTheWholeTransmission : Obligations.EncodeBuildsTheWholeTransmission := by
  unfold Obligations.EncodeBuildsTheWholeTransmission
  intro s hfit hascii hlen hsink frame normal out
  have hres : 44 + 640 * (474 + 56 * s.npath + 8 * s.infom.length) = (waveFile (modulated s).sb).length := by
    rw [waveFile_length, modulated_length]
    omega
  refine (congrArg Attempt.finish (encodeStages_of_sink_willing hfit hascii hlen hsink)).trans ?_
  rw [finish_done, hres, modulated_eq]
  simp only [State.asked, State.present]
  rfl

end Sys2Proof.Machine
end

section
/-! PROOFS. The normaliser's arithmetic: every sample scaled as a real number and truncated toward zero
(spec/45_postprocess.md R211, R212, R215). -/

namespace Sys2Proof.Machine

/-- Truncating division is the real quotient truncated toward zero. -/
theorem isTrunc_tdiv (a : Int) (m : Nat) : isTrunc ((a : ℝ) / m) (a.tdiv m) := by
  have hnat (n : Nat) : isTrunc ((n : ℝ) / m) ((n / m : Nat) : Int) := by
    have hr : (0 : ℝ) ≤ (n : ℝ) / m := by positivity
    have hle := Nat.floor_le hr
    have hlt := Nat.lt_floor_add_one ((n : ℝ) / m)
    rw [Nat.floor_div_eq_div] at hle hlt
    exact isTrunc_of_floor hr (by exact_mod_cast hle) (by exact_mod_cast hlt)
  obtain ⟨n, rfl | rfl⟩ := a.eq_nat_or_neg
  · exact hnat n
  · rw [Int.neg_tdiv, Int.cast_neg, neg_div]
    exact (hnat n).neg

theorem rescale_isTrunc (m : Nat) (x : Int) : isTrunc ((x : ℝ) * 32767 / m) (rescale m x) := by
  exact_mod_cast isTrunc_tdiv (x * 32767) m

theorem rescale_natAbs_le_fullScale {m : Nat} {x : Int} (h : x.natAbs ≤ m) :
    (rescale m x).natAbs ≤ 32767 := by
  rw [rescale_natAbs]
  exact Nat.div_le_of_le_mul (Nat.mul_le_mul_right 32767 h)

theorem rescale_neg (m : Nat) (x : Int) : rescale m (-x) = -rescale m x := by
  rw [rescale, Int.neg_mul, Int.neg_tdiv, rescale]

/-- The loudest sample goes to full scale (spec/45_postprocess.md R211). -/
theorem rescale_self {m : Nat} (h : m ≠ 0) : rescale m m = 32767 :=
  Int.mul_tdiv_cancel_left 32767 (by exact_mod_cast h)

/-- Settles O33, by the normaliser's two cases and what the rescaling does to one sample. -/
theorem normRescalesToFullScale : Obligations.NormRescalesToFullScale := by
  unfold Obligations.NormRescalesToFullScale
  refine fun s => ⟨maxAbs s.sb, normalise s.sb, execNorm_eq s, fun _ => natAbs_le_maxAbs,
    or_iff_not_imp_left.2 (maxAbs_attained s.sb), normalise_of_zero, normalise_length s.sb,
    fun hm k x hx => ⟨rescale (maxAbs s.sb) x, ?_, rescale_isTrunc _ x, ?_⟩, by decide⟩
  · rw [normalise_of_ne_zero hm, List.getElem?_map, hx]
    rfl
  · have hle := rescale_natAbs_le_fullScale (natAbs_le_maxAbs (List.mem_of_getElem? hx))
    refine ⟨by omega, by omega, fun hpos => ?_, fun hneg => ?_⟩
    · rw [hpos, rescale_self hm]
    · rw [hneg, rescale_neg, rescale_self hm]

end Sys2Proof.Machine
end

section
/-! PROOFS. The filter product by integer fractions, and the bound of the filter's output
(spec/45_postprocess.md R217, R221). -/

namespace Sys2Proof.Machine

/-! ## The stand-in fractions -/

/-- A fraction `m/k` strictly between the neighbours `P/Q` and `u/v` has a denominator of at least
`Q + v`. -/
theorem le_of_between_neighbours {P Q u v k m : Nat} (hdet : u * Q = v * P + 1)
    (hlow : k * P < m * Q) (hhigh : m * v < k * u) : Q + v ≤ k := by
  have hQm : Q * (m * v + 1) ≤ Q * (k * u) := Nat.mul_le_mul_left Q hhigh
  have hvm : v * (k * P + 1) ≤ v * (m * Q) := Nat.mul_le_mul_left v hlow
  have hkdet : k * (u * Q) = k * (v * P + 1) := congrArg (k * ·) hdet
  linarith

/-- A fraction `P/Q` stands in for `D/S` in every floor up to `k < Q + v`, when `D/S` lies between
`P/Q` and a neighbour `u/v` above. -/
theorem floor_eq_of_neighbours {P Q u v D S k : Nat} (hdet : u * Q = v * P + 1)
    (hlow : P * S ≤ Q * D) (hhigh : v * D < u * S) (hQ : 0 < Q) (hk : k < Q + v) :
    k * D / S = k * P / Q := by
  have hS : 0 < S := Nat.pos_of_mul_pos_left (Nat.zero_lt_of_lt hhigh)
  apply le_antisymm
  · by_contra hne
    have hmS : k * D / S * S ≤ k * D := Nat.div_mul_le_self _ _
    have hmQ : k * P < k * D / S * Q := (Nat.div_lt_iff_lt_mul hQ).1 (Nat.lt_of_not_le hne)
    generalize k * D / S = m at hmS hmQ
    have hpos : 0 < k := Nat.pos_of_ne_zero fun h0 => by
      have hm : m = 0 := by simpa [h0, hS.ne'] using hmS
      simp [hm] at hmQ
    have hmv : m * v < k * u := by
      refine Nat.lt_of_mul_lt_mul_right (a := S) ?_
      calc m * v * S = v * (m * S) := by ring
        _ ≤ v * (k * D) := Nat.mul_le_mul_left v hmS
        _ = k * (v * D) := by ring
        _ < k * (u * S) := Nat.mul_lt_mul_of_pos_left hhigh hpos
        _ = k * u * S := by ring
    exact Nat.not_le.2 hk (le_of_between_neighbours hdet hmQ hmv)
  · rw [Nat.le_div_iff_mul_le hS]
    refine Nat.le_of_mul_le_mul_right ?_ hQ
    calc k * P / Q * S * Q = k * P / Q * Q * S := by ring
      _ ≤ k * P * S := Nat.mul_le_mul_right S (Nat.div_mul_le_self _ _)
      _ = k * (P * S) := by ring
      _ ≤ k * (Q * D) := Nat.mul_le_mul_left k hlow
      _ = k * D * Q := by ring

theorem amul_eq_digits {k : Nat} (h : k ≤ 10 ^ 30) : amul k = (k * alphaDigits / alphaScale : Nat) := by
  rw [amul_natCast, amulNat_eq h]

theorem amul_eq_of_neighbours {P Q u v k : Nat} (hdet : u * Q = v * P + 1)
    (hlow : P * alphaScale ≤ Q * alphaDigits) (hhigh : v * alphaDigits < u * alphaScale) (hQ : 0 < Q)
    (hk : k < Q + v) (hdigits : k ≤ 10 ^ 30) : amul k = (k * P / Q : Nat) := by
  rw [amul_eq_digits hdigits, floor_eq_of_neighbours hdet hlow hhigh hQ hk]

/-- Settles O40: between each fraction and a neighbour above ALPHA's digits no other fraction has so
small a denominator, and 317802 is the sum of the first one's denominators. -/
theorem amulStandInFractions : Obligations.AmulStandInFractions := by
  unfold Obligations.AmulStandInFractions
  have hfail : amul 317802 = 310685 := amul_eq_digits (k := 317802) (by norm_num)
  refine ⟨fun k hk => ?_, by rw [hfail]; decide, fun k hk => ?_⟩
  · exact amul_eq_of_neighbours (u := 165623) (v := 169417) (by decide) (by decide) (by decide) (by decide)
      (by omega) (by omega)
  · exact amul_eq_of_neighbours (u := 2132538) (v := 2181389) (by decide) (by decide) (by decide)
      (by decide) (by omega) (by omega)

/-! ## The bound of the filter's output -/

theorem amul_natAbs (k : Int) : (amul k).natAbs = amulNat k.natAbs := by
  obtain ⟨n, rfl | rfl⟩ := k.eq_nat_or_neg
  · rw [amul_natCast, Int.natAbs_natCast, Int.natAbs_natCast]
  · rw [amul_neg, amul_natCast, Int.natAbs_neg, Int.natAbs_neg, Int.natAbs_natCast, Int.natAbs_natCast]

theorem amul_zero : amul 0 = 0 := by decide

/-- What one step can reach from inputs of magnitude at most 32768 and an output below 2860904 is
again below 2860904 (spec/45_postprocess.md R221). -/
theorem amul_natAbs_lt {k : Int} (h : k.natAbs ≤ 2926439) : (amul k).natAbs < 2860904 := by
  rw [amul_natAbs, amulNat_eq (by omega), Nat.div_lt_iff_lt_mul (by decide)]
  exact (Nat.mul_le_mul_right alphaDigits h).trans_lt (by decide)

/-- The carried values that the filter keeps on inputs of magnitude at most 32768. -/
def FilterRegs.Bounded (r : FilterRegs) : Prop :=
  r.xp.natAbs ≤ 32768 ∧ (r.yv = 1 → r.yp.natAbs < 2860904)

theorem FilterRegs.initial_bounded : FilterRegs.initial.Bounded := by
  constructor <;> decide

theorem filterStep_yp_natAbs_lt {r : FilterRegs} (h : r.Bounded) {x : Int} (hx : x.natAbs ≤ 32768) :
    (filterStep r x).yp.natAbs < 2860904 := by
  obtain ⟨hxp, hyp⟩ := h
  refine amul_natAbs_lt ?_
  split
  next hv => have := hyp hv; omega
  next => omega

theorem filterStep_bounded {r : FilterRegs} (h : r.Bounded) {x : Int} (hx : x.natAbs ≤ 32768) :
    (filterStep r x).Bounded :=
  ⟨hx, fun _ => filterStep_yp_natAbs_lt h hx⟩

theorem filterOut_natAbs_lt {r : FilterRegs} (h : r.Bounded) {l : List Int}
    (hl : ∀ x ∈ l, x.natAbs ≤ 32768) : ∀ y ∈ filterOut r l, y.natAbs < 2860904 := by
  induction l generalizing r with
  | nil => exact fun _ hy => nomatch hy
  | cons x l ih =>
    obtain ⟨hx, hl⟩ := List.forall_mem_cons.1 hl
    exact List.forall_mem_cons.2 ⟨filterStep_yp_natAbs_lt h hx, ih (filterStep_bounded h hx) hl⟩

/-- Settles O38: bounded carried values are kept by every step and give bounded outputs. -/
theorem filterOutputIsBounded : Obligations.FilterOutputIsBounded := by
  unfold Obligations.FilterOutputIsBounded
  exact fun _ => filterOut_natAbs_lt FilterRegs.initial_bounded

end Sys2Proof.Machine
end

section
/-! PROOFS. HPF.RST, HPF.STEP and HPF: the recurrence over the whole buffer, and the same by single
steps (spec/45_postprocess.md R218 to R225). -/

namespace Sys2Proof.Machine

/-! ## One step -/

theorem exec_hpfRst (s : State) : exec .hpfRst s = .next ((s.setFilter .initial).present 0) := rfl

theorem exec_hpfStep (v : BitVec 24) (s : State) :
    exec (.hpfStep v) s = .next ((s.setFilter (filterStep s.filter v.toInt)).present
      (filterStep s.filter v.toInt).yp) := rfl

/-- Settles O35, by the two commands' equations and the sign of the operand. -/
theorem hpfRstAndHpfStep : Obligations.HpfRstAndHpfStep := by
  unfold Obligations.HpfRstAndHpfStep
  intro s v x y
  have hx : x = v.toInt := (sext24_eq v).symm
  refine ⟨exec_hpfRst s, ?_, by decide, append_eq_or_setWidth 0x63#8 v (by decide)⟩
  simp only [y, hx]
  exact exec_hpfStep v s

/-! ## The whole buffer -/

theorem exec_hpf (s : State) :
    exec .hpf s = .next (State.present { s.setFilter (filterRegs .initial s.sb) with
      sb := filterOut .initial s.sb } s.sb.length) := rfl

/-- The first output is 0 whatever the first input is (spec/45_postprocess.md R219). -/
theorem filterOut_initial_head {l : List Int} (h : l ≠ []) :
    (filterOut .initial l)[0]? = some 0 := by
  cases l with
  | nil => exact absurd rfl h
  | cons x l =>
    have hy : (filterStep .initial x).yp = 0 := by simp [filterStep, FilterRegs.initial, amul_zero]
    rw [filterOut, hy]
    rfl

/-- Every later output follows from the two inputs and the output before it. -/
theorem filterOut_getElem?_succ (r : FilterRegs) {l : List Int} {n : Nat} {x0 x1 y0 : Int}
    (h0 : l[n]? = some x0) (h1 : l[n + 1]? = some x1) (hy : (filterOut r l)[n]? = some y0) :
    (filterOut r l)[n + 1]? = some (amul (x0 + x1 - y0)) := by
  induction n generalizing r l with
  | zero =>
    match l with
    | a :: b :: l =>
      cases h0
      cases h1
      cases hy
      rfl
  | succ n ih =>
    match l with
    | a :: l => exact ih (filterStep r a) h0 h1 hy

theorem filterRegs_initial_eq (l : List Int) :
    filterRegs .initial l =
      ⟨l.getLastD 0, (filterOut .initial l).getLastD 0, if l = [] then 0#1 else 1#1⟩ := by
  by_cases h : l = []
  · subst h
    rfl
  · rw [filterRegs_last _ h, if_neg h]
    rfl

/-- Settles O36, with the filter's outputs as the witness. -/
theorem hpfFollowsTheRecurrence : Obligations.HpfFollowsTheRecurrence := by
  unfold Obligations.HpfFollowsTheRecurrence
  refine fun s => ⟨filterOut .initial s.sb, ?_, filterOut_length _ _, filterOut_initial_head,
    fun n x0 x1 y0 => filterOut_getElem?_succ .initial, by decide⟩
  rw [exec_hpf, filterRegs_initial_eq]
  rfl

/-! ## The buffer's samples by single steps -/

/-- One HPF.STEP a sample leaves the carried values of the sample sequence. -/
theorem run_hpfSteps {s : State} {xs : List (BitVec 24)} {rest : List Input}
    (hin : s.inputs = commandInputs (xs.map .hpfStep) ++ rest) :
    ∃ r, Host.Core.run core xs.length s =
      .next { s.setFilter (filterRegs s.filter (xs.map BitVec.toInt)) with inputs := rest, result := r } := by
  induction xs generalizing s with
  | nil =>
    have hrest : s.inputs = rest := hin
    exact ⟨s.result, hrest ▸ rfl⟩
  | cons x xs ih =>
    rw [List.length_cons, run_command xs.length rfl hin (exec_hpfStep x _)]
    exact ih rfl

theorem run_hpfRst_hpfSteps {s : State} {xs : List (BitVec 24)} {rest : List Input}
    (hin : s.inputs = commandInputs (.hpfRst :: xs.map .hpfStep) ++ rest) :
    ∃ r, Host.Core.run core (xs.length + 1) s =
      .next { s.setFilter (filterRegs .initial (xs.map BitVec.toInt)) with inputs := rest, result := r } := by
  rw [run_command xs.length rfl hin (exec_hpfRst _)]
  exact run_hpfSteps rfl

/-- The HPF.STEP of each sample returns its output. -/
theorem run_hpfStep_result {s : State} {xs : List (BitVec 24)} {rest : List Input} {k : Nat} {y : Int}
    (hin : s.inputs = commandInputs (xs.map .hpfStep) ++ rest)
    (hy : (filterOut s.filter (xs.map BitVec.toInt))[k]? = some y) :
    ∃ u, Host.Core.run core (k + 1) s = .next u ∧ u.result = some (.done y) := by
  induction k generalizing s xs with
  | zero =>
    match xs with
    | x :: xs =>
      cases hy
      rw [run_command 0 rfl hin (exec_hpfStep x _)]
      exact ⟨_, rfl, rfl⟩
  | succ k ih =>
    match xs with
    | x :: xs =>
      rw [run_command (k + 1) rfl hin (exec_hpfStep x _)]
      exact ih (xs := xs) rfl hy

/-- Settles O37, by the steps' results and carried values from the reset values of the filter. -/
theorem hpfEqualsItsSteps : Obligations.HpfEqualsItsSteps := by
  unfold Obligations.HpfEqualsItsSteps
  intro s t xs rest hsb ht hin
  obtain rfl := Host.Outcome.next.inj ((exec_hpf s).symm.trans ht)
  rw [hsb]
  refine ⟨fun k y hy => ?_, ?_⟩
  · rw [run_command (k + 1) rfl hin (exec_hpfRst _)]
    exact run_hpfStep_result rfl hy
  · obtain ⟨r, hrun⟩ := run_hpfRst_hpfSteps hin
    exact ⟨_, hrun, rfl, rfl, rfl, hsb, rfl⟩

end Sys2Proof.Machine
end

section
/-! PROOFS. ENCODE and RangeError (spec/45_postprocess.md R221, spec/46_wave.md R239,
spec/47_system.md R262). -/

namespace Sys2Proof.Machine

/-- WAV.WR raises no RangeError on samples in range. -/
theorem wavWrStage_ne_rangeError {s : State} (hrange : s.sb.all inRange16 = true) (t : State) :
    wavWrStage s ≠ .raise .rangeError t := by
  intro h
  rcases wavWrStage_cases s with ⟨-, k⟩ | ⟨-, -, k⟩ | ⟨-, -, hout, -⟩ | ⟨-, -, -, -, k⟩ | ⟨-, -, -, -, k⟩
  · cases k.symm.trans h
  · cases k.symm.trans h
  · cases hrange.symm.trans hout
  · cases k.symm.trans h
  · cases k.symm.trans h

/-- The stages before WAV.WR raise EncodingError alone, and WAV.WR finds samples in range. -/
theorem encodeStages_ne_rangeError (s t : State) : encodeStages s ≠ .raise .rangeError t := by
  rcases encodeStages_cases s with ⟨-, h⟩ | ⟨-, -, h⟩ | ⟨-, -, -, h⟩ <;> rw [h]
  · simp
  · simp
  · refine wavWrStage_ne_rangeError ?_ t
    rw [(modulated_fields s).1]
    exact filtered_inRange _

/-- Settles O52, by the causes that ENCODE's stages raise and the range of the filtered samples. -/
theorem encodeNeverRaisesRangeError : Obligations.EncodeNeverRaisesRangeError := by
  unfold Obligations.EncodeNeverRaisesRangeError
  refine ⟨fun s t v ht hfault => ?_, fun bytes y hy => ?_⟩
  · rcases finish_eq_next ht with ⟨u, w, -, rfl⟩ | ⟨c, u, hraise, rfl⟩
    · cases hfault
    · cases hfault
      exact encodeStages_ne_rangeError s u hraise
  · have hle := filtered_natAbs_le bytes y hy
    omega

end Sys2Proof.Machine
end

section
/-! PROOFS. The serialiser: the header's bytes, the samples read back from the data, and the outcomes of
WAV.WR (spec/46_wave.md R236 to R242). -/

namespace Sys2Proof.Machine

/-! ## The bytes of the file -/

theorem leValue_leBytes (n v : Nat) : leValue (leBytes n v) = v % 256 ^ n := by
  induction n generalizing v with
  | zero => simp [leBytes, leValue, Nat.mod_one]
  | succ n ih => rw [leBytes, leValue, ih, BitVec.toNat_ofNat, Nat.pow_succ' (m := 256), Nat.mod_mul]

/-- The two length fields and the bytes about them (spec/46_wave.md R238). -/
theorem waveFile_header (l : List Int) :
    (waveFile l).take 4 = [0x52#8, 0x49#8, 0x46#8, 0x46#8] ∧
    ((waveFile l).drop 4).take 4 = leBytes 4 (36 + 2 * l.length) ∧
    ((waveFile l).drop 8).take 32 =
      [0x57#8, 0x41#8, 0x56#8, 0x45#8, 0x66#8, 0x6D#8, 0x74#8, 0x20#8,
       0x10#8, 0x00#8, 0x00#8, 0x00#8, 0x01#8, 0x00#8, 0x01#8, 0x00#8,
       0x00#8, 0x77#8, 0x01#8, 0x00#8, 0x00#8, 0xEE#8, 0x02#8, 0x00#8,
       0x02#8, 0x00#8, 0x10#8, 0x00#8, 0x64#8, 0x61#8, 0x74#8, 0x61#8] ∧
    ((waveFile l).drop 40).take 4 = leBytes 4 (2 * l.length) :=
  ⟨rfl, rfl, rfl, rfl⟩

/-- Byte `j` of sample `k` stands at offset `44 + 2*k + j`. -/
theorem waveFile_sample {l : List Int} {i k j : Nat} {x : Int} (hi : i = 44 + 2 * k + j)
    (hx : l[k]? = some x) (hj : j < 2) : (waveFile l)[i]? = (sampleBytes x)[j]? := by
  rw [waveFile, getElem?_append_add _ _ (k := 2 * k + j) (by rw [hi, waveHeader_length, Nat.add_assoc])]
  exact getElem?_flatMap_of_length sampleBytes_length hx hj

/-- The two bytes of a sample in range read back as the sample (spec/46_wave.md R237). -/
theorem signed16_sampleBytes {x : Int} (h : -32768 ≤ x ∧ x ≤ 32767) :
    ∃ lo hi, sampleBytes x = [lo, hi] ∧ signed16 lo hi = x := by
  refine ⟨_, _, rfl, ?_⟩
  have hword : BitVec.ofNat 8 ((x % 65536).toNat / 256) ++ BitVec.ofNat 8 (x % 65536).toNat =
      BitVec.ofInt 16 x := by
    apply BitVec.eq_of_toNat_eq
    rw [BitVec.toNat_append, BitVec.toNat_ofNat, BitVec.toNat_ofNat, BitVec.toNat_ofInt,
      ← Nat.shiftLeft_add_eq_or_of_lt (Nat.mod_lt _ (by decide)), Nat.shiftLeft_eq]
    omega
  rw [signed16, hword, BitVec.toInt_ofInt]
  exact Int.bmod_eq_of_le (by omega) (by omega)

/-! ## The outcomes of WAV.WR -/

theorem all_inRange16 {l : List Int} :
    l.all inRange16 = true ↔ ∀ x ∈ l, -32768 ≤ x ∧ x ≤ 32767 := by
  simp [inRange16]

theorem setDone_setDone (d e : Bit) (st : BitVec 8) : setDone d (setDone e st) = setDone d st := by
  apply status_ext <;> simp

/-- Fault entry clears DONE and OB whether or not the command has. -/
theorem faultEntry_begun (s : State) (c : Cause) :
    State.faultEntry { s with status := setDone 0 s.status, ob := [] } c = s.faultEntry c := by
  simp only [State.faultEntry, State.clearDataPath, setDone_setDone]

theorem exec_wavWr_tooLong {s : State} (hlen : 2 ^ 32 - 37 < 2 * s.sb.length) :
    exec .wavWr s = .refused .fileTooLong := by
  rw [exec, execWavWr, wavWrStage, if_pos hlen, finish_refuse]

/-- A file that its header and OB can hold is written when every sample is in range and the sink is
willing. -/
theorem exec_wavWr_of_fits {s : State} (hlen : 2 * s.sb.length ≤ 2 ^ 32 - 37)
    (hfit : fits (44 + 2 * s.sb.length) s.params.obCap = true) :
    exec .wavWr s =
      if s.sb.all inRange16 then
        if s.sinkOk then
          .next (State.present { s.asked with
            status := setDone 1 s.status, ob := waveFile s.sb,
            sinkFiles := s.sinkFiles ++ [waveFile s.sb] } (waveFile s.sb).length)
        else .next (s.asked.faultEntry .ioError)
      else .next (s.faultEntry .rangeError) := by
  rw [exec, execWavWr, wavWrStage, if_neg (Nat.not_lt.2 hlen), if_pos hfit]
  split
  · split
    · rfl
    · exact congrArg _ (faultEntry_begun s.asked .ioError)
  · exact congrArg _ (faultEntry_begun s .rangeError)

/-- Settles O41: the file is the model's, its header by evaluation and its samples by their offsets. -/
theorem wavWrWritesTheFile : Obligations.WavWrWritesTheFile := by
  unfold Obligations.WavWrWritesTheFile
  intro s hlen hfit hrange hsink
  obtain ⟨hriff, hfileLength, hformat, hdataLength⟩ := waveFile_header s.sb
  refine ⟨waveFile s.sb, ?_, waveFile_length _, hriff, ?_, hformat, ?_, fun k x hx => ?_, by decide⟩
  · rw [exec_wavWr_of_fits hlen hfit, if_pos (all_inRange16.2 hrange), if_pos hsink]
    rfl
  · rw [hfileLength, leValue_leBytes]
    exact Nat.mod_eq_of_lt (by omega)
  · rw [hdataLength, leValue_leBytes]
    exact Nat.mod_eq_of_lt (by omega)
  · obtain ⟨lo, hi, hbytes, hvalue⟩ := signed16_sampleBytes (hrange x (List.mem_of_getElem? hx))
    refine ⟨lo, hi, ?_, ?_, hvalue⟩
    · exact (waveFile_sample rfl hx (by decide)).trans (congrArg (·[0]?) hbytes)
    · exact (waveFile_sample (by omega) hx (by decide)).trans (congrArg (·[1]?) hbytes)

/-- Settles O42, by the branches of WAV.WR in the order of R241. -/
theorem wavWrFaults : Obligations.WavWrFaults := by
  unfold Obligations.WavWrFaults
  refine fun s => ⟨exec_wavWr_tooLong, fun hlen hfit => ⟨fun ⟨x, hx, hout⟩ => ?_, fun hrange hsink => ?_⟩⟩
  · have hbad : ¬s.sb.all inRange16 = true := fun hall => by
      have := all_inRange16.1 hall x hx
      omega
    rw [exec_wavWr_of_fits hlen hfit, if_neg hbad]
  · rw [exec_wavWr_of_fits hlen hfit, if_pos (all_inRange16.2 hrange), if_neg (by simp [hsink])]

end Sys2Proof.Machine
end

section
/-! PROOFS. The commands that load and clear the operands, and CLR (spec/47_system.md R251 to R255). -/

namespace Sys2Proof.Machine

theorem fits_eq_false {n m : Nat} {bound : Option Nat} (hm : bound = some m) (h : m < n) :
    fits n bound = false := by
  rw [hm]
  exact decide_eq_false (Nat.not_le.2 h)

/-! ## LD.CS -/

/-- Two fields of a word are ORed into the word that has zeros there. -/
theorem append_append_eq_or_setWidth {k m n : Nat} {w : BitVec (k + m + n)} (op : BitVec k)
    (a : BitVec m) (b : BitVec n) (hw : op ++ 0#m ++ 0#n = w) :
    op ++ a ++ b = w ||| (a.setWidth (k + m + n) <<< n) ||| b.setWidth (k + m + n) := by
  refine append_eq_or_setWidth (op ++ a) b ?_
  rw [← hw, setWidth_shiftLeft_eq_append k a, BitVec.or_append, BitVec.or_append, BitVec.or_zero,
    BitVec.zero_or, BitVec.or_zero]

section
variable {s : State} {slot : BitVec 8} (c : Byte)

theorem exec_ldCs_noSuchSlot (hslot : slotExists s.params slot.toNat = false) :
    exec (.ldCs slot c) s = .refused (.noSuchSlot slot.toNat) := by
  rw [exec, execLdCs, zext, if_neg (by simp [hslot]), finish_refuse]

theorem exec_ldCs_stringFull (hslot : slotExists s.params slot.toNat = true)
    (hfull : fits ((s.opm.get slot.toNat).length + 1) s.params.csInMax = false) :
    exec (.ldCs slot c) s = .refused (.stringFull slot.toNat) := by
  rw [exec, execLdCs, zext, if_pos hslot, if_neg (by simp [hfull]), finish_refuse]

end

/-- Settles O44, by what an append to a canonical OPM leaves in each slot. -/
theorem ldCsAppendsOneCharacter : Obligations.LdCsAppendsOneCharacter := by
  unfold Obligations.LdCsAppendsOneCharacter
  intro s slot c hwf
  refine ⟨fun hslot hfit => ⟨s.opm.append slot.toNat c, exec_ldCs c hslot hfit, ?_, ?_, ?_⟩,
    fun p hp hslot => ?_, fun p hslot hp hlen => ?_, ?_⟩
  · exact Memory.get_append_same s.opm slot.toNat c (Memory.wf_rising hwf)
  · exact fun k hk => Memory.get_append_other s.opm c hk
  · exact Memory.append_wf s.opm slot.toNat c hwf
  · exact exec_ldCs_noSuchSlot c (slotExists_eq_false hp hslot)
  · exact exec_ldCs_stringFull c hslot (fits_eq_false hp (by omega))
  · exact append_append_eq_or_setWidth (0x09#8 ++ 0#8) slot c (by decide)

/-! ## OP.CLR, LD.NP, LD.INFO and CLR -/

section
variable {s : State}

theorem exec_ldNp_done {n : BitVec 8} (hfit : fits n.toNat s.params.pathMax = true) :
    exec (.ldNp n) s = .next (State.present { s with npath := n.toNat } n.toNat) := by
  rw [exec, execLdNp, zext, if_pos hfit, finish_done]

theorem exec_ldNp_refused {n : BitVec 8} (hlong : fits n.toNat s.params.pathMax = false) :
    exec (.ldNp n) s = .refused (.pathTooLong n.toNat) := by
  rw [exec, execLdNp, zext, if_neg (by simp [hlong]), finish_refuse]

theorem exec_ldInfo_done (c : Byte) (hfit : fits (s.infom.length + 1) s.params.infoMax = true) :
    exec (.ldInfo c) s =
      .next (State.present { s with infom := s.infom ++ [c] } (s.infom.length + 1)) := by
  rw [exec, execLdInfo, if_pos hfit, finish_done]

theorem exec_ldInfo_refused (c : Byte) (hfull : fits (s.infom.length + 1) s.params.infoMax = false) :
    exec (.ldInfo c) s = .refused .infoFull := by
  rw [exec, execLdInfo, if_neg (by simp [hfull]), finish_refuse]

end

/-- Settles O43, command by command: done within the size parameter, refused above it, and the word. -/
theorem opClrLdNpLdInfo : Obligations.OpClrLdNpLdInfo := by
  unfold Obligations.OpClrLdNpLdInfo
  intro s n c
  refine ⟨rfl, exec_ldNp_done, fun m hm hlong => exec_ldNp_refused (fits_eq_false hm hlong),
    exec_ldInfo_done c, fun m hm hfull => exec_ldInfo_refused c (fits_eq_false hm (by omega)),
    by decide, ?_, ?_⟩
  · exact append_eq_or_setWidth (0x0A#8 ++ 0#16) n (by decide)
  · exact append_eq_or_setWidth (0x0B#8 ++ 0#16) c (by decide)

/-- Settles O46: CLR ends done in the cleared state, whatever the state. -/
theorem clrRestoresTheDataPath : Obligations.ClrRestoresTheDataPath := by
  unfold Obligations.ClrRestoresTheDataPath
  exact fun s => ⟨rfl, by decide⟩

end Sys2Proof.Machine
end

section
/-! PROOFS. What RD and MRD return and when they are refused (spec/47_system.md R256, R257). -/

namespace Sys2Proof.Machine

/-! ## RD -/

/-- The twenty-two configuration registers, CFG[0] first (spec/10_state.md R33). -/
theorem cfgRegs_eq : cfgRegs = [96000, 300, 320, 1800, 1600, 50, 32767, 32, 0x7E, 0x03, 0xF0, 0x8408,
    0xFFFF, 0xFFFF, 6, 0x20, 0x60, 0x01, 0, 1, 1, 350] := by
  decide

/-- Above the named registers only the configuration is read, from number 32 on. -/
theorem readRegister_of_ge_16 (s : State) {n : Nat} (hn : 16 ≤ n) :
    readRegister s n = if 32 ≤ n then (cfgRegs[n - 32]?).map Int.ofNat else none := by
  unfold readRegister
  split
  case h_16 => rfl
  all_goals omega

theorem readRegister_cfg (s : State) {n v : Nat} (hn : 32 ≤ n) (hv : cfgRegs[n - 32]? = some v) :
    readRegister s n = some (v : Int) := by
  rw [readRegister_of_ge_16 s (by omega), if_pos hn, hv]
  rfl

theorem readRegister_reserved (s : State) {n : Nat}
    (hn : n = 6 ∨ (16 ≤ n ∧ n ≤ 31) ∨ 54 ≤ n) : readRegister s n = none := by
  rcases hn with rfl | ⟨hlow, hhigh⟩ | hbeyond
  · rfl
  · rw [readRegister_of_ge_16 s hlow, if_neg (by omega)]
  · have hlen : cfgRegs.length = 22 := rfl
    rw [readRegister_of_ge_16 s (by omega), if_pos (by omega), List.getElem?_eq_none (by omega)]
    rfl

theorem exec_rd_done {s : State} {r : BitVec 8} {v : Int} (h : readRegister s r.toNat = some v) :
    exec (.rd r) s = .next (s.present v) := by
  rw [exec, execRd, zext, h]
  rfl

theorem exec_rd_refused {s : State} {r : BitVec 8} (h : readRegister s r.toNat = none) :
    exec (.rd r) s = .refused (.reservedRegister r) := by
  rw [exec, execRd, zext, h]
  rfl

/-- Settles O47: the named registers one by one, then the configuration and the reserved numbers. -/
theorem rdReturnsTheRegister : Obligations.RdReturnsTheRegister := by
  unfold Obligations.RdReturnsTheRegister
  refine fun s => ⟨rfl, rfl, rfl, rfl, rfl, rfl, rfl, rfl, rfl, rfl, rfl, rfl, rfl, rfl, rfl,
    fun r v hv hr => ?_, fun r hr => ?_, fun r => ?_⟩
  · exact exec_rd_done (readRegister_cfg s hr (cfgRegs_eq ▸ hv))
  · exact exec_rd_refused (readRegister_reserved s hr)
  · exact append_eq_or_setWidth (0x02#8 ++ 0#16) r (by decide)

/-! ## Elements and slots -/

theorem readElement_of_getElem? {l : List Int} {k : Nat} {x : Int} (h : l[k]? = some x) :
    readElement l k = .ok x := by
  rw [readElement, h]

theorem readElement_of_length_le {l : List Int} {k : Nat} (h : l.length ≤ k) :
    readElement l k = .error (.noSuchElement k) := by
  rw [readElement, List.getElem?_eq_none h]

section
variable {α : Type} {l : List α} {f : α → Int} {k : Nat}

theorem readElement_map_of_getElem? {x : α} (h : l[k]? = some x) :
    readElement (l.map f) k = .ok (f x) :=
  readElement_of_getElem? (by rw [List.getElem?_map, h, Option.map_some])

theorem readElement_map_of_length_le (h : l.length ≤ k) :
    readElement (l.map f) k = .error (.noSuchElement k) :=
  readElement_of_length_le (by rwa [List.length_map])

end

section
variable {s : State} {k : Nat}

theorem readSlot_noSuchSlot (hslot : slotExists s.params (k / 256) = false) :
    readSlot s k = .error (.noSuchSlot (k / 256)) := by
  rw [readSlot, if_neg (by simp [hslot])]

theorem readSlot_length (hslot : slotExists s.params (k / 256) = true) (hoff : k % 256 = 255) :
    readSlot s k = .ok (s.opm.get (k / 256)).length := by
  rw [readSlot, if_pos hslot, if_pos hoff]

/-- Below offset 0xFF a slot is read as a sequence of its characters. -/
theorem readSlot_character (hslot : slotExists s.params (k / 256) = true) (hoff : k % 256 ≠ 255) :
    readSlot s k = readElement ((s.opm.get (k / 256)).map fun b => (b.toNat : Int)) (k % 256) := by
  rw [readSlot, if_pos hslot, if_neg hoff]

end

/-! ## MRD -/

section
variable {s : State} {sp : BitVec 3} {idx : BitVec 21}

theorem exec_mrd_done {v : Int} (h : readSpace s sp idx.toNat = .ok v) :
    exec (.mrd sp idx) s = .next (s.present v) := by
  rw [exec, execMrd, zext, h]
  rfl

theorem exec_mrd_refused {why : Refusal} (h : readSpace s sp idx.toNat = .error why) :
    exec (.mrd sp idx) s = .refused why := by
  rw [exec, execMrd, zext, h]
  rfl

end

/-- Settles O48, by the space that each selector names: an element below the length, a refusal at or
beyond it, and OPM slot by slot. -/
theorem mrdReturnsTheElement : Obligations.MrdReturnsTheElement := by
  unfold Obligations.MrdReturnsTheElement
  refine fun s idx => ⟨fun b hb => ?_, fun b hb => ?_, fun x hx => ?_, fun b hb => ?_, fun b hb => ?_,
    fun b hslot hoff hb => ?_, fun hslot hoff => ?_, fun h => ?_, fun h => ?_, fun h => ?_, fun h => ?_,
    fun h => ?_, fun hslot hoff h => ?_, fun hslot => ?_, rfl, rfl, fun sp => ?_⟩
  · exact exec_mrd_done (readElement_map_of_getElem? hb)
  · exact exec_mrd_done (readElement_map_of_getElem? hb)
  · exact exec_mrd_done (readElement_of_getElem? hx)
  · exact exec_mrd_done (readElement_map_of_getElem? hb)
  · exact exec_mrd_done (readElement_map_of_getElem? hb)
  · exact exec_mrd_done ((readSlot_character hslot hoff).trans (readElement_map_of_getElem? hb))
  · exact exec_mrd_done (readSlot_length hslot hoff)
  · exact exec_mrd_refused (readElement_map_of_length_le h)
  · exact exec_mrd_refused (readElement_map_of_length_le h)
  · exact exec_mrd_refused (readElement_of_length_le h)
  · exact exec_mrd_refused (readElement_map_of_length_le h)
  · exact exec_mrd_refused (readElement_map_of_length_le h)
  · exact exec_mrd_refused ((readSlot_character hslot hoff).trans (readElement_map_of_length_le h))
  · exact exec_mrd_refused (readSlot_noSuchSlot hslot)
  · exact append_append_eq_or_setWidth 0x03#8 sp idx (by decide)

end Sys2Proof.Machine
end

section
/-! PROOFS. Which commands fault and with which causes, and the state after a fault
(spec/60_exceptions.md R280 to R288). -/

namespace Sys2Proof.Machine

/-! ## The causes of each command -/

/-- The causes that a command can end in (spec/60_exceptions.md R280). -/
def faultCauses : Instr → List Cause
  | .addrEnc _ _ => [.encodingError, .valueError]
  | .frmBuild => [.encodingError]
  | .encode => [.encodingError, .ioError, .rangeError]
  | .wavWr => [.ioError, .rangeError]
  | _ => []

@[simp] theorem faultCauses_addrEnc (slot ssid : BitVec 8) :
    faultCauses (.addrEnc slot ssid) = [.encodingError, .valueError] := rfl
@[simp] theorem faultCauses_frmBuild : faultCauses .frmBuild = [.encodingError] := rfl
@[simp] theorem faultCauses_encode :
    faultCauses .encode = [.encodingError, .ioError, .rangeError] := rfl
@[simp] theorem faultCauses_wavWr : faultCauses .wavWr = [.ioError, .rangeError] := rfl

/-- The attempt raises no cause but those listed. -/
inductive Attempt.RaisesOnly (l : List Cause) : Attempt → Prop
  | done {s : State} {v : Int} : RaisesOnly l (.done s v)
  | raise {c : Cause} {s : State} (h : c ∈ l) : RaisesOnly l (.raise c s)
  | refuse {why : Refusal} : RaisesOnly l (.refuse why)

theorem Attempt.RaisesOnly.guard {l : List Cause} {p : Prop} [Decidable p] {a : Attempt} {why : Refusal}
    (h : a.RaisesOnly l) : (if p then a else .refuse why).RaisesOnly l := by
  split
  · exact h
  · exact .refuse

theorem Attempt.RaisesOnly.mono {l l' : List Cause} {a : Attempt} (h : a.RaisesOnly l) (hl : l ⊆ l') :
    a.RaisesOnly l' := by
  cases h with
  | done => exact .done
  | raise hc => exact .raise (hl hc)
  | refuse => exact .refuse

/-- A fault presented was raised by the attempt and taken by fault entry. -/
theorem Attempt.RaisesOnly.finish_fault {l : List Cause} {a : Attempt} (h : a.RaisesOnly l) {t : State}
    {c : Cause} {v : Int} (ht : a.finish = .next t) (hfault : t.result = some (.fault c v)) :
    c ∈ l ∧ ∃ u : State, t = u.faultEntry c := by
  cases h with
  | done =>
    cases ht
    cases hfault
  | raise hc =>
    cases ht
    cases hfault
    exact ⟨hc, _, rfl⟩
  | refuse => cases ht

theorem frmBuildStage_raisesOnly (s : State) : (frmBuildStage s).RaisesOnly [.encodingError] := by
  rcases frmBuildStage_cases s with ⟨-, h⟩ | ⟨-, -, h⟩ | ⟨-, -, h⟩ <;> rw [h]
  · exact .refuse
  · exact .raise (by simp)
  · exact .done

theorem wavWrStage_raisesOnly (s : State) : (wavWrStage s).RaisesOnly [.ioError, .rangeError] := by
  cases h : wavWrStage s with
  | done t v => exact .done
  | raise c t => exact .raise (by simpa using (wavWrStage_raise h).1)
  | refuse why => exact .refuse

theorem encodeStages_raisesOnly (s : State) :
    (encodeStages s).RaisesOnly [.encodingError, .ioError, .rangeError] := by
  rcases encodeStages_cases s with ⟨-, h⟩ | ⟨-, -, h⟩ | ⟨-, -, -, h⟩ <;> rw [h]
  · exact .refuse
  · exact .raise (by simp)
  · exact (wavWrStage_raisesOnly _).mono (List.subset_cons_self _ _)

/-- Every command is the finish of an attempt that raises the command's own causes only. -/
theorem exec_raisesOnly (i : Instr) (s : State) :
    ∃ a : Attempt, exec i s = a.finish ∧ a.RaisesOnly (faultCauses i) := by
  cases i with
  | clr | opClr | crcInit | crcUpd _ | crcFin | nrzRst | nrzBit _ | norm | hpfRst | hpfStep _ | hpf =>
    exact ⟨.done _ _, rfl, .done⟩
  | ldNp _ | ldInfo _ | fbPut _ | bbPut _ | bitEnc | phLd _ | toneRun _ _ | afskMod | sbPut _ =>
    exact ⟨_, rfl, .guard .done⟩
  | ldCs slot c => exact ⟨_, rfl, .guard (.guard .done)⟩
  | rd r =>
    refine ⟨_, rfl, ?_⟩
    cases readRegister s (zext r) with
    | some v => exact .done
    | none => exact .refuse
  | mrd sp idx =>
    refine ⟨_, rfl, ?_⟩
    cases readSpace s sp (zext idx) with
    | ok v => exact .done
    | error why => exact .refuse
  | addrEnc slot ssid =>
    refine ⟨_, rfl, .guard ?_⟩
    cases h : addrFault (s.opm.get (zext slot)) (zext ssid) with
    | some c => exact .raise (by simpa using addrFault_cases h)
    | none => exact .done
  | frmBuild => exact ⟨_, rfl, frmBuildStage_raisesOnly s⟩
  | wavWr => exact ⟨_, rfl, wavWrStage_raisesOnly s⟩
  | encode => exact ⟨_, rfl, encodeStages_raisesOnly s⟩

/-- A command that presents a fault has raised a cause of its own and taken it by fault entry. -/
theorem exec_fault {i : Instr} {s t : State} {c : Cause} {v : Int} (ht : exec i s = .next t)
    (hfault : t.result = some (.fault c v)) : c ∈ faultCauses i ∧ ∃ u : State, t = u.faultEntry c := by
  obtain ⟨a, ha, hraises⟩ := exec_raisesOnly i s
  exact hraises.finish_fault (ha ▸ ht) hfault

/-- Settles O56, by the causes listed for each command. -/
theorem onlyFourCommandsFault : Obligations.OnlyFourCommandsFault := by
  unfold Obligations.OnlyFourCommandsFault
  intro i s t c v ht hfault
  obtain ⟨hc, -⟩ := exec_fault ht hfault
  cases i with
  | addrEnc slot ssid => simpa using hc
  | frmBuild => simpa using hc
  | encode => simpa using hc
  | wavWr => simpa using hc
  | _ => cases hc

/-! ## The state after a fault -/

theorem faultCauses_of_loadsOperands {i : Instr} (h : loadsOperands i = true) : faultCauses i = [] := by
  cases i with
  | opClr | ldCs _ _ | ldNp _ | ldInfo _ => rfl
  | _ => cases h

/-- No command that loads the operands faults, so a fault keeps them. -/
theorem exec_fault_keeps_operands {i : Instr} {s t : State} {c : Cause} {v : Int}
    (ht : exec i s = .next t) (hfault : t.result = some (.fault c v)) :
    t.opm = s.opm ∧ t.infom = s.infom ∧ t.npath = s.npath := by
  obtain ⟨a, ha, hleaves⟩ := exec_leaves i s
  obtain ⟨hframe, -⟩ := hleaves.finish (ha ▸ ht)
  refine hframe.operands (Bool.eq_false_iff.2 fun hloads => ?_)
  have hc := (exec_fault ht hfault).1
  rw [faultCauses_of_loadsOperands hloads] at hc
  cases hc

/-- A file reaches the sink only from a command that ends done. -/
theorem exec_fault_keeps_sink {i : Instr} {s t : State} {c : Cause} {v : Int}
    (ht : exec i s = .next t) (hfault : t.result = some (.fault c v)) : t.sinkFiles = s.sinkFiles := by
  rcases outputIsAllOrNothing i s t ht with hkept | ⟨-, -, -, -, hdone⟩
  · exact hkept
  · cases hdone.symm.trans hfault

/-- Settles O55: the state is that of fault entry, which clears the data path, and the operands and the
sink are as before the command. -/
theorem faultEntryState : Obligations.FaultEntryState := by
  unfold Obligations.FaultEntryState
  intro i s t c v ht hfault
  obtain ⟨hopm, hinfom, hnpath⟩ := exec_fault_keeps_operands ht hfault
  have hsink := exec_fault_keeps_sink ht hfault
  obtain ⟨-, u, rfl⟩ := exec_fault ht hfault
  exact ⟨rfl, rfl, rfl, rfl, rfl, rfl, rfl, rfl, rfl, rfl, by simp, by simp, hopm, hinfom, hnpath, hsink⟩

end Sys2Proof.Machine
end

section
/-! PROOFS. Reset: the step that a reset event makes, and the value of every register and buffer after
it (spec/70_reset_and_hazards.md R310, R311). -/

namespace Sys2Proof.Machine

theorem step_of_reset {s : State} {rest : List Input} (hin : s.inputs = .reset :: rest) :
    step s = .next (State.hardReset { s with inputs := rest }) := by
  simp only [step, hin]

theorem step_of_resetDuring {s : State} {w : Word} {rest : List Input}
    (hin : s.inputs = .resetDuring w :: rest) :
    step s = .next (State.hardReset { s with inputs := rest }) := by
  simp only [step, hin]

/-- Settles O7: both events lead to the reset state, the word of an abandoned command not being
decoded. -/
theorem resetAbandonsTheCommand : Obligations.ResetAbandonsTheCommand := by
  unfold Obligations.ResetAbandonsTheCommand
  rintro s w rest (hin | hin)
  · exact step_of_reset hin
  · exact step_of_resetDuring hin

/-- Settles O8, register by register, the configuration by its list of constants. -/
theorem resetStateValues : Obligations.ResetStateValues := by
  unfold Obligations.ResetStateValues
  exact ⟨rfl, rfl, rfl, rfl, rfl, rfl, by decide, by decide, rfl, rfl, Memory.get_nil, rfl, rfl, rfl,
    rfl, rfl, cfgRegs_eq⟩

end Sys2Proof.Machine
end
